-- ==== Sys2Proof/Word.lean ====
section
/-! DEFINITION. Widths of the block's data (spec/40_fixed_point_primitives.md R100). -/

namespace Sys2Proof

/-- One byte of the register space (spec/20_memory.md R62). -/
abbrev Byte := BitVec 8

/-- A 16-bit value: a bin component (read as signed) or a Scaling Factor or a magnitude (R100). -/
abbrev Half := BitVec 16

/-- A 32-bit register word (spec/20_memory.md R61). -/
abbrev Word := BitVec 32

/-- A wrapping 32-bit tick count of the host's counter (R100, spec/46_timer_comparator.md R220). -/
abbrev Instant := BitVec 32

/-- An unsigned 32-bit number of ticks (R100, R220). -/
abbrev Duration := BitVec 32

/-- An unsigned 32-bit number of frequency units (R100, spec/44_peak_interpolator.md R170). -/
abbrev Frequency := BitVec 32

/-- A 6-bit table count (spec/10_state.md R29). -/
abbrev Count := BitVec 6

end Sys2Proof
end

