-- ==== Sys2Proof/Syntax.lean ====
section
/-! DEFINITION. The commands (spec/30_encoding.md R81): one constructor per row of spec/opcode_table.json. -/

namespace Sys2Proof

/-- The eight commands. A command word carries no operand (R82): every operand is a fixed register, read by the
command's meaning. -/
inductive Instr where
  /-- `FFT`, opcode 0x01 (spec/41_fft.md R120) -/
  | fft
  /-- `WINDOW`, opcode 0x02 (spec/42_window.md R140) -/
  | window
  /-- `PEAKS`, opcode 0x04 (spec/43_peak_detector.md R150) -/
  | peaks
  /-- `SCHED`, opcode 0x05 (spec/45_pulse_scheduler.md R193) -/
  | sched
  /-- `ADJUST`, opcode 0x06 (R195) -/
  | adjust
  /-- `CONSUME`, opcode 0x07 (R197) -/
  | consume
  /-- `NEXT`, opcode 0x08 (R201) -/
  | next
  /-- `CMP`, opcode 0x09 (spec/46_timer_comparator.md R221) -/
  | cmp
  deriving DecidableEq, Repr

end Sys2Proof
end

