-- ==== Sys2Proof/Config.lean ====
section
/-! DEFINITION. The parameters an instance of the hardware fixes (spec/00_scope.md R8 to R13), and the values the
spec leaves UNSPECIFIED, each a constant with no body. -/

namespace Sys2Proof

/-- `WINDOW_KIND` (R9, spec/42_window.md R147). -/
inductive WindowKind where
  | rect | hamming | hann | blackman
  deriving DecidableEq, Repr, Inhabited

/-- `OVF_MODE` (R11): the document's debug build or its release build. -/
inductive OvfMode where
  | fault | saturate
  deriving DecidableEq, Repr, Inhabited

/-- Which function `PHASE_FN` is (R10, R107). `reference` is `REF_PHASE` (R108); `other n` is the n-th uninterpreted
function `Config.otherPhase n`, so that nothing can be proved of its values. DESIGN CHOICE (log 3), safe. -/
inductive PhaseFn where
  | reference
  | other (index : Nat)
  deriving DecidableEq, Repr, Inhabited

/-- The configuration record (spec/00_scope.md R8 to R11). `NFFT` and `NBINS` are computed from `nlog2`; `EQ_ENABLE` is
fixed to off and has no field (R11). -/
structure Config where
  /-- `NLOG2` -/
  nlog2 : Nat
  /-- `PRESHIFT` -/
  preshift : Nat
  /-- `MAX_PEAKS` -/
  maxPeaks : Nat
  /-- `RIDGE_CAP` -/
  ridgeCap : Nat
  /-- `SINE`, signed 16-bit entries -/
  sine : List Half
  /-- `WINDOW_KIND` -/
  windowKind : WindowKind
  /-- `WINDOW`, Scaling Factors -/
  window : List Half
  /-- `MIN_BIN` -/
  minBin : Nat
  /-- `NOISE_FLOOR` -/
  noiseFloor : Half
  /-- `FREQ_PER_BIN` -/
  freqPerBin : Frequency
  /-- `MAX_FREQ` -/
  maxFreq : Frequency
  /-- `NC_NUM` -/
  ncNum : Half
  /-- `NC_DEN` -/
  ncDen : Half
  /-- `PHASE_FN` -/
  phaseFn : PhaseFn
  /-- `PERIOD_NUM` -/
  periodNum : BitVec 64
  /-- `PERIOD_MAX` -/
  periodMax : Nat
  /-- `HOLDOFF_RATIO` -/
  holdoffRatio : Half
  /-- `OVF_MODE` -/
  ovfMode : OvfMode
  deriving DecidableEq, Repr, Inhabited

/-- `NFFT = 2^NLOG2` (R8). -/
def Config.nfft (c : Config) : Nat := 2 ^ c.nlog2

/-- `NBINS = NFFT/2` (R8). -/
def Config.nbins (c : Config) : Nat := c.nfft / 2

/-- The default of `RIDGE_CAP`, the most ridges a scan can find (R8, spec/43_peak_detector.md R153, R154). -/
def Config.defaultRidgeCap (c : Config) : Nat := max 1 (c.nbins / 2)

/-- The reference configuration `REF8` (R13). It exists for the test vectors only; no statement about the machine
rests on it. -/
def Config.ref8 : Config where
  nlog2 := 3
  preshift := 4
  maxPeaks := 4
  ridgeCap := 2
  sine := [0, 23170, 32767, 23170, 0, BitVec.ofInt 16 (-23170)]
  windowKind := .rect
  window := List.replicate 8 0xFFFF
  minBin := 0
  noiseFloor := 16
  freqPerBin := 65536
  maxFreq := 0x00040000
  ncNum := 1
  ncDen := 1
  phaseFn := .reference
  periodNum := 524288000
  periodMax := 2 ^ 30
  holdoffRatio := 0x8000
  ovfMode := .fault

/-- The reference configuration `REF32` (R13), for the test vectors only. -/
def Config.ref32 : Config where
  nlog2 := 5
  preshift := 4
  maxPeaks := 4
  ridgeCap := 8
  sine := ([0, 6393, 12539, 18204, 23170, 27245, 30273, 32137, 32767, 32137, 30273, 27245, 23170, 18204, 12539, 6393,
    0, -6393, -12539, -18204, -23170, -27245, -30273, -32137] : List Int).map (BitVec.ofInt 16)
  windowKind := .rect
  window := List.replicate 32 0xFFFF
  minBin := 1
  noiseFloor := 100
  freqPerBin := 65536
  maxFreq := 0x00100000
  ncNum := 1
  ncDen := 1
  phaseFn := .reference
  periodNum := 2097152000
  periodMax := 2 ^ 30
  holdoffRatio := 0x8000
  ovfMode := .fault

/-- The parameters of the chip at hand: the spec gives none of them a value (R8: "none has a value here either"). -/
opaque Config.chipParameters : Config

/-- `PHASE_FN` of an instance that does not use `REF_PHASE` (R107): a total function of the two components. -/
opaque Config.otherPhase : Nat → Half → Half → Half

/-- A byte of `BUF` that nothing has written since `BUF` last became UNSPECIFIED (R260, R234): the draw, then the
byte's offset. -/
opaque Config.freeBufByte : Nat → Nat → Byte

/-- `PEAK[k].freq` after a fault of PEAKS (R234): the draw, then `k`. -/
opaque Config.freePeakFreq : Nat → Nat → Frequency

/-- `PEAK[k].mag` after a fault of PEAKS (R234): the draw, then `k`. -/
opaque Config.freePeakMag : Nat → Nat → Half

/-- `PEAK[k].phase` after a fault of PEAKS (R234): the draw, then `k`. -/
opaque Config.freePeakPhase : Nat → Nat → Half

/-- `PEAK_COUNT` after a fault of PEAKS (R234): any 6-bit value (spec/93_implementation_defined.md G4). -/
opaque Config.freePeakCount : Nat → Count

/-- `STAGE[k].period` after a fault of SCHED (R234): the draw, then `k`. -/
opaque Config.freeStagePeriod : Nat → Nat → Duration

/-- `STAGE[k].offset` after a fault of SCHED (R234): the draw, then `k`. -/
opaque Config.freeStageOffset : Nat → Nat → Duration

/-- `STAGE_COUNT` after a fault of SCHED (R234): any 6-bit value (G4). -/
opaque Config.freeStageCount : Nat → Count

end Sys2Proof
end

