-- ==== Sys2Proof/WellFormed.lean ====
section
/-! DEFINITION. What a well-formed command and a well-formed configuration are (spec/30_encoding.md R82,
spec/00_scope.md R12). -/

namespace Sys2Proof

/-- A command has no operand field that could be out of range (R82), so each is well formed. -/
def Instr.wellFormed : Instr → Bool
  | .fft => true
  | .window => true
  | .peaks => true
  | .sched => true
  | .adjust => true
  | .consume => true
  | .next => true
  | .cmp => true

/-- R8: `NLOG2` from 2 to 14. -/
def Config.nlog2Ok (c : Config) : Bool := decide (2 ≤ c.nlog2 ∧ c.nlog2 ≤ 14)

/-- R8: `PRESHIFT` from 0 to 15. -/
def Config.preshiftOk (c : Config) : Bool := decide (c.preshift ≤ 15)

/-- R8: `MAX_PEAKS` from 1 to 32. -/
def Config.maxPeaksOk (c : Config) : Bool := decide (1 ≤ c.maxPeaks ∧ c.maxPeaks ≤ 32)

/-- R8: `RIDGE_CAP` at least 1. -/
def Config.ridgeCapOk (c : Config) : Bool := decide (1 ≤ c.ridgeCap)

/-- R12: `len(SINE) = 3*NFFT/4`. -/
def Config.sineLengthOk (c : Config) : Bool := decide (c.sine.length = 3 * c.nfft / 4)

/-- R12: every `SINE[i]` lies in -32767 to 32767. -/
def Config.sineRangeOk (c : Config) : Bool := c.sine.all fun x => decide (-32767 ≤ x.toInt)

/-- R12: `len(WINDOW) = NFFT`. -/
def Config.windowLengthOk (c : Config) : Bool := decide (c.window.length = c.nfft)

/-- R12: `MIN_BIN < NBINS`. -/
def Config.minBinOk (c : Config) : Bool := decide (c.minBin < c.nbins)

/-- R10, R12: `FREQ_PER_BIN >= 1` and `NBINS * FREQ_PER_BIN <= 2^32 - 1`. -/
def Config.freqPerBinOk (c : Config) : Bool :=
  decide (1 ≤ c.freqPerBin.toNat ∧ c.nbins * c.freqPerBin.toNat ≤ 2 ^ 32 - 1)

/-- R10: `MAX_FREQ` at least 1. -/
def Config.maxFreqOk (c : Config) : Bool := decide (1 ≤ c.maxFreq.toNat)

/-- R10: `NC_NUM` and `NC_DEN` from 1 to 65535. -/
def Config.nightcoreOk (c : Config) : Bool := decide (1 ≤ c.ncNum.toNat ∧ 1 ≤ c.ncDen.toNat)

/-- R11: `PERIOD_NUM` at least 1. -/
def Config.periodNumOk (c : Config) : Bool := decide (1 ≤ c.periodNum.toNat)

/-- R11, R12: `PERIOD_MAX` from 1 to 2^30. -/
def Config.periodMaxOk (c : Config) : Bool := decide (1 ≤ c.periodMax ∧ c.periodMax ≤ 2 ^ 30)

/-- A well-formed configuration (R12). The ranges that are the width of a field hold by its type. -/
def Config.wellFormed (c : Config) : Bool :=
  c.nlog2Ok && c.preshiftOk && c.maxPeaksOk && c.ridgeCapOk && c.sineLengthOk && c.sineRangeOk && c.windowLengthOk &&
    c.minBinOk && c.freqPerBinOk && c.maxFreqOk && c.nightcoreOk && c.periodNumOk && c.periodMaxOk

/-- The configuration of the chip at hand: any well-formed one. "a model refuses to be instantiated with" an
ill-formed one (R12), so ill-formed parameters are not taken. DESIGN CHOICE (log 2), safe. -/
def Config.chip : Config :=
  if Config.chipParameters.wellFormed then Config.chipParameters else Config.ref8

end Sys2Proof
end

