-- ==== Sys2Proof/Decode.lean ====
section
/-! DEFINITION. Byte order of the register space, the decoder and the encoder (spec/20_memory.md R62,
spec/30_encoding.md R80 to R83). -/

namespace Sys2Proof

/-- The four bytes of a word, the one at the lowest offset first: little-endian (R62). -/
def bytesOfWord (w : Word) : List Byte :=
  [w.extractLsb' 0 8, w.extractLsb' 8 8, w.extractLsb' 16 8, w.extractLsb' 24 8]

/-- The word of four bytes, the first at the lowest offset (R62). -/
def wordOfBytes (b0 b1 b2 b3 : Byte) : Word := b3 ++ b2 ++ b1 ++ b0

/-- Why a word written to `CMD` is illegal (R83). -/
inductive DecodeError where
  /-- bits 31:8 are not all 0 -/
  | zeroField
  /-- opcode 0x03, reserved for the equalizer this hardware does not have -/
  | equalizer
  /-- opcode 0x00 or 0x0A to 0xFF -/
  | unassigned (opcode : Byte)
  /-- not the four bytes of one word: a command has no other length (R80, R86) -/
  | length
  deriving DecidableEq, Repr

/-- Field `OPCODE`, bits 7:0 of a command word (R80). -/
def opcodeField (w : Word) : Byte := w.extractLsb' 0 8

/-- Field `ZERO`, bits 31:8 of a command word (R80). -/
def zeroField (w : Word) : BitVec 24 := w.extractLsb' 8 24

/-- The opcode map read forwards (R81, R83). -/
def decodeOpcode (op : Byte) : Except DecodeError Instr :=
  match op.toNat with
  | 0x01 => .ok .fft
  | 0x02 => .ok .window
  | 0x03 => .error .equalizer
  | 0x04 => .ok .peaks
  | 0x05 => .ok .sched
  | 0x06 => .ok .adjust
  | 0x07 => .ok .consume
  | 0x08 => .ok .next
  | 0x09 => .ok .cmp
  | _ => .error (.unassigned op)

/-- The decoder looks at the whole word (R80, R83). -/
def decode (w : Word) : Except DecodeError Instr :=
  if zeroField w = 0 then decodeOpcode (opcodeField w) else .error .zeroField

/-- The decoder on the bytes of a `CMD` write, lowest offset first (R62, R80). -/
def decodeBytes : List Byte → Except DecodeError Instr
  | [b0, b1, b2, b3] => decode (wordOfBytes b0 b1 b2 b3)
  | _ => .error .length

/-- The opcode map read backwards (R81). -/
def opcodeOf : Instr → Byte
  | .fft => 0x01
  | .window => 0x02
  | .peaks => 0x04
  | .sched => 0x05
  | .adjust => 0x06
  | .consume => 0x07
  | .next => 0x08
  | .cmp => 0x09

/-- The word of a command: the opcode in bits 7:0, zeros above (R80, R81). -/
def encode (i : Instr) : Word := (0 : BitVec 24) ++ opcodeOf i

/-- The instruction whose bits are `w`, `nbits` of them given by the opcode table and the rest 0, laid out as the four
bytes of a `CMD` write. A command has 32 bits (R80), so a longer one is refused. -/
def decodeTableWord (nbits w : Nat) : Option Instr :=
  if nbits ≤ 32 then
    match decodeBytes (bytesOfWord (BitVec.ofNat 32 (w % 2 ^ nbits))) with
    | .ok i => some i
    | .error _ => none
  else none

end Sys2Proof
end

