-- ==== Sys2Proof/Machine/State.lean ====
section
/-! DEFINITION. The block's architectural state (spec/10_state.md R20 to R40), the host's side of the register space,
the reasons a step can stop, and the state after reset (spec/70_reset_and_hazards.md R260). -/

namespace Sys2Proof.Machine

/-- `STATUS.FCODE` (R24, spec/60_exceptions.md R231): the cause of the fatal fault; 3 to 7 are never produced. -/
inductive FaultCode where
  /-- 0: no fault -/
  | noFault
  /-- 1: the ridge list is full (spec/43_peak_detector.md R153) -/
  | capacity
  /-- 2: a narrowing conversion does not fit (spec/40_fixed_point_primitives.md R112) -/
  | arith
  deriving DecidableEq, Repr

/-- `STATUS.ERR` (R24, spec/30_encoding.md R85): the result of the most recent write to `CMD`; 4 to 7 are never
produced. -/
inductive ErrCode where
  /-- 0: the command ran to its end -/
  | ok
  /-- 1: CONSUME found no pulse -/
  | race
  /-- 2: the word was illegal -/
  | illegal
  /-- 3: a fatal fault, now or standing -/
  | abort
  deriving DecidableEq, Repr

/-- The fields of `STATUS` (R24). Bits 31:13 are reserved and read as 0; `statusWord` builds the register. -/
structure Status where
  /-- bit 0, `FAULT`: sticky -/
  fault : Bool
  /-- bits 3:1, `FCODE` -/
  fcode : FaultCode
  /-- bits 7:4, `FOP` -/
  fop : BitVec 4
  /-- bits 10:8, `ERR` -/
  err : ErrCode
  /-- bit 11, `NONE` -/
  noneBit : Bool
  /-- bit 12, `HV`: `HOLDOFF` is valid -/
  hv : Bool
  deriving DecidableEq, Repr

/-- An entry of the PEAK table (R33). -/
structure PeakEntry where
  freq : Frequency
  mag : Half
  phase : Half
  deriving DecidableEq, Repr

/-- An entry of the STAGE table, an unadjusted pulse (R34). -/
structure StageEntry where
  period : Duration
  offset : Duration
  deriving DecidableEq, Repr

/-- An entry of the LIVE table, an adjusted pulse (R35). -/
structure LiveEntry where
  period : Duration
  next : Instant
  deriving DecidableEq, Repr

/-- The storage behind `BUF`: (offset in the register space, byte) pairs, offsets strictly rising. An unlisted byte
has no stored value: it is UNSPECIFIED and reads as a free value (R32, R260; log 6). -/
abbrev Memory := List Host.Cell

/-- The canonical form: offsets strictly rising. An unlisted offset reads as no value, so no entry can equal it. -/
def Memory.wf : Memory → Bool
  | [] => true
  | [_] => true
  | a :: b :: rest => decide (a.1 < b.1) && Memory.wf (b :: rest)

/-- One host access of the register space (spec/00_scope.md R7): `MemRead(offset, width)` or
`MemWrite(offset, width, value)`. Only a 4-byte access is legal (spec/20_memory.md R63), so the value of a write is a
word. -/
inductive Access where
  | read (width offset : Nat)
  | write (width offset : Nat) (value : Word)
  deriving DecidableEq, Repr

/-- What comes from outside the block: an access of the host (spec/00_scope.md R5) or a new level of the hard reset
input (spec/70_reset_and_hazards.md R261). -/
inductive HostInput where
  | access (a : Access)
  | resetLine (asserted : Bool)
  deriving DecidableEq, Repr

/-- Why an access is refused (spec/20_memory.md R63, R64; spec/93_implementation_defined.md G18). -/
inductive AccessError where
  /-- not 4 bytes wide (R63) -/
  | width
  /-- not at a multiple of 4 (R63) -/
  | misaligned
  /-- an offset the map does not list (R64) -/
  | undefinedOffset
  /-- made while the hard reset input is asserted (spec/93_implementation_defined.md G18). DESIGN CHOICE (log 9). -/
  | underHardReset
  deriving DecidableEq, Repr

/-- What the last access answered on the bus. -/
inductive BusResponse where
  /-- no access yet -/
  | idle
  /-- a write completed -/
  | written
  /-- a read returned its data -/
  | data (w : Word)
  /-- the error response of a refused access (R63, R64, G18): no data -/
  | refused (e : AccessError)
  deriving DecidableEq, Repr

/-- The state: the whole of R20, the level of the hard reset input (R261), and five fields of the model's own
(`cfg`, `pending`, `response`, `draws`, `bufDraw`). -/
structure State where
  /-- The configuration record (R38, spec/00_scope.md R8 to R12): no step changes it. DESIGN CHOICE (log 1), safe. -/
  cfg : Config
  /-- `ARG0` (R26) -/
  arg0 : Word
  /-- `ARG1` (R26) -/
  arg1 : Word
  /-- `RES0` (R27) -/
  res0 : Word
  /-- `RES1` (R27) -/
  res1 : Word
  /-- `THRESH` (R28) -/
  thresh : Half
  /-- `STATUS` (R24) -/
  status : Status
  /-- `PEAK_COUNT` (R29) -/
  peakCount : Count
  /-- `STAGE_COUNT` (R29) -/
  stageCount : Count
  /-- `LIVE_COUNT` (R29) -/
  liveCount : Count
  /-- `HOLDOFF` (R30) -/
  holdoff : Instant
  /-- `PEAK` (R33), `MAX_PEAKS` entries -/
  peak : List PeakEntry
  /-- `STAGE` (R34), `MAX_PEAKS` entries -/
  stage : List StageEntry
  /-- `LIVE` (R35), `MAX_PEAKS` entries -/
  live : List LiveEntry
  /-- `BUF` (R32) -/
  mem : Memory
  /-- The hard reset input is asserted (R261). -/
  hardReset : Bool
  /-- What the host and the platform will do, oldest first (R5, R70). The model's own. DESIGN CHOICE (log 4). -/
  pending : List HostInput
  /-- What the last access answered (R63 to R66). The model's own. DESIGN CHOICE (log 5). -/
  response : BusResponse
  /-- How many free values have been drawn. The model's own. DESIGN CHOICE (log 8). -/
  draws : Nat
  /-- The draw that the unlisted bytes of `BUF` belong to. The model's own. DESIGN CHOICE (log 8). -/
  bufDraw : Nat
  deriving DecidableEq, Repr

/-- The reasons a step can stop with a fault of the machine: none. A fatal fault of the block is a next state, the
stopped state (spec/60_exceptions.md R234, R235), and there is "no state in which the block stops answering"
(spec/70_reset_and_hazards.md R274). -/
inductive Fault where
  deriving DecidableEq, Repr

/-- Why an instruction has no meaning. -/
inductive Refusal where
  /-- Raised by an arm of `exec` for an instruction without a meaning. Safe. No arm raises it. -/
  | notModelled (mnemonic : String)
  deriving DecidableEq, Repr

/-- `STATUS` after reset: 0 (R260). -/
def Status.reset : Status :=
  { fault := false, fcode := .noFault, fop := 0, err := .ok, noneBit := false, hv := false }

/-- The state right after a reset of an instance with configuration `c` (R260): every register, count and table
entry 0, `HV` clear, `BUF` UNSPECIFIED (nothing listed). -/
def State.resetFor (c : Config) : State where
  cfg := c
  arg0 := 0
  arg1 := 0
  res0 := 0
  res1 := 0
  thresh := 0
  status := Status.reset
  peakCount := 0
  stageCount := 0
  liveCount := 0
  holdoff := 0
  peak := List.replicate c.maxPeaks { freq := 0, mag := 0, phase := 0 }
  stage := List.replicate c.maxPeaks { period := 0, offset := 0 }
  live := List.replicate c.maxPeaks { period := 0, next := 0 }
  mem := []
  hardReset := false
  pending := []
  response := .idle
  draws := 1
  bufDraw := 0

/-- The machine right after reset (R260), of the chip at hand. -/
def State.reset : State := State.resetFor Config.chip

end Sys2Proof.Machine
end

