-- ==== Sys2Proof/Machine/Flags.lean ====
section
/-! DEFINITION. `STATUS`, the only flags register (spec/10_state.md R24, spec/30_encoding.md R85,
spec/60_exceptions.md R231). -/

namespace Sys2Proof.Machine

/-- The 3-bit code of `STATUS.FCODE` (R24, R231). -/
def fcodeBits : FaultCode → BitVec 3
  | .noFault => 0
  | .capacity => 1
  | .arith => 2

/-- The 3-bit code of `STATUS.ERR` (R24, R85). -/
def errBits : ErrCode → BitVec 3
  | .ok => 0
  | .race => 1
  | .illegal => 2
  | .abort => 3

/-- The `STATUS` register (R24): bits 31:13 reserved 0, `HV`, `NONE`, `ERR`, `FOP`, `FCODE`, `FAULT`. -/
def statusWord (t : Status) : Word :=
  (0 : BitVec 19) ++ (BitVec.ofBool t.hv ++ (BitVec.ofBool t.noneBit ++ (errBits t.err ++ (t.fop ++
    (fcodeBits t.fcode ++ BitVec.ofBool t.fault)))))

/-- The output signal `fault_o`: it equals `STATUS.FAULT` at all times (spec/60_exceptions.md R238; log 13). -/
def State.faultOut (s : State) : Bool := s.status.fault

/-- `STATUS.ERR <- e` (R85). -/
def State.setErr (s : State) (e : ErrCode) : State := { s with status := { s.status with err := e } }

/-- `STATUS.NONE <- b` (R24, spec/45_pulse_scheduler.md R201). -/
def State.setNone (s : State) (b : Bool) : State := { s with status := { s.status with noneBit := b } }

/-- `STATUS.HV <- b` (R24, R30). -/
def State.setHv (s : State) (b : Bool) : State := { s with status := { s.status with hv := b } }

/-- The status part of fault entry (spec/60_exceptions.md R234): `FAULT <- 1`, `FCODE <- code`, `FOP <- fop`,
`ERR <- 3`. -/
def State.setFault (s : State) (code : FaultCode) (fop : BitVec 4) : State :=
  { s with status := { s.status with fault := true, fcode := code, fop := fop, err := .abort } }

end Sys2Proof.Machine
end

