-- ==== Sys2Proof/Machine/Operands.lean ====
section
/-! DEFINITION. The operands of the commands (spec/30_encoding.md R82): each is a fixed register, read at the moment of
the `CMD` write and left unchanged. FFT, WINDOW and SCHED have none. -/

namespace Sys2Proof.Machine

/-- PEAKS: `amplitude_threshold`, `THRESH[15:0]` (R82, spec/10_state.md R28). -/
def State.amplitudeThreshold (s : State) : Half := s.thresh

/-- ADJUST: `start_instant`, `ARG0` (R82, R26). -/
def State.startInstant (s : State) : Instant := s.arg0

/-- CONSUME: `at`, `ARG0` (R82, R26). -/
def State.atInstant (s : State) : Instant := s.arg0

/-- NEXT: `after`, `ARG0` (R82, R26). -/
def State.afterInstant (s : State) : Instant := s.arg0

/-- CMP: instant A, `ARG0` (R82, R26). -/
def State.instantA (s : State) : Instant := s.arg0

/-- CMP: instant B, `ARG1` (R82, R26). -/
def State.instantB (s : State) : Instant := s.arg1

end Sys2Proof.Machine
end

