-- ==== Sys2Proof/Machine/Primitives.lean ====
section
/-! DEFINITION. The fixed-point arithmetic primitives (spec/40_fixed_point_primitives.md R101 to R113), on exact
integers: a result is narrowed only where a rule names the narrowing (R113). -/

namespace Sys2Proof.Machine

/-- R101: the signed 16-bit value congruent to `v` modulo 2^16. -/
def wrap16 (v : Int) : Int := (v + 32768) % 65536 - 32768

/-- R103: apply a Scaling Factor, rounding to nearest, halves up. -/
def sfApply (v : Half) (x : Int) : Int := (x * (v.toNat : Int) + 32768) >>> (16 : Nat)

/-- R104: the rounded Q15 product. -/
def qmul (a b : Int) : Int := (a * b + 16384) >>> (15 : Nat)

/-- R105: the squared magnitude; exact. -/
def sqmag (re im : Int) : Nat := (re * re + im * im).toNat

/-- The largest `r` with `r*r <= n` among `root` plus the numbers below `2^bits`, one bit at a time. -/
def isqrtBits (n : Nat) : Nat → Nat → Nat
  | 0, root => root
  | bits + 1, root =>
    let trial := root + 2 ^ bits
    if trial * trial ≤ n then isqrtBits n bits trial else isqrtBits n bits root

/-- R106: the floor of the square root, for `0 <= n <= 2^32 - 1`. -/
def isqrt (n : Nat) : Nat := isqrtBits n 16 0

/-- R108: `REF_PHASE`, the reference instance of `PHASE_FN`. -/
def refPhase (re im : Int) : Nat :=
  if re = 0 ∧ im = 0 then 0
  else
    let ax := re.natAbs
    let ay := im.natAbs
    let mn := min ax ay
    let mx := max ax ay
    let r := (mn * 2 ^ 15) / mx
    let o := (r * (8192 + (2847 * (32768 - r)) / 2 ^ 15)) / 2 ^ 15
    let a := if ay > ax then 16384 - o else o
    let a := if re < 0 then 32768 - a else a
    let a := if im < 0 then 65536 - a else a
    a % 65536

/-- R107: `PHASE_FN` of an instance. -/
def phaseOf (f : PhaseFn) (re im : Half) : Half :=
  match f with
  | .reference => BitVec.ofNat 16 (refPhase re.toInt im.toInt)
  | .other n => Config.otherPhase n re im

/-- R109: the ticks from `a` forward to `b` on the wrapping counter. -/
def tdiff (a b : Instant) : Word := b - a

/-- R110: `b` is future or present seen from `a`. -/
def isFuture (a b : Instant) : Bool := decide ((tdiff a b).toNat < 2 ^ 31)

/-- R111: the offset of an instant `b` seen from `a`; a past instant counts as due now. -/
def effOffset (a b : Instant) : Nat := if isFuture a b then (tdiff a b).toNat else 0

/-- R112: narrow an exact integer under the overflow policy. -/
def narrow (mode : OvfMode) (v lo hi : Int) : Except FaultCode Int :=
  if lo ≤ v ∧ v ≤ hi then .ok v
  else
    match mode with
    | .fault => .error .arith
    | .saturate => .ok (if v < lo then lo else hi)

/-- R6: ceiling division for `a >= 0`, `b > 0`. At `b = 0`, which no reachable state meets (spec/10_state.md R39), the
quotient is 0 (log 10). -/
def ceilDiv (a b : Int) : Int := (a + b - 1) / b

/-- Run a conversion that may fault over a list, in order; the first fault is the result (spec/60_exceptions.md
R237). -/
def mapOrFault {α β : Type} (f : α → Except FaultCode β) : List α → Except FaultCode (List β)
  | [] => .ok []
  | a :: rest =>
    match f a with
    | .error code => .error code
    | .ok b =>
      match mapOrFault f rest with
      | .error code => .error code
      | .ok bs => .ok (b :: bs)

end Sys2Proof.Machine
end

