-- ==== Sys2Proof/Machine/Ops.lean ====
section
/-! DEFINITION. The operations the commands share: the memory behind `BUF` (spec/20_memory.md R62, R67, R68), the
tables (spec/10_state.md R29), command start and the stopped state (spec/30_encoding.md R84), fault entry
(spec/60_exceptions.md R234) and the two resets (spec/70_reset_and_hazards.md R260, R261). -/

namespace Sys2Proof.Machine

/-! ### The memory behind `BUF` -/

/-- The stored byte at an offset; none where nothing is listed. -/
def Memory.byte? : Memory → Nat → Option Byte
  | [], _ => none
  | (k, b) :: rest, a => if k = a then some b else Memory.byte? rest a

/-- Store one byte, keeping the offsets strictly rising. -/
def Memory.put : Memory → Nat → Byte → Memory
  | [], a, b => [(a, b)]
  | (k, x) :: rest, a, b =>
    if a < k then (a, b) :: (k, x) :: rest
    else if a = k then (a, b) :: rest
    else (k, x) :: Memory.put rest a b

/-- Store bytes at consecutive offsets from `a`. -/
def Memory.putBytes : Memory → Nat → List Byte → Memory
  | m, _, [] => m
  | m, a, b :: bs => Memory.putBytes (Memory.put m a b) (a + 1) bs

/-- The offset of complex word `i` of `BUF` (R61). -/
def bufOffset (i : Nat) : Nat := 0x10000 + 4 * i

/-- A complex word: real and imaginary part, each a signed 16-bit value (spec/10_state.md R32). -/
structure Bin where
  re : Half
  im : Half
  deriving DecidableEq, Repr

/-- The complex word of a 32-bit word: the real part in bits 15:0, the imaginary part in bits 31:16 (R61, R67). -/
def binOfWord (w : Word) : Bin := { re := w.extractLsb' 0 16, im := w.extractLsb' 16 16 }

/-- The 32-bit word of a complex word (R61). -/
def wordOfBin (b : Bin) : Word := b.im ++ b.re

/-- Read one byte of `BUF` by its offset. A byte that nothing has written since `BUF` last became UNSPECIFIED is a free
value (R260, R234; log 6). -/
def State.bufByte (s : State) (a : Nat) : Byte :=
  match s.mem.byte? a with
  | some b => b
  | none => Config.freeBufByte s.bufDraw a

/-- Read complex word `i` of `BUF` as a 32-bit word (R61, R62). -/
def State.bufWord (s : State) (i : Nat) : Word :=
  wordOfBytes (s.bufByte (bufOffset i)) (s.bufByte (bufOffset i + 1)) (s.bufByte (bufOffset i + 2))
    (s.bufByte (bufOffset i + 3))

/-- Store a 32-bit word into complex word `i` of `BUF` (R62, R67). -/
def Memory.putWord (m : Memory) (i : Nat) (w : Word) : Memory := Memory.putBytes m (bufOffset i) (bytesOfWord w)

/-- `BUF[i] <- w` (R67): both halves exactly as written. -/
def State.setBufWord (s : State) (i : Nat) (w : Word) : State := { s with mem := s.mem.putWord i w }

/-- Complex word `i` of `BUF` (R32). -/
def State.bin (s : State) (i : Nat) : Bin := binOfWord (s.bufWord i)

/-- The whole of `BUF`, words 0 to `NFFT - 1` (R32). -/
def State.loadBuf (s : State) : List Bin := (List.range s.cfg.nfft).map s.bin

/-- Store complex words at indices `i`, `i + 1`, … (R68). -/
def Memory.putBins : Memory → Nat → List Bin → Memory
  | m, _, [] => m
  | m, i, b :: bs => Memory.putBins (m.putWord i (wordOfBin b)) (i + 1) bs

/-- Store complex words into `BUF` from word 0 (R68). -/
def State.storeBuf (s : State) (bins : List Bin) : State := { s with mem := s.mem.putBins 0 bins }

/-! ### Tables -/

/-- Entries 0 to `new.length - 1` of a table replaced, the others kept (R29). -/
def overlay {α : Type} (new old : List α) : List α := new ++ old.drop new.length

/-! ### Command start and fault entry -/

/-- The first part of a `CMD` write of a legal word (R84): in the stopped state `ERR <- ABORT` and nothing else (R235);
otherwise `ERR <- OK`, then the command. -/
def State.command (s : State) (body : State → State) : State :=
  if s.status.fault then s.setErr .abort else body (s.setErr .ok)

/-- `FOP`: bits 3:0 of the opcode (R234). -/
def fopOf (i : Instr) : BitVec 4 := (opcodeOf i).extractLsb' 0 4

/-- The destination of a faulting command becomes UNSPECIFIED (R234): all of `BUF` for WINDOW, the PEAK table and
`PEAK_COUNT` for PEAKS, the STAGE table and `STAGE_COUNT` for SCHED. Free values (log 6, log 7). The other commands
raise no fault (R231). -/
def State.losesDestination (s : State) : Instr → State
  | .window => { s with mem := [], bufDraw := s.draws, draws := s.draws + 1 }
  | .peaks =>
    { s with
      peak := (List.range s.cfg.maxPeaks).map fun k =>
        { freq := Config.freePeakFreq s.draws k, mag := Config.freePeakMag s.draws k,
          phase := Config.freePeakPhase s.draws k }
      peakCount := Config.freePeakCount s.draws
      draws := s.draws + 1 }
  | .sched =>
    { s with
      stage := (List.range s.cfg.maxPeaks).map fun k =>
        { period := Config.freeStagePeriod s.draws k, offset := Config.freeStageOffset s.draws k }
      stageCount := Config.freeStageCount s.draws
      draws := s.draws + 1 }
  | .fft => s
  | .adjust => s
  | .consume => s
  | .next => s
  | .cmp => s

/-- Fault entry, `raise Fault(code)` inside command `i` (R234): the destination UNSPECIFIED, the status fields set,
everything not named kept. -/
def State.faultEntry (s : State) (i : Instr) (code : FaultCode) : State :=
  (s.losesDestination i).setFault code (fopOf i)

/-! ### The resets: the only ways out of the stopped state (R236) -/

/-- The effect of either reset (R260, R261). What the host will do next, the bus answer and the level of the reset
input are not the block's state and stay; `BUF` becomes UNSPECIFIED anew. -/
def State.resetBlock (s : State) : State :=
  { State.resetFor s.cfg with
    hardReset := s.hardReset
    pending := s.pending
    response := s.response
    draws := s.draws + 1
    bufDraw := s.draws }

/-- A new level of the hard reset input (R261): asserting it resets the block. -/
def State.setHardReset (s : State) (asserted : Bool) : State :=
  if asserted then { s.resetBlock with hardReset := true } else { s with hardReset := false }

end Sys2Proof.Machine
end

