-- ==== Sys2Proof/Machine/Compare.lean ====
section
/-! DEFINITION. The wraparound-safe timer comparator: CMP (spec/46_timer_comparator.md R220 to R225). -/

namespace Sys2Proof.Machine

/-- R221: the CMP command on the state. -/
def cmpBody (s : State) : State :=
  { s with
    res0 := tdiff s.instantA s.instantB
    res1 := if isFuture s.instantA s.instantB then 1 else 0 }

/-- `CMP` (R221). -/
def execCmp (s : State) : Host.Outcome State Fault Refusal := .next (s.command cmpBody)

end Sys2Proof.Machine
end

