-- ==== Sys2Proof/Machine/Fft.lean ====
section
/-! DEFINITION. The FFT command (spec/41_fft.md R120 to R128). -/

namespace Sys2Proof.Machine

/-- R121: the `bits`-bit number `i` read backwards. -/
def bitrev : Nat → Nat → Nat
  | 0, _ => 0
  | bits + 1, i => (i % 2) * 2 ^ bits + bitrev bits (i / 2)

/-- Complex word `i` of a buffer; every index a rule gives lies below the buffer's length (spec/20_memory.md R68). -/
def binAt (b : List Bin) (i : Nat) : Bin := b.getD i { re := 0, im := 0 }

/-- R122: after the step, word `i` holds what word `bitrev(i)` held before it. -/
def bitReversed (c : Config) (b : List Bin) : List Bin :=
  (List.range c.nfft).map fun i => binAt b (bitrev c.nlog2 i)

/-- A twiddle factor `(wr, wi)` (R123). -/
structure Twiddle where
  wr : Int
  wi : Int
  deriving DecidableEq, Repr

/-- `SINE[i]` as a signed value (R9); every index read lies in the table (R123). -/
def sineAt (c : Config) (i : Nat) : Int := (c.sine.getD i 0).toInt

/-- R123: the twiddle factor of stage `s`, position `m`. -/
def twiddle (c : Config) (s m : Nat) : Twiddle :=
  let j := m * (c.nfft / 2 ^ (s + 1))
  { wr := sineAt c (j + c.nfft / 4), wi := -sineAt c j }

/-- R124, the real part of `W * lower`: each product rounded on its own. -/
def rotatedRe (w : Twiddle) (lower : Bin) : Int := qmul w.wr lower.re.toInt - qmul w.wi lower.im.toInt

/-- R124, the imaginary part of `W * lower`. -/
def rotatedIm (w : Twiddle) (lower : Bin) : Int := qmul w.wr lower.im.toInt + qmul w.wi lower.re.toInt

/-- R124: halve by a flooring shift, then reduce to 16 bits. -/
def halved (v : Int) : Half := BitVec.ofInt 16 (wrap16 (v >>> (1 : Nat)))

/-- R124: the upper output. -/
def butterflyUpper (w : Twiddle) (upper lower : Bin) : Bin :=
  { re := halved (upper.re.toInt + rotatedRe w lower), im := halved (upper.im.toInt + rotatedIm w lower) }

/-- R124: the lower output. -/
def butterflyLower (w : Twiddle) (upper lower : Bin) : Bin :=
  { re := halved (upper.re.toInt - rotatedRe w lower), im := halved (upper.im.toInt - rotatedIm w lower) }

/-- R124: the butterfly of words `i` and `k`; all reads happen before any write. -/
def butterfly (w : Twiddle) (i k : Nat) (b : List Bin) : List Bin :=
  (b.set k (butterflyLower w (binAt b i) (binAt b k))).set i (butterflyUpper w (binAt b i) (binAt b k))

/-- R125: the butterflies of stage `s`, position `m`: `i = m, m+step, m+2*step, …` below `NFFT`. -/
def stagePosition (c : Config) (s m : Nat) (b : List Bin) : List Bin :=
  (List.range (c.nfft / 2 ^ (s + 1))).foldl
    (fun acc t => butterfly (twiddle c s m) (m + t * 2 ^ (s + 1)) (m + t * 2 ^ (s + 1) + 2 ^ s) acc) b

/-- R125: stage `s`, positions `m = 0` to `half - 1`. -/
def stage (c : Config) (b : List Bin) (s : Nat) : List Bin :=
  (List.range (2 ^ s)).foldl (fun acc m => stagePosition c s m acc) b

/-- R125: the whole transform: bit reversal, then stages 0 to `NLOG2 - 1`. -/
def fftOf (c : Config) (b : List Bin) : List Bin := (List.range c.nlog2).foldl (stage c) (bitReversed c b)

/-- R125: the FFT command on the state. -/
def fftBody (s : State) : State := s.storeBuf (fftOf s.cfg s.loadBuf)

/-- `FFT` (R120, R125). -/
def execFft (s : State) : Host.Outcome State Fault Refusal := .next (s.command fftBody)

end Sys2Proof.Machine
end

