-- ==== Sys2Proof/Machine/Refine.lean ====
section
/-! DEFINITION. Frequency refinement of a ridge (spec/44_peak_interpolator.md R170 to R179). -/

namespace Sys2Proof.Machine

/-- `sq[i]` of the analysed bins; every index a rule gives lies below `NBINS`. -/
def sqAt (sq : List Nat) (i : Nat) : Nat := sq.getD i 0

/-- R171: the magnitude of the centre. -/
def centreMag (sq : List Nat) (b : Nat) : Nat := isqrt (sqAt sq b)

/-- R171: the magnitude of the left neighbour, the centre's at the lower boundary. -/
def leftMag (sq : List Nat) (b : Nat) : Nat := if 1 ≤ b then isqrt (sqAt sq (b - 1)) else centreMag sq b

/-- R171: the magnitude of the right neighbour, the centre's at the upper boundary. -/
def rightMag (c : Config) (sq : List Nat) (b : Nat) : Nat :=
  if b + 1 < c.nbins then isqrt (sqAt sq (b + 1)) else centreMag sq b

/-- R172: towards the larger neighbour. -/
def direction (l r : Nat) : Int := if r > l then 1 else if l > r then -1 else 0

/-- R172: the larger neighbour after the smaller is subtracted; 0 when they are equal. -/
def largeExcess (l r : Nat) : Nat := if r > l then r - min l r else if l > r then l - min l r else 0

/-- R172: the centre after the smaller neighbour is subtracted, clamped at 0. -/
def centreExcess (l m r : Nat) : Nat := m - min l r

/-- R173: the fraction of a bin, a Scaling Factor from 0 to 32767. -/
def halfFraction (l m r : Nat) : Half :=
  BitVec.ofNat 16 (min 65535 ((largeExcess l r * 2 ^ 16) / (centreExcess l m r + 1)) / 2)

/-- R174: the adjustment in frequency units. -/
def adjustment (c : Config) (l m r : Nat) : Int := sfApply (halfFraction l m r) (c.freqPerBin.toNat : Int)

/-- R174: the adjusted frequency. -/
def adjustedFreq (c : Config) (sq : List Nat) (b : Nat) : Int :=
  let l := leftMag sq b
  let r := rightMag c sq b
  (b : Int) * (c.freqPerBin.toNat : Int) + direction l r * adjustment c l (centreMag sq b) r

/-- R175: the nightcore multiplier, rounded to nearest. -/
def nightcore (c : Config) (f0 : Int) : Int := (f0 * (c.ncNum.toNat : Int) + (c.ncDen.toNat : Int) / 2) / (c.ncDen.toNat : Int)

/-- R176: the refined frequency, or `none` for a rejected ridge; may fault in the cast of R175. -/
def refine (c : Config) (sq : List Nat) (b : Nat) : Except FaultCode (Option Frequency) :=
  match narrow c.ovfMode (nightcore c (adjustedFreq c sq b)) 0 (2 ^ 32 - 1) with
  | .error code => .error code
  | .ok f1 => if f1 = 0 ∨ f1 > (c.maxFreq.toNat : Int) then .ok none else .ok (some (BitVec.ofInt 32 f1))

end Sys2Proof.Machine
end

