-- ==== Sys2Proof/Machine/Peaks.lean ====
section
/-! DEFINITION. The PEAKS command: ridge scan, selection, culling, storing (spec/43_peak_detector.md R150 to R161). -/

namespace Sys2Proof.Machine

/-- R151: the squared magnitudes of bins 0 to `NBINS - 1`. -/
def squaredMags (c : Config) (b : List Bin) : List Nat :=
  (b.take c.nbins).map fun x => sqmag x.re.toInt x.im.toInt

/-- R152: the ascent from bin `i`: on while the next bin is higher. `fuel` bounds the turns. -/
def ascend (c : Config) (sq : List Nat) : Nat → Nat → Nat
  | 0, i => i
  | fuel + 1, i => if i + 1 < c.nbins ∧ sqAt sq (i + 1) > sqAt sq i then ascend c sq fuel (i + 1) else i

/-- R152: the descent from bin `i`: on while the next bin is not higher. -/
def descend (c : Config) (sq : List Nat) : Nat → Nat → Nat
  | 0, i => i
  | fuel + 1, i => if i + 1 < c.nbins ∧ sqAt sq (i + 1) ≤ sqAt sq i then descend c sq fuel (i + 1) else i

/-- R152, R153: the scan from bin `i` with `room` places left in the ridge list. Every turn but the last raises `i`, so
`NBINS` turns are enough. -/
def scanFrom (c : Config) (sq : List Nat) : Nat → Nat → Nat → Except FaultCode (List Nat)
  | 0, _, _ => .ok []
  | fuel + 1, room, i =>
    let top := ascend c sq c.nbins i
    if room = 0 then .error .capacity
    else
      let trough := descend c sq c.nbins top
      if trough + 1 ≥ c.nbins then .ok [top]
      else
        match scanFrom c sq fuel (room - 1) trough with
        | .error code => .error code
        | .ok rest => .ok (top :: rest)

/-- R152: the ridge list, bin indices in increasing order. -/
def ridges (c : Config) (sq : List Nat) : Except FaultCode (List Nat) := scanFrom c sq c.nbins c.ridgeCap 1

/-- R156: the higher of two ridges, the first on a tie. -/
def higherRidge (sq : List Nat) (best x : Nat) : Nat := if sqAt sq x > sqAt sq best then x else best

/-- R156: the highest unconsumed ridge, the earliest on a tie. -/
def pickRidge (sq : List Nat) : List Nat → Option Nat
  | [] => none
  | b :: rest => some (rest.foldl (higherRidge sq) b)

/-- R159: the relative threshold. -/
def relativeThreshold (c : Config) (thresh : Half) (maxMag : Nat) : Int :=
  (c.noiseFloor.toNat : Int) + sfApply thresh ((maxMag : Int) - (c.noiseFloor.toNat : Int))

/-- R159: the third culling rule stops the loop at a ridge of magnitude `m`; the first survivor is not tested. -/
def belowThreshold (c : Config) (thresh : Half) (maxMag : Option Nat) (m : Nat) : Bool :=
  match maxMag with
  | none => false
  | some top => decide ((m : Int) < relativeThreshold c thresh top)

/-- R160: the record of a ridge accepted with frequency `f`. -/
def peakOf (c : Config) (bins : List Bin) (sq : List Nat) (b : Nat) (f : Frequency) : PeakEntry :=
  let x := bins.getD b { re := 0, im := 0 }
  { freq := f, mag := BitVec.ofNat 16 (isqrt (sqAt sq b)), phase := phaseOf c.phaseFn x.re x.im }

/-- R155: the selection loop: the unconsumed ridges `left`, the free places `room`, the magnitude of the first survivor.
Every turn consumes one ridge, so as many turns as there are ridges are enough. -/
def selectPeaks (c : Config) (thresh : Half) (bins : List Bin) (sq : List Nat) :
    Nat → List Nat → Nat → Option Nat → Except FaultCode (List PeakEntry)
  | 0, _, _, _ => .ok []
  | turns + 1, left, room, maxMag =>
    if room = 0 then .ok []
    else
      match pickRidge sq left with
      | none => .ok []
      | some b =>
        if b ≤ c.minBin then selectPeaks c thresh bins sq turns (left.erase b) room maxMag
        else if sqAt sq b < c.noiseFloor.toNat * c.noiseFloor.toNat then .ok []
        else if belowThreshold c thresh maxMag (isqrt (sqAt sq b)) then .ok []
        else
          match refine c sq b with
          | .error code => .error code
          | .ok none => selectPeaks c thresh bins sq turns (left.erase b) room (some (maxMag.getD (isqrt (sqAt sq b))))
          | .ok (some f) =>
            match selectPeaks c thresh bins sq turns (left.erase b) (room - 1)
                (some (maxMag.getD (isqrt (sqAt sq b)))) with
            | .error code => .error code
            | .ok rest => .ok (peakOf c bins sq b f :: rest)

/-- R155: the whole of `find_peaks`: the peaks in the order they are stored. -/
def findPeaks (c : Config) (thresh : Half) (bins : List Bin) : Except FaultCode (List PeakEntry) :=
  let sq := squaredMags c bins
  match ridges c sq with
  | .error code => .error code
  | .ok rs => selectPeaks c thresh bins sq rs.length rs c.maxPeaks none

/-- R155: the PEAKS command on the state. -/
def peaksBody (s : State) : State :=
  match findPeaks s.cfg s.amplitudeThreshold s.loadBuf with
  | .ok ps => { s with peak := overlay ps s.peak, peakCount := BitVec.ofNat 6 ps.length }
  | .error code => s.faultEntry .peaks code

/-- `PEAKS` (R150, R155). -/
def execPeaks (s : State) : Host.Outcome State Fault Refusal := .next (s.command peaksBody)

end Sys2Proof.Machine
end

