-- ==== Sys2Proof/Machine/Schedule.lean ====
section
/-! DEFINITION. The pulse-train scheduler: SCHED, ADJUST, CONSUME, NEXT (spec/45_pulse_scheduler.md R190 to R209). -/

namespace Sys2Proof.Machine

/-! ### SCHED -/

/-- R191: the period of a frequency, in ticks. A frequency of 0, which no reachable state holds (spec/10_state.md R39),
has the quotient 0 (log 10). -/
def toPeriod (c : Config) (f : Frequency) : Except FaultCode Int :=
  narrow c.ovfMode (((c.periodNum.toNat + f.toNat / 2) / f.toNat : Nat) : Int) 1 (c.periodMax : Int)

/-- R192: the phase delay of a pulse of period `p`. -/
def phaseDelay (phase : Half) (p : Int) : Int := sfApply phase p

/-- R193 for one peak. -/
def stageOf (c : Config) (e : PeakEntry) : Except FaultCode StageEntry :=
  match toPeriod c e.freq with
  | .error code => .error code
  | .ok p => .ok { period := BitVec.ofInt 32 p, offset := BitVec.ofInt 32 (phaseDelay e.phase p) }

/-- R193: the template of a peak list. -/
def schedulePulses (c : Config) (peaks : List PeakEntry) : Except FaultCode (List StageEntry) :=
  mapOrFault (stageOf c) peaks

/-- R193: the SCHED command on the state. -/
def schedBody (s : State) : State :=
  match schedulePulses s.cfg (s.peak.take s.peakCount.toNat) with
  | .ok es => { s with stage := overlay es s.stage, stageCount := s.peakCount }
  | .error code => s.faultEntry .sched code

/-- `SCHED` (R193). -/
def execSched (s : State) : Host.Outcome State Fault Refusal := .next (s.command schedBody)

/-! ### ADJUST -/

/-- R195 for one template entry: anchored at `start`. -/
def anchored (start : Instant) (e : StageEntry) : LiveEntry := { period := e.period, next := start + e.offset }

/-- R195: the ADJUST command on the state. -/
def adjustBody (s : State) : State :=
  { s with
    live := overlay ((s.stage.take s.stageCount.toNat).map (anchored s.startInstant)) s.live
    liveCount := s.stageCount }

/-- `ADJUST` (R195). -/
def execAdjust (s : State) : Host.Outcome State Fault Refusal := .next (s.command adjustBody)

/-! ### CONSUME -/

/-- R197, R198: a matching pulse moves forward by exactly its own period; another is not touched. -/
def advancedIf (t : Instant) (e : LiveEntry) : LiveEntry :=
  if e.next = t then { e with next := t + e.period } else e

/-- R199: the holdoff instant a pulse of period `p` fired at `t` leaves. -/
def holdoffAfter (c : Config) (t : Instant) (p : Duration) : Instant :=
  t + BitVec.ofInt 32 (sfApply c.holdoffRatio (p.toNat : Int))

/-- The pulses of the live table, entries 0 to `LIVE_COUNT - 1` (R29, R35). -/
def State.livePulses (s : State) : List LiveEntry := s.live.take s.liveCount.toNat

/-- R197: the pulses whose `next` is `t`, in index order: exact 32-bit equality. -/
def matching (t : Instant) (es : List LiveEntry) : List LiveEntry := es.filter fun e => e.next = t

/-- R199: each matching pulse overwrites the holdoff in turn; the highest index remains. -/
def holdoffOfMatches (c : Config) (t : Instant) (old : Instant) (fired : List LiveEntry) : Instant :=
  fired.foldl (fun _ e => holdoffAfter c t e.period) old

/-- R197: the CONSUME command on the state; with no match, `RACE` (R200). -/
def consumeBody (s : State) : State :=
  let t := s.atInstant
  let fired := matching t s.livePulses
  let s1 := { s with res0 := BitVec.ofNat 32 fired.length }
  if fired.length = 0 then s1.setErr .race
  else
    State.setHv
      { s1 with
        live := overlay (s.livePulses.map (advancedIf t)) s.live
        holdoff := holdoffOfMatches s.cfg t s.holdoff fired } true

/-- `CONSUME` (R197). -/
def execConsume (s : State) : Host.Outcome State Fault Refusal := .next (s.command consumeBody)

/-! ### NEXT -/

/-- R202: the holdoff has expired seen from `after`: valid and past. -/
def State.holdoffExpired (s : State) (after : Instant) : Bool := s.status.hv && !isFuture after s.holdoff

/-- R202: the current holdoff seen from `after`, in ticks: 0 when none is valid or it has expired. -/
def State.currentHoldoff (s : State) (after : Instant) : Nat :=
  if s.status.hv then effOffset after s.holdoff else 0

/-- R203: the signed offset of an instant seen from `after`, negative when past. -/
def signedOffset (after t : Instant) : Int :=
  if isFuture after t then ((tdiff after t).toNat : Int) else ((tdiff after t).toNat : Int) - 2 ^ 32

/-- R203: the least number of periods that brings a held-off pulse to the holdoff. -/
def heldOffPeriods (after : Instant) (h : Nat) (e : LiveEntry) : Int :=
  ceilDiv ((h : Int) - signedOffset after e.next) (e.period.toNat : Int)

/-- R203: a pulse whose effective offset is below the holdoff `h` is moved; another is not. -/
def heldOff (after : Instant) (h : Nat) (e : LiveEntry) : LiveEntry :=
  if effOffset after e.next < h then
    { e with next := BitVec.ofInt 32 ((e.next.toNat : Int) + heldOffPeriods after h e * (e.period.toNat : Int)) }
  else e

/-- R204: the sooner of two pulses seen from `after`, the first on equal offsets. -/
def sooner (after : Instant) (best e : LiveEntry) : LiveEntry :=
  if effOffset after e.next < effOffset after best.next then e else best

/-- R204: the soonest of a list of pulses, the lowest index on a tie; none of an empty list. -/
def soonest (after : Instant) : List LiveEntry → Option LiveEntry
  | [] => none
  | e :: rest => some (rest.foldl (sooner after) e)

/-- R201: the NEXT command on the state; the empty table is R205. -/
def nextBody (s : State) : State :=
  let after := s.afterInstant
  let moved := s.livePulses.map (heldOff after (s.currentHoldoff after))
  match soonest after moved with
  | none => s.setNone true
  | some best =>
    State.setNone
      (State.setHv
        { s with
          live := overlay moved s.live
          res0 := best.next
          res1 := BitVec.ofNat 32 (effOffset after best.next) }
        (s.status.hv && !s.holdoffExpired after)) false

/-- `NEXT` (R201). -/
def execNext (s : State) : Host.Outcome State Fault Refusal := .next (s.command nextBody)

end Sys2Proof.Machine
end

