-- ==== Sys2Proof/Machine/Window.lean ====
section
/-! DEFINITION. The WINDOW command and the window constant (spec/42_window.md R140 to R149). -/

namespace Sys2Proof.Machine

/-- `WINDOW[i]` (spec/00_scope.md R9). -/
def windowAt (c : Config) (i : Nat) : Half := c.window.getD i 0

/-- R142: the pre-shifted sample, narrowed to signed 16 bits under the overflow policy. -/
def preShift (c : Config) (x : Int) : Except FaultCode Int := narrow c.ovfMode (x * 2 ^ c.preshift) (-32768) 32767

/-- R143, R144: scale by the coefficient of the index; for `RECT` the multiply is skipped altogether. -/
def windowScale (c : Config) (i : Nat) (x : Int) : Int :=
  match c.windowKind with
  | .rect => x
  | .hamming => sfApply (windowAt c i) x
  | .hann => sfApply (windowAt c i) x
  | .blackman => sfApply (windowAt c i) x

/-- R146 for word `i`: pre-shift, scale, clear the imaginary part (R145). -/
def windowWord (c : Config) (i : Nat) (b : Bin) : Except FaultCode Bin :=
  match preShift c b.re.toInt with
  | .error code => .error code
  | .ok x => .ok { re := BitVec.ofInt 16 (windowScale c i x), im := 0 }

/-- R146 over the buffer. -/
def windowOf (c : Config) (b : List Bin) : Except FaultCode (List Bin) :=
  mapOrFault (fun p => windowWord c p.2 p.1) b.zipIdx

/-- R146: the WINDOW command on the state. -/
def windowBody (s : State) : State :=
  match windowOf s.cfg s.loadBuf with
  | .ok b => s.storeBuf b
  | .error code => s.faultEntry .window code

/-- `WINDOW` (R140, R146). -/
def execWindow (s : State) : Host.Outcome State Fault Refusal := .next (s.command windowBody)

/-- R148: `WIN_AMP`, a constant of the instance. -/
def winAmp (c : Config) : Half :=
  match c.windowKind with
  | .rect => 0xFFFF
  | .hamming => BitVec.ofNat 16 ((c.window.map BitVec.toNat).sum / 2 ^ c.nlog2)
  | .hann => BitVec.ofNat 16 ((c.window.map BitVec.toNat).sum / 2 ^ c.nlog2)
  | .blackman => BitVec.ofNat 16 ((c.window.map BitVec.toNat).sum / 2 ^ c.nlog2)

end Sys2Proof.Machine
end

