-- ==== Sys2Proof/Machine/Dispatch.lean ====
section
/-! DEFINITION. The meaning of each command (spec/30_encoding.md R81), one arm per constructor. -/

namespace Sys2Proof.Machine

def exec (i : Instr) (s : State) : Host.Outcome State Fault Refusal :=
  match i with
  | .fft => Sys2Proof.Machine.execFft s
  | .window => Sys2Proof.Machine.execWindow s
  | .peaks => Sys2Proof.Machine.execPeaks s
  | .sched => Sys2Proof.Machine.execSched s
  | .adjust => Sys2Proof.Machine.execAdjust s
  | .consume => Sys2Proof.Machine.execConsume s
  | .next => Sys2Proof.Machine.execNext s
  | .cmp => Sys2Proof.Machine.execCmp s

end Sys2Proof.Machine
end

