-- ==== Sys2Proof/Machine/Access.lean ====
section
/-! DEFINITION. The register space as the host sees it: address map, reads, writes, the dispatch of a `CMD` write, the
refused accesses (spec/20_memory.md R60 to R67, spec/30_encoding.md R83, R84, spec/10_state.md R20 to R35). -/

namespace Sys2Proof.Machine

/-- The locations of the address map (R61). -/
inductive Loc where
  | id | cfg | ctrl | status | cmd | arg0 | arg1 | res0 | res1 | thresh
  | peakCount | stageCount | liveCount | holdoff | winAmp
  /-- `PEAK[k].freq` -/
  | peakFreq (k : Nat)
  /-- the word of `PEAK[k].phase` and `PEAK[k].mag` -/
  | peakPhaseMag (k : Nat)
  /-- `STAGE[k].period` -/
  | stagePeriod (k : Nat)
  /-- `STAGE[k].offset` -/
  | stageOffset (k : Nat)
  /-- `LIVE[k].period` -/
  | livePeriod (k : Nat)
  /-- `LIVE[k].next` -/
  | liveNext (k : Nat)
  /-- `BUF[i]` -/
  | buf (i : Nat)
  deriving DecidableEq, Repr

/-- The offset of a location (R61). -/
def offsetOf : Loc → Nat
  | .id => 0x000
  | .cfg => 0x004
  | .ctrl => 0x008
  | .status => 0x00C
  | .cmd => 0x010
  | .arg0 => 0x014
  | .arg1 => 0x018
  | .res0 => 0x01C
  | .res1 => 0x020
  | .thresh => 0x024
  | .peakCount => 0x028
  | .stageCount => 0x02C
  | .liveCount => 0x030
  | .holdoff => 0x034
  | .winAmp => 0x038
  | .peakFreq k => 0x100 + 8 * k
  | .peakPhaseMag k => 0x104 + 8 * k
  | .stagePeriod k => 0x200 + 8 * k
  | .stageOffset k => 0x204 + 8 * k
  | .livePeriod k => 0x300 + 8 * k
  | .liveNext k => 0x304 + 8 * k
  | .buf i => bufOffset i

/-- The locations an instance has: table entries below `MAX_PEAKS`, buffer words below `NFFT` (R61). -/
def Loc.exists? (c : Config) : Loc → Bool
  | .peakFreq k => decide (k < c.maxPeaks)
  | .peakPhaseMag k => decide (k < c.maxPeaks)
  | .stagePeriod k => decide (k < c.maxPeaks)
  | .stageOffset k => decide (k < c.maxPeaks)
  | .livePeriod k => decide (k < c.maxPeaks)
  | .liveNext k => decide (k < c.maxPeaks)
  | .buf i => decide (i < c.nfft)
  | _ => true

/-- The fixed registers by their word index (R61). -/
def registerAt (word : Nat) : Option Loc :=
  match word with
  | 0 => some .id
  | 1 => some .cfg
  | 2 => some .ctrl
  | 3 => some .status
  | 4 => some .cmd
  | 5 => some .arg0
  | 6 => some .arg1
  | 7 => some .res0
  | 8 => some .res1
  | 9 => some .thresh
  | 10 => some .peakCount
  | 11 => some .stageCount
  | 12 => some .liveCount
  | 13 => some .holdoff
  | 14 => some .winAmp
  | _ => none

/-- A table entry: the word at `8k` or the word at `8k + 4` of its region (R61). -/
def entryAt (c : Config) (rel : Nat) (first second : Nat → Loc) : Option Loc :=
  if rel / 8 < c.maxPeaks then (if rel % 8 = 0 then some (first (rel / 8)) else some (second (rel / 8))) else none

/-- The location at a word-aligned offset (R61); none where the map lists nothing (R64). -/
def locAt (c : Config) (off : Nat) : Option Loc :=
  if off < 0x100 then registerAt (off / 4)
  else if off < 0x200 then entryAt c (off - 0x100) .peakFreq .peakPhaseMag
  else if off < 0x300 then entryAt c (off - 0x200) .stagePeriod .stageOffset
  else if off < 0x400 then entryAt c (off - 0x300) .livePeriod .liveNext
  else if off < 0x10000 then none
  else if (off - 0x10000) / 4 < c.nfft then some (.buf ((off - 0x10000) / 4))
  else none

/-- What an access reaches, or why the bus interface refuses it (R63, R64, spec/60_exceptions.md R237). That the reasons
are told apart, and their order, width, then alignment, then the map: DESIGN CHOICE (log 5). -/
def resolve (c : Config) (width off : Nat) : Except AccessError Loc :=
  if width ≠ 4 then .error .width
  else if off % 4 ≠ 0 then .error .misaligned
  else
    match locAt c off with
    | some l => .ok l
    | none => .error .undefinedOffset

/-- `ID` (R21). -/
def idWord : Word := 0x46465407

/-- The 2-bit code of `CFG.WINDOW_KIND` (R22). -/
def windowKindBits : WindowKind → BitVec 2
  | .rect => 0
  | .hamming => 1
  | .hann => 2
  | .blackman => 3

/-- `CFG` (R22): `EQ` and the reserved bits are 0. -/
def cfgWord (c : Config) : Word :=
  (0 : BitVec 10) ++ (BitVec.ofBool (decide (c.ncNum ≠ c.ncDen)) ++ (BitVec.ofBool (decide (c.ovfMode = .saturate)) ++
    (BitVec.ofNat 4 c.preshift ++ (windowKindBits c.windowKind ++ (BitVec.ofNat 6 c.maxPeaks ++ ((0 : BitVec 3) ++
      BitVec.ofNat 5 c.nlog2))))))

/-- `PEAK[k]`, `STAGE[k]`, `LIVE[k]` as the host reads them (R33 to R35); an access reaches `k < MAX_PEAKS` only. -/
def State.peakAt (s : State) (k : Nat) : PeakEntry := s.peak.getD k { freq := 0, mag := 0, phase := 0 }

/-- `STAGE[k]` (R34). -/
def State.stageAt (s : State) (k : Nat) : StageEntry := s.stage.getD k { period := 0, offset := 0 }

/-- `LIVE[k]` (R35). -/
def State.liveAt (s : State) (k : Nat) : LiveEntry := s.live.getD k { period := 0, next := 0 }

/-- The word a host read of a location returns (R61, R65): `CTRL` and `CMD` read 0. -/
def State.readLoc (s : State) : Loc → Word
  | .id => idWord
  | .cfg => cfgWord s.cfg
  | .ctrl => 0
  | .status => statusWord s.status
  | .cmd => 0
  | .arg0 => s.arg0
  | .arg1 => s.arg1
  | .res0 => s.res0
  | .res1 => s.res1
  | .thresh => s.thresh.setWidth 32
  | .peakCount => s.peakCount.setWidth 32
  | .stageCount => s.stageCount.setWidth 32
  | .liveCount => s.liveCount.setWidth 32
  | .holdoff => s.holdoff
  | .winAmp => (winAmp s.cfg).setWidth 32
  | .peakFreq k => (s.peakAt k).freq
  | .peakPhaseMag k => (s.peakAt k).phase ++ (s.peakAt k).mag
  | .stagePeriod k => (s.stageAt k).period
  | .stageOffset k => (s.stageAt k).offset
  | .livePeriod k => (s.liveAt k).period
  | .liveNext k => (s.liveAt k).next
  | .buf i => s.bufWord i

/-- A write of an illegal word to `CMD` (R83, R84): `ILLEGAL`, but `ABORT` in the stopped state. -/
def State.illegalCommand (s : State) : State :=
  if s.status.fault then s.setErr .abort else s.setErr .illegal

/-- A write to `CMD` (R84): the word is decoded and its command executed, to completion, inside the write. -/
def commandWrite (s : State) (w : Word) : Host.Outcome State Fault Refusal :=
  match decodeBytes (bytesOfWord w) with
  | .ok i => exec i s
  | .error _ => .next s.illegalCommand

/-- A write to `CTRL` (R23): bit 0 is `SRST`, the soft reset; bits 31:1 are ignored. -/
def State.writeCtrl (s : State) (w : Word) : State := if w.getLsbD 0 then s.resetBlock else s

/-- A host write to a location (R61, R65): a write to a read-only location changes nothing. -/
def writeLoc (s : State) (l : Loc) (w : Word) : Host.Outcome State Fault Refusal :=
  match l with
  | .ctrl => .next (s.writeCtrl w)
  | .cmd => commandWrite s w
  | .arg0 => .next { s with arg0 := w }
  | .arg1 => .next { s with arg1 := w }
  | .thresh => .next { s with thresh := w.extractLsb' 0 16 }
  | .buf i => .next (s.setBufWord i w)
  | .id => .next s
  | .cfg => .next s
  | .status => .next s
  | .res0 => .next s
  | .res1 => .next s
  | .peakCount => .next s
  | .stageCount => .next s
  | .liveCount => .next s
  | .holdoff => .next s
  | .winAmp => .next s
  | .peakFreq _ => .next s
  | .peakPhaseMag _ => .next s
  | .stagePeriod _ => .next s
  | .stageOffset _ => .next s
  | .livePeriod _ => .next s
  | .liveNext _ => .next s

/-- The bus answer. -/
def State.answer (s : State) (r : BusResponse) : State := { s with response := r }

/-- One host access (R63 to R66): a refused one answers an error and changes no state of the block (log 5). -/
def access (s : State) : Access → Host.Outcome State Fault Refusal
  | .read width off =>
    match resolve s.cfg width off with
    | .error e => .next (s.answer (.refused e))
    | .ok l => .next (s.answer (.data (s.readLoc l)))
  | .write width off w =>
    match resolve s.cfg width off with
    | .error e => .next (s.answer (.refused e))
    | .ok l => writeLoc (s.answer .written) l w

/-- One input from outside (R5, R261). An access under an asserted hard reset input, which the platform must not make, is
refused: it "has no effect and reports so" (spec/93_implementation_defined.md G18; log 9). -/
def takeInput (s : State) : HostInput → Host.Outcome State Fault Refusal
  | .resetLine asserted => .next (s.setHardReset asserted)
  | .access a => if s.hardReset then .next (s.answer (.refused .underHardReset)) else access s a

/-- The first input taken off the list of what is still to come. -/
def State.withPending (s : State) (rest : List HostInput) : State := { s with pending := rest }

/-- The host's write of a word to `CMD`. -/
def cmdWrite (w : Word) : HostInput := .access (.write 4 0x010 w)

/-- One step: the next input is taken and acted on; with none to come the block holds its state and does nothing
(R5, R70, spec/60_exceptions.md R245). -/
def stepInput (s : State) : Host.Outcome State Fault Refusal :=
  match s.pending with
  | [] => .next s
  | e :: rest => takeInput (s.withPending rest) e

/-- The command word `w` as the very next input, the hard reset input released. -/
def State.withNextCommand (s : State) (w : Word) : State :=
  { s with pending := cmdWrite w :: s.pending, hardReset := false }

end Sys2Proof.Machine
end

