-- ==== Sys2Proof/Machine/Step.lean ====
section
/-! DEFINITION. One step of the machine: one host access is one atomic transition (spec/00_scope.md R5,
spec/20_memory.md R66, R70). -/

namespace Sys2Proof.Machine

/-- One step: the next host access or reset-line change. -/
def step (s : State) : Host.Outcome State Fault Refusal := stepInput s

/-- `s` with the command word `w` (its low `nbits` bits, the rest 0) about to be written to `CMD`: the machine fetches
nothing (spec/10_state.md R37), so this stands for the host's write (log 4). -/
def State.withFetchWord (s : State) (nbits w : Nat) : State := s.withNextCommand (BitVec.ofNat 32 (w % 2 ^ nbits))

end Sys2Proof.Machine
end

