-- ==== Sys2Proof/Safety.lean ====
section
/-! DEFINITION. What counts as a safe state and a safe step: the invariants of spec/10_state.md R39, the shape of the
state, and the meaning of `STATUS` (R24). No step of this machine stops (spec/70_reset_and_hazards.md R274). -/

namespace Sys2Proof.Machine

/-- The three tables have `MAX_PEAKS` entries (R33 to R35). -/
abbrev State.TablesSized (s : State) : Prop :=
  s.peak.length = s.cfg.maxPeaks ∧ s.stage.length = s.cfg.maxPeaks ∧ s.live.length = s.cfg.maxPeaks

/-- R39 for the PEAK table. -/
abbrev State.PeaksValid (s : State) : Prop :=
  s.peakCount.toNat ≤ s.cfg.maxPeaks ∧
    ∀ e ∈ s.peak.take s.peakCount.toNat, 1 ≤ e.freq.toNat ∧ e.freq.toNat ≤ s.cfg.maxFreq.toNat ∧ e.mag.toNat ≤ 46340

/-- R39 for the STAGE table. -/
abbrev State.StageValid (s : State) : Prop :=
  s.stageCount.toNat ≤ s.cfg.maxPeaks ∧
    ∀ e ∈ s.stage.take s.stageCount.toNat,
      1 ≤ e.period.toNat ∧ e.period.toNat ≤ s.cfg.periodMax ∧ e.offset.toNat ≤ e.period.toNat

/-- R39 for the LIVE table. -/
abbrev State.LiveValid (s : State) : Prop :=
  s.liveCount.toNat ≤ s.cfg.maxPeaks ∧
    ∀ e ∈ s.live.take s.liveCount.toNat, 1 ≤ e.period.toNat ∧ e.period.toNat ≤ s.cfg.periodMax

/-- The storage behind `BUF` is in canonical form and lists offsets of `BUF` only (R32, spec/20_memory.md R61). -/
abbrev State.MemValid (s : State) : Prop :=
  s.mem.wf = true ∧ ∀ c ∈ s.mem, bufOffset 0 ≤ c.1 ∧ c.1 < bufOffset s.cfg.nfft

/-- `STATUS` (R24, spec/60_exceptions.md R231): `FCODE` and `FOP` are 0 while `FAULT` is 0; with `FAULT` set they name a
cause and one of the three commands that can fault. -/
abbrev State.StatusValid (s : State) : Prop :=
  (s.status.fault = false → s.status.fcode = .noFault ∧ s.status.fop = 0) ∧
    (s.status.fault = true →
      (s.status.fcode = .arith ∧ (s.status.fop = 2 ∨ s.status.fop = 4 ∨ s.status.fop = 5)) ∨
        (s.status.fcode = .capacity ∧ s.status.fop = 4))

/-- The invariant of every step: the configuration is well formed, the state has its shape, `STATUS` reads as R24 says,
and while `FAULT` is 0 the invariants of R39 hold. The LIVE table is no command's fault destination, so its part holds
in the stopped state too. -/
abbrev State.Inv (s : State) : Prop :=
  s.cfg.wellFormed = true ∧ s.TablesSized ∧ s.MemValid ∧ s.StatusValid ∧ s.LiveValid ∧
    (s.status.fault = false → s.PeaksValid ∧ s.StageValid)

/-- The next input is one of the two resets (spec/70_reset_and_hazards.md R261). -/
def State.ResetComes (s : State) : Prop :=
  (∃ rest, s.pending = .resetLine true :: rest) ∨
    (∃ w rest, s.pending = .access (.write 4 0x008 w) :: rest ∧ w.getLsbD 0 = true)

/-- An outcome is a next state that has the property. -/
def NextHas (o : Host.Outcome State Fault Refusal) (P : State → Prop) : Prop := ∃ t, o = .next t ∧ P t

/-- The block's own state, without the host's side and the model's counters: what a refused access and a read leave
alone (spec/20_memory.md R63, R66). -/
def State.SameBlock (s t : State) : Prop :=
  t.cfg = s.cfg ∧ t.arg0 = s.arg0 ∧ t.arg1 = s.arg1 ∧ t.res0 = s.res0 ∧ t.res1 = s.res1 ∧ t.thresh = s.thresh ∧
    t.status = s.status ∧ t.peakCount = s.peakCount ∧ t.stageCount = s.stageCount ∧ t.liveCount = s.liveCount ∧
    t.holdoff = s.holdoff ∧ t.peak = s.peak ∧ t.stage = s.stage ∧ t.live = s.live ∧ t.mem = s.mem ∧
    t.bufDraw = s.bufDraw ∧ t.hardReset = s.hardReset

end Sys2Proof.Machine
end

