-- ==== Sys2Proof/Certificates/Slice0/Obligations.lean ====
section
/-! DEFINITION. The statements for the provers, in the order of OBLIGATIONS.json. A statement about a command that runs
says its next state as the old one with the fields the command writes; every field not named there is unchanged. -/

open Sys2Proof Sys2Proof.Machine

/-! ### Encoding and dispatch -/

/-- R80, R81, R83: the decoder accepts exactly the eight words of the opcode map, each as its own command, whether it
is given the word, its four bytes, or the opcode table's bits. -/
def Obligations.CommandWordsRoundTrip : Prop :=
  (∀ i : Instr, i.wellFormed = true →
    decodeBytes (bytesOfWord (encode i)) = .ok i ∧ decodeTableWord 32 (encode i).toNat = some i) ∧
  (∀ (w : Word) (i : Instr), decode w = .ok i ↔ w = encode i)

/-- R81: the eight words of the opcode map, as numbers, and what each decodes to. -/
def Obligations.OpcodeMapWords : Prop :=
  decode 0x00000001 = .ok .fft ∧ decode 0x00000002 = .ok .window ∧ decode 0x00000004 = .ok .peaks ∧
    decode 0x00000005 = .ok .sched ∧ decode 0x00000006 = .ok .adjust ∧ decode 0x00000007 = .ok .consume ∧
    decode 0x00000008 = .ok .next ∧ decode 0x00000009 = .ok .cmp

/-- R83: which words are illegal, and what writing one does: `ERR <- ILLEGAL` and nothing else; in the stopped state
`ABORT` like any other word. -/
def Obligations.IllegalWordReportsOnly : Prop :=
  (∀ w : Word, (∃ e, decode w = .error e) ↔
    (w.toNat / 256 ≠ 0 ∨ w.toNat % 256 ∉ [0x01, 0x02, 0x04, 0x05, 0x06, 0x07, 0x08, 0x09])) ∧
  (∀ (s : State) (w : Word) (e : DecodeError) (rest : List HostInput), s.hardReset = false →
    s.pending = cmdWrite w :: rest → decode w = .error e →
      (s.status.fault = false →
        step s = .next (State.setErr { s with pending := rest, response := .written } .illegal)) ∧
      (s.status.fault = true →
        step s = .next (State.setErr { s with pending := rest, response := .written } .abort)))

/-- R84 for the first clause: a step that takes the host's write of a legal word to `CMD` is the execution of the command
the word encodes, on the state with that access taken and answered. The second clause, the same for the word that
`withFetchWord` places, is the model's choice, no rule's (log 4, DESIGN CHOICE): the spec has no such operation; it puts
the write to `CMD` before everything else that is to come and releases the hard reset input. -/
def Obligations.StepRunsDecodedCommand : Prop :=
  (∀ (s : State) (w : Word) (i : Instr) (rest : List HostInput), s.hardReset = false → s.pending = cmdWrite w :: rest →
    decode w = .ok i → i.wellFormed = true → step s = exec i { s with pending := rest, response := .written }) ∧
  (∀ (s : State) (i : Instr), i.wellFormed = true →
    step (s.withFetchWord 32 (encode i).toNat) = exec i { s with hardReset := false, response := .written })

/-- R235: in the stopped state every command word, legal or not, reports `ABORT` and changes nothing else; reads answer
as usual, `ARG0`, `ARG1`, `THRESH` and `BUF` can be written, and the soft reset clears the fault. -/
def Obligations.StoppedStateAnswersAbort : Prop :=
  ∀ s : State, s.status.fault = true →
    (∀ i : Instr, exec i s = .next (s.setErr .abort)) ∧
    (∀ w : Word, commandWrite s w = .next (s.setErr .abort)) ∧
    (∀ width off l, resolve s.cfg width off = .ok l →
      access s (.read width off) = .next (s.answer (.data (s.readLoc l)))) ∧
    (∀ w : Word, writeLoc s .arg0 w = .next { s with arg0 := w } ∧ writeLoc s .arg1 w = .next { s with arg1 := w } ∧
      writeLoc s .thresh w = .next { s with thresh := w.setWidth 16 }) ∧
    (∀ (i : Nat) (w : Word), writeLoc s (.buf i) w = .next (s.setBufWord i w)) ∧
    (∀ w : Word, w.getLsbD 0 = true → ∃ t, writeLoc s .ctrl w = .next t ∧ t.status = Status.reset)

/-- R24, R236: `FAULT`, `FCODE` and `FOP` are sticky: a step from the stopped state keeps them, unless its input is one
of the two resets, which clears the whole of `STATUS`. -/
def Obligations.FaultIsStickyUntilReset : Prop :=
  ∀ s t : State, s.status.fault = true → step s = .next t →
    (t.status.fault = true ∧ t.status.fcode = s.status.fcode ∧ t.status.fop = s.status.fop) ∨
    (t.status = Status.reset ∧ s.ResetComes)

/-- R231: a step raises a fatal fault only by a `CMD` write of WINDOW, PEAKS or SCHED; `FOP` is that opcode's low four
bits, `ERR` is `ABORT`, `CAPACITY` comes from PEAKS only, and with `OVF_MODE = SATURATE` it is the only cause. -/
def Obligations.OnlyThreeCommandsFault : Prop :=
  ∀ s t : State, s.status.fault = false → step s = .next t → t.status.fault = true →
    ∃ w i rest, s.pending = .access (.write 4 0x010 w) :: rest ∧ decode w = .ok i ∧
      (i = .window ∨ i = .peaks ∨ i = .sched) ∧ t.status.fop = (encode i).setWidth 4 ∧ t.status.err = .abort ∧
      (t.status.fcode = .arith ∨ (t.status.fcode = .capacity ∧ i = .peaks)) ∧
      (s.cfg.ovfMode = .saturate → t.status.fcode = .capacity)

/-! ### The register space -/

/-- R61, R63, R64: the address decoder and the address map agree: a 4-byte access at the offset of a location the
instance has reaches that location, and an access reaches nothing else. R61: the offset of every location as a number,
and how many entries the tables and `BUF` have. -/
def Obligations.AddressMapRoundTrip : Prop :=
  (∀ c : Config, c.wellFormed = true → ∀ (width off : Nat) (l : Loc),
    resolve c width off = .ok l ↔ (width = 4 ∧ off = offsetOf l ∧ l.exists? c = true)) ∧
  (offsetOf .id = 0x000 ∧ offsetOf .cfg = 0x004 ∧ offsetOf .ctrl = 0x008 ∧ offsetOf .status = 0x00C ∧
    offsetOf .cmd = 0x010 ∧ offsetOf .arg0 = 0x014 ∧ offsetOf .arg1 = 0x018 ∧ offsetOf .res0 = 0x01C ∧
    offsetOf .res1 = 0x020 ∧ offsetOf .thresh = 0x024 ∧ offsetOf .peakCount = 0x028 ∧ offsetOf .stageCount = 0x02C ∧
    offsetOf .liveCount = 0x030 ∧ offsetOf .holdoff = 0x034 ∧ offsetOf .winAmp = 0x038) ∧
  (∀ k : Nat, offsetOf (.peakFreq k) = 0x100 + 8 * k ∧ offsetOf (.peakPhaseMag k) = 0x104 + 8 * k ∧
    offsetOf (.stagePeriod k) = 0x200 + 8 * k ∧ offsetOf (.stageOffset k) = 0x204 + 8 * k ∧
    offsetOf (.livePeriod k) = 0x300 + 8 * k ∧ offsetOf (.liveNext k) = 0x304 + 8 * k ∧
    offsetOf (.buf k) = 0x10000 + 4 * k) ∧
  (∀ (c : Config) (k : Nat),
    ((Loc.buf k).exists? c = true ↔ k < c.nfft) ∧
    ∀ l ∈ [Loc.peakFreq k, .peakPhaseMag k, .stagePeriod k, .stageOffset k, .livePeriod k, .liveNext k],
      l.exists? c = true ↔ k < c.maxPeaks) ∧
  (∀ (c : Config), ∀ l ∈ [Loc.id, .cfg, .ctrl, .status, .cmd, .arg0, .arg1, .res0, .res1, .thresh, .peakCount,
    .stageCount, .liveCount, .holdoff, .winAmp], l.exists? c = true)

/-- R63, R64: an access of a wrong width, a misaligned one, or one to an offset the map does not list is answered by an
error response and changes nothing else. Of the error response R63 and R64 say no more, and R237 names the three causes
together without an order: the three distinct reasons, and that the width comes before the alignment and the alignment
before the map, are the model's own choice, as is the form of the answer, a next state that records it (log 5, DESIGN
CHOICE). -/
def Obligations.RefusedAccessChangesNothing : Prop :=
  ∀ (s : State) (a : Access) (width off : Nat) (rest : List HostInput), s.cfg.wellFormed = true →
    s.hardReset = false → s.pending = .access a :: rest →
    (a = .read width off ∨ ∃ w, a = .write width off w) →
      (width ≠ 4 → step s = .next { s with pending := rest, response := .refused .width }) ∧
      (width = 4 → off % 4 ≠ 0 → step s = .next { s with pending := rest, response := .refused .misaligned }) ∧
      (width = 4 → off % 4 = 0 → (∀ l : Loc, l.exists? s.cfg = true → offsetOf l ≠ off) →
        step s = .next { s with pending := rest, response := .refused .undefinedOffset })

/-- R66: a read of a listed location answers its word and changes no state of the block. -/
def Obligations.ReadsHaveNoSideEffect : Prop :=
  ∀ (s : State) (l : Loc) (rest : List HostInput), s.cfg.wellFormed = true → s.hardReset = false →
    s.pending = .access (.read 4 (offsetOf l)) :: rest → l.exists? s.cfg = true →
      step s = .next { s with pending := rest, response := .data (s.readLoc l) } ∧
      ∀ t, step s = .next t → State.SameBlock s t

/-- R65: a write to a read-only location completes without error and changes nothing; a read of `CTRL` or `CMD` returns
0 and changes nothing; a write to `THRESH` keeps bits 15:0. -/
def Obligations.ReadOnlyWritesAreIgnored : Prop :=
  (∀ (s : State) (l : Loc) (w : Word) (rest : List HostInput), s.cfg.wellFormed = true → s.hardReset = false →
    s.pending = .access (.write 4 (offsetOf l) w) :: rest → l.exists? s.cfg = true →
    l ∉ [Loc.ctrl, Loc.cmd, Loc.arg0, Loc.arg1, Loc.thresh] → (∀ i, l ≠ .buf i) →
      step s = .next { s with pending := rest, response := .written }) ∧
  (∀ (s : State) (off : Nat) (rest : List HostInput), s.hardReset = false → off = 0x008 ∨ off = 0x010 →
    s.pending = .access (.read 4 off) :: rest → step s = .next { s with pending := rest, response := .data 0 }) ∧
  (∀ (s : State) (w : Word) (rest : List HostInput), s.hardReset = false →
    s.pending = .access (.write 4 0x024 w) :: rest →
      step s = .next { s with pending := rest, response := .written, thresh := w.setWidth 16 })

/-- R26, R28: the host writes `ARG0`, `ARG1` and `THRESH`, a read returns the last value written (of `THRESH` its bits
15:0, zero-extended), and no step changes one of them but a host write to it or a reset. -/
def Obligations.OperandRegistersAreTheHosts : Prop :=
  (∀ (s : State) (w : Word) (rest : List HostInput), s.hardReset = false →
    (s.pending = .access (.write 4 0x014 w) :: rest →
      NextHas (step s) fun t => t = { s with pending := rest, response := .written, arg0 := w } ∧
        t.readLoc .arg0 = w) ∧
    (s.pending = .access (.write 4 0x018 w) :: rest →
      NextHas (step s) fun t => t = { s with pending := rest, response := .written, arg1 := w } ∧
        t.readLoc .arg1 = w) ∧
    (s.pending = .access (.write 4 0x024 w) :: rest →
      NextHas (step s) fun t => t = { s with pending := rest, response := .written, thresh := w.setWidth 16 } ∧
        (t.readLoc .thresh).toNat = w.toNat % 2 ^ 16)) ∧
  (∀ s t : State, step s = .next t → s.ResetComes ∨
    ((t.arg0 = s.arg0 ∨ ∃ rest, s.pending = .access (.write 4 0x014 t.arg0) :: rest) ∧
      (t.arg1 = s.arg1 ∨ ∃ rest, s.pending = .access (.write 4 0x018 t.arg1) :: rest) ∧
      (t.thresh = s.thresh ∨ ∃ w rest, s.pending = .access (.write 4 0x024 w) :: rest ∧ t.thresh = w.setWidth 16)))

/-- R67: a host write of a word to `BUF[i]` stores both halves exactly as written, a read returns it, and every byte of
memory outside the word, hence every other complex word, reads as before. -/
def Obligations.BufWriteReadsBack : Prop :=
  ∀ (s : State) (i : Nat) (w : Word), s.cfg.wellFormed = true → i < s.cfg.nfft →
    NextHas (access s (.write 4 (0x10000 + 4 * i) w)) fun t =>
      t = { s with mem := t.mem, response := .written } ∧ t.readLoc (.buf i) = w ∧
      (t.bin i).re = w.setWidth 16 ∧ (t.bin i).im = (w >>> 16).setWidth 16 ∧
      (∀ j, j ≠ i → t.bin j = s.bin j) ∧
      (∀ a, a < 0x10000 + 4 * i ∨ 0x10000 + 4 * i + 4 ≤ a → t.bufByte a = s.bufByte a)

/-- R62: the byte at offset `a + j` of an aligned word is its bits `8j+7 : 8j`; of a `BUF` word the halfword at its
offset is the real part and the one above it the imaginary part. -/
def Obligations.BufIsLittleEndian : Prop :=
  ∀ (s : State) (i j : Nat), j < 4 →
    s.bufByte (bufOffset i + j) = (s.bufWord i >>> (8 * j)).setWidth 8 ∧
    s.bin i = { re := (s.bufWord i).setWidth 16, im := (s.bufWord i >>> 16).setWidth 16 }

/-- R24: the places of the fields of `STATUS`; bits 31:13 read 0. The code numbers of `ERR` (R24, R85) and of `FCODE`
(R24, R231). -/
def Obligations.StatusWordLayout : Prop :=
  (∀ t : Status,
    (statusWord t).getLsbD 0 = t.fault ∧ (statusWord t).extractLsb' 1 3 = fcodeBits t.fcode ∧
    (statusWord t).extractLsb' 4 4 = t.fop ∧ (statusWord t).extractLsb' 8 3 = errBits t.err ∧
    (statusWord t).getLsbD 11 = t.noneBit ∧ (statusWord t).getLsbD 12 = t.hv ∧
    (statusWord t).extractLsb' 13 19 = 0) ∧
  (errBits .ok = 0 ∧ errBits .race = 1 ∧ errBits .illegal = 2 ∧ errBits .abort = 3) ∧
  (fcodeBits .noFault = 0 ∧ fcodeBits .capacity = 1 ∧ fcodeBits .arith = 2)

/-- R21, R22: what `ID` reads, the places of the fields of `CFG` for a well-formed configuration, and the code numbers of
`WINDOW_KIND`; reserved bits and `EQ` read 0. R26, R27, R30: `ARG0`, `ARG1`, `RES0`, `RES1` and `HOLDOFF` read as they
stand. R28, R29: `THRESH` and the counts are zero-extended. R33 to R35: what the words of a PEAK, a STAGE and a LIVE
entry read; `PEAK[k].mag` is in bits 15:0 and `PEAK[k].phase` in bits 31:16. -/
def Obligations.RegisterWordLayouts : Prop :=
  (∀ c : Config, c.wellFormed = true →
    ((cfgWord c).extractLsb' 0 5).toNat = c.nlog2 ∧ (cfgWord c).extractLsb' 5 3 = 0 ∧
    ((cfgWord c).extractLsb' 8 6).toNat = c.maxPeaks ∧ (cfgWord c).extractLsb' 14 2 = windowKindBits c.windowKind ∧
    ((cfgWord c).extractLsb' 16 4).toNat = c.preshift ∧ ((cfgWord c).getLsbD 20 = true ↔ c.ovfMode = .saturate) ∧
    ((cfgWord c).getLsbD 21 = true ↔ c.ncNum ≠ c.ncDen) ∧ (cfgWord c).extractLsb' 22 10 = 0) ∧
  (windowKindBits .rect = 0 ∧ windowKindBits .hamming = 1 ∧ windowKindBits .hann = 2 ∧ windowKindBits .blackman = 3) ∧
  (∀ s : State, s.readLoc .id = 0x46465407 ∧ s.readLoc .cfg = cfgWord s.cfg ∧
    s.readLoc .status = statusWord s.status ∧ s.readLoc .arg0 = s.arg0 ∧ s.readLoc .arg1 = s.arg1 ∧
    s.readLoc .res0 = s.res0 ∧ s.readLoc .res1 = s.res1 ∧ s.readLoc .holdoff = s.holdoff ∧
    (s.readLoc .peakCount).toNat = s.peakCount.toNat ∧
    (s.readLoc .stageCount).toNat = s.stageCount.toNat ∧ (s.readLoc .liveCount).toNat = s.liveCount.toNat ∧
    (s.readLoc .thresh).toNat = s.thresh.toNat ∧
    (∀ k (h : k < s.peak.length), s.readLoc (.peakFreq k) = s.peak[k].freq ∧
      (s.readLoc (.peakPhaseMag k)).extractLsb' 0 16 = s.peak[k].mag ∧
      (s.readLoc (.peakPhaseMag k)).extractLsb' 16 16 = s.peak[k].phase) ∧
    (∀ k (h : k < s.stage.length), s.readLoc (.stagePeriod k) = s.stage[k].period ∧
      s.readLoc (.stageOffset k) = s.stage[k].offset) ∧
    ∀ k (h : k < s.live.length), s.readLoc (.livePeriod k) = s.live[k].period ∧
      s.readLoc (.liveNext k) = s.live[k].next) ∧
  (∀ (s : State) (k : Nat), s.readLoc (.peakFreq k) = (s.peakAt k).freq ∧
    (s.readLoc (.peakPhaseMag k)).extractLsb' 0 16 = (s.peakAt k).mag ∧
    (s.readLoc (.peakPhaseMag k)).extractLsb' 16 16 = (s.peakAt k).phase ∧
    s.readLoc (.stagePeriod k) = (s.stageAt k).period ∧ s.readLoc (.stageOffset k) = (s.stageAt k).offset ∧
    s.readLoc (.livePeriod k) = (s.liveAt k).period ∧ s.readLoc (.liveNext k) = (s.liveAt k).next)

/-- R148, R31: `WIN_AMP` is 0xFFFF for the rectangle and otherwise the floored average of the coefficients. -/
def Obligations.WinAmpIsAverage : Prop :=
  ∀ s : State, s.cfg.wellFormed = true →
    (s.cfg.windowKind = .rect → (s.readLoc .winAmp).toNat = 0xFFFF) ∧
    (s.cfg.windowKind ≠ .rect →
      (s.readLoc .winAmp).toNat = (s.cfg.window.map BitVec.toNat).sum / s.cfg.nfft)

/-! ### Reset -/

/-- R260, R261: the soft reset and the hard reset leave every register, count and table entry 0 and `STATUS` 0; the
configuration stays. The last clause, nothing stored for `BUF` (`mem = []`), is no rule's: R260 leaves the contents of
`BUF` UNSPECIFIED, any value, and the empty list is the model's form of that, in which every byte reads as a free value
(log 6, DEDUCED). -/
def Obligations.BothResetsClearTheBlock : Prop :=
  ∀ s : State,
    let cleared := fun t : State =>
      t.cfg = s.cfg ∧ t.arg0 = 0 ∧ t.arg1 = 0 ∧ t.res0 = 0 ∧ t.res1 = 0 ∧ t.thresh = 0 ∧ statusWord t.status = 0 ∧
        t.faultOut = false ∧ t.peakCount = 0 ∧ t.stageCount = 0 ∧ t.liveCount = 0 ∧ t.holdoff = 0 ∧
        t.peak = List.replicate s.cfg.maxPeaks { freq := 0, mag := 0, phase := 0 } ∧
        t.stage = List.replicate s.cfg.maxPeaks { period := 0, offset := 0 } ∧
        t.live = List.replicate s.cfg.maxPeaks { period := 0, next := 0 } ∧ t.mem = []
    (∀ (w : Word) (rest : List HostInput), s.hardReset = false →
      s.pending = .access (.write 4 0x008 w) :: rest →
        (w.getLsbD 0 = true → NextHas (step s) cleared) ∧
        (w.getLsbD 0 = false → step s = .next { s with pending := rest, response := .written })) ∧
    (∀ rest : List HostInput, s.pending = .resetLine true :: rest → NextHas (step s) cleared)

/-- R260: the state of the machine right after reset. The last clause, `mem = []`, is the model's form of R260's
UNSPECIFIED `BUF` (log 6, DEDUCED). -/
def Obligations.ResetStateIsR260 : Prop :=
  State.reset.arg0 = 0 ∧ State.reset.arg1 = 0 ∧ State.reset.res0 = 0 ∧ State.reset.res1 = 0 ∧
    State.reset.thresh = 0 ∧ statusWord State.reset.status = 0 ∧ State.reset.faultOut = false ∧
    State.reset.peakCount = 0 ∧ State.reset.stageCount = 0 ∧ State.reset.liveCount = 0 ∧ State.reset.holdoff = 0 ∧
    State.reset.peak = List.replicate State.reset.cfg.maxPeaks { freq := 0, mag := 0, phase := 0 } ∧
    State.reset.stage = List.replicate State.reset.cfg.maxPeaks { period := 0, offset := 0 } ∧
    State.reset.live = List.replicate State.reset.cfg.maxPeaks { period := 0, next := 0 } ∧ State.reset.mem = []

/-- R274: every command ends in a next state, on every state, and so does every step: there is no state in which the
block stops answering. The rest is the model's choice, no rule's (log 4, log 9): with nothing to come a step changes
nothing, an access under an asserted hard reset input is refused and changes nothing else, releasing the input changes
nothing else, and asserting it leaves it asserted and the inputs after it to come. -/
def Obligations.EveryStepAnswers : Prop :=
  (∀ (i : Instr) (s : State), NextHas (exec i s) fun _ => True) ∧
  (∀ s : State, NextHas (step s) fun _ => True) ∧
  (∀ s : State, s.pending = [] → step s = .next s) ∧
  (∀ (s : State) (a : Access) (rest : List HostInput), s.hardReset = true → s.pending = .access a :: rest →
    step s = .next { s with pending := rest, response := .refused .underHardReset }) ∧
  (∀ (s : State) (rest : List HostInput), s.pending = .resetLine false :: rest →
    step s = .next { s with pending := rest, hardReset := false }) ∧
  (∀ (s : State) (rest : List HostInput), s.pending = .resetLine true :: rest →
    NextHas (step s) fun t => t.hardReset = true ∧ t.pending = rest ∧ t.response = s.response)

/-! ### Invariants -/

/-- R39, R24, R32: every step keeps the invariant, from every state that has it. -/
def Obligations.StepKeepsInvariant : Prop := ∀ s t : State, s.Inv → step s = .next t → t.Inv

/-- R39: the state right after reset has the invariant. -/
def Obligations.ResetHasInvariant : Prop := State.reset.Inv

/-- R38: no step changes the configuration. -/
def Obligations.ConfigurationNeverChanges : Prop := ∀ s t : State, step s = .next t → t.cfg = s.cfg

/-! ### Arithmetic primitives -/

/-- R101: `wrap16` is the signed 16-bit value congruent to `v` modulo 2^16. -/
def Obligations.Wrap16IsTheCongruentValue : Prop :=
  (∀ v : Int, -32768 ≤ wrap16 v ∧ wrap16 v ≤ 32767 ∧ (65536 : Int) ∣ (wrap16 v - v)) ∧
  (∀ v : Int, -32768 ≤ v → v ≤ 32767 → wrap16 v = v) ∧ wrap16 32768 = -32768 ∧ wrap16 (-32769) = 32767

/-- R103: what `sf_apply` gives: the nearest integer to `x * v / 65536`, halves up; never larger in magnitude than `x`;
monotone. -/
def Obligations.SfApplyRoundsAndShrinks : Prop :=
  ∀ (v : Half) (x : Int),
    (2 * (x * v.toNat) - 65536 < 2 * 65536 * sfApply v x ∧ 2 * 65536 * sfApply v x ≤ 2 * (x * v.toNat) + 65536) ∧
    sfApply 0 x = 0 ∧ sfApply v 0 = 0 ∧ |sfApply v x| ≤ |x| ∧
    (-32767 ≤ x → x ≤ 32768 → sfApply 0xFFFF x = x) ∧ sfApply 0xFFFF (-32768) = -32767 ∧
    (∀ y : Int, x ≤ y → sfApply v x ≤ sfApply v y) ∧
    (∀ u : Half, 0 ≤ x → v.toNat ≤ u.toNat → sfApply v x ≤ sfApply u x)

/-- R104: the rounded Q15 product of a twiddle component and a 16-bit value needs no narrowing. -/
def Obligations.QmulNeedsNoNarrowing : Prop :=
  ∀ (a : Int) (b : Half), -32767 ≤ a → a ≤ 32767 →
    -32767 ≤ qmul a b.toInt ∧ qmul a b.toInt ≤ 32767 ∧
    (2 * (a * b.toInt) - 32768 < 2 * 32768 * qmul a b.toInt ∧
      2 * 32768 * qmul a b.toInt ≤ 2 * (a * b.toInt) + 32768)

/-- R105, R106, R108: `sqmag` is the exact sum of the squares, from 0 to `2^31`, and `isqrt` the floor of the square
root, monotone; the magnitude of a complex word is at most 46340. The phase of a complex word in an instance with
`REF_PHASE` is what the pseudocode of R108 gives: the octant polynomial, reflected into the quadrant. R108's bound on the
polynomial's error is not part of the statement. -/
def Obligations.IsqrtIsFloorOfRoot : Prop :=
  (∀ n : Nat, n ≤ 2 ^ 32 - 1 → isqrt n * isqrt n ≤ n ∧ n < (isqrt n + 1) * (isqrt n + 1)) ∧
  (∀ a b : Nat, a ≤ b → b ≤ 2 ^ 32 - 1 → isqrt a ≤ isqrt b) ∧
  (∀ re im : Half, (sqmag re.toInt im.toInt : Int) = re.toInt * re.toInt + im.toInt * im.toInt ∧
    sqmag re.toInt im.toInt ≤ 2 ^ 31 ∧ isqrt (sqmag re.toInt im.toInt) ≤ 46340) ∧ isqrt (2 ^ 31) = 46340 ∧
  (∀ re im : Half,
    let ax := re.toInt.natAbs
    let ay := im.toInt.natAbs
    let r := min ax ay * 2 ^ 15 / max ax ay
    let o := r * (8192 + 2847 * (32768 - r) / 2 ^ 15) / 2 ^ 15
    let first := if ay > ax then 16384 - o else o
    let second := if re.toInt < 0 then 32768 - first else first
    let below := if im.toInt < 0 then 65536 - second else second
    (phaseOf .reference re im).toNat = if re = 0 ∧ im = 0 then 0 else below % 65536)

/-- R109, R110, R111: the wrapping difference, its sign test and the effective offset. -/
def Obligations.WrappingDifference : Prop :=
  ∀ a b : Instant,
    ((tdiff a b).toNat : Int) = ((b.toNat : Int) - a.toNat) % 2 ^ 32 ∧ a + tdiff a b = b ∧
    (isFuture a b = true ↔ (tdiff a b).toNat < 2 ^ 31) ∧ isFuture a a = true ∧
    (effOffset a b = if (tdiff a b).toNat < 2 ^ 31 then (tdiff a b).toNat else 0) ∧ effOffset a b ≤ 2 ^ 31 - 1 ∧
    ((isFuture a b = false ∧ isFuture b a = false) ↔ (tdiff a b).toNat = 2 ^ 31) ∧
    ((isFuture a b = true ∧ isFuture b a = true) ↔ a = b)

/-- R112: a narrowing keeps a value in range; out of range it raises `ARITH` or goes to the nearer bound. -/
def Obligations.NarrowFollowsThePolicy : Prop :=
  ∀ (mode : OvfMode) (v lo hi : Int), lo ≤ hi →
    (lo ≤ v → v ≤ hi → narrow mode v lo hi = .ok v) ∧
    (v < lo ∨ hi < v → mode = .fault → narrow mode v lo hi = .error .arith) ∧
    (v < lo → mode = .saturate → narrow mode v lo hi = .ok lo) ∧
    (hi < v → mode = .saturate → narrow mode v lo hi = .ok hi)

/-! ### FFT -/

/-- R120, R125: FFT completes on every state that is not stopped; it writes `BUF` and `ERR` only, and every byte outside
`BUF` reads as before. `BUF` becomes the last of a chain of buffers of `NFFT` words: the first is what `BUF` held with its
words taken in bit-reversed order, and each next one is made from the one before by one stage, stages 0 to `NLOG2 - 1` in
order. -/
def Obligations.FftTransformsBuf : Prop :=
  ∀ s : State, s.status.fault = false →
    NextHas (exec .fft s) fun t =>
      t = { s.setErr .ok with mem := t.mem } ∧ t.loadBuf = fftOf s.cfg s.loadBuf ∧
      (∃ bufs : Nat → List Bin, (∀ k, k ≤ s.cfg.nlog2 → (bufs k).length = s.cfg.nfft) ∧
        (∀ i, i < s.cfg.nfft → binAt (bufs 0) i = s.bin (bitrev s.cfg.nlog2 i)) ∧
        (∀ k, k < s.cfg.nlog2 → bufs (k + 1) = stage s.cfg (bufs k) k) ∧ t.loadBuf = bufs s.cfg.nlog2 ∧
        ∀ i, i < s.cfg.nfft → t.bin i = binAt (bufs s.cfg.nlog2) i) ∧
      ∀ a, a < bufOffset 0 ∨ bufOffset s.cfg.nfft ≤ a → t.bufByte a = s.bufByte a

/-- R121, R122: bit reversal turns an index into the one whose bits are read backwards and is an involution; after the
permutation step word `i` holds what word `bitrev(i)` held before it, and the other way round. -/
def Obligations.BitReversalSwapsPairs : Prop :=
  (∀ bits i : Nat, i < 2 ^ bits →
    bitrev bits i < 2 ^ bits ∧ bitrev bits (bitrev bits i) = i ∧
    ∀ b, b < bits → (bitrev bits i).testBit (bits - 1 - b) = i.testBit b) ∧
  (∀ (c : Config) (b : List Bin), b.length = c.nfft → (bitReversed c b).length = c.nfft ∧
    ∀ i, i < c.nfft →
      binAt (bitReversed c b) i = binAt b (bitrev c.nlog2 i) ∧
      binAt (bitReversed c b) (bitrev c.nlog2 i) = binAt b i)

/-- R123: with `j = m*stride`, the real part of the twiddle factor of stage `s`, position `m`, is `SINE[j + NFFT/4]` and
the imaginary part is `-SINE[j]`; `j` is below `NFFT/2`, both indices lie in the table, and the largest index a stage
reads is the table's last. -/
def Obligations.TwiddlesStayInTheTable : Prop :=
  ∀ c : Config, c.wellFormed = true →
    (∀ s m : Nat, s < c.nlog2 → m < 2 ^ s →
      let j := m * (c.nfft / 2 ^ (s + 1))
      j < c.nfft / 2 ∧
      (∃ h : j + c.nfft / 4 < c.sine.length, (twiddle c s m).wr = c.sine[j + c.nfft / 4].toInt) ∧
      ∃ h : j < c.sine.length, (twiddle c s m).wi = -c.sine[j].toInt) ∧
    (2 ^ (c.nlog2 - 1) - 1) * (c.nfft / 2 ^ (c.nlog2 - 1 + 1)) + c.nfft / 4 = c.sine.length - 1

/-- R124, R125: a stage computes each of its butterflies from the words before the stage: its butterflies touch
disjoint pairs, so their order does not change the result. The upper word becomes `(q + t) >> 1` and the lower one
`(q - t) >> 1` (a floored half) reduced by `wrap16`, in both components, where `q` is the upper word and `t` the product
of the twiddle factor and the lower word, each of its four products rounded on its own. -/
def Obligations.StageComputesItsButterflies : Prop :=
  ∀ (c : Config) (b : List Bin) (s m t : Nat), b.length = c.nfft → s < c.nlog2 → m < 2 ^ s →
    t < c.nfft / 2 ^ (s + 1) →
      let i := m + t * 2 ^ (s + 1)
      let k := i + 2 ^ s
      let wr := (twiddle c s m).wr
      let wi := (twiddle c s m).wi
      let q := binAt b i
      let v := binAt b k
      let tr := qmul wr v.re.toInt - qmul wi v.im.toInt
      let ti := qmul wr v.im.toInt + qmul wi v.re.toInt
      k < c.nfft ∧ binAt (stage c b s) i = butterflyUpper (twiddle c s m) q v ∧
        binAt (stage c b s) k = butterflyLower (twiddle c s m) q v ∧
        (binAt (stage c b s) i).re.toInt = wrap16 ((q.re.toInt + tr) / 2) ∧
        (binAt (stage c b s) i).im.toInt = wrap16 ((q.im.toInt + ti) / 2) ∧
        (binAt (stage c b s) k).re.toInt = wrap16 ((q.re.toInt - tr) / 2) ∧
        (binAt (stage c b s) k).im.toInt = wrap16 ((q.im.toInt - ti) / 2) ∧
        ∀ j (h : j < b.length), binAt b j = b[j]

/-- R128 (b): running FFT on an all-zero `BUF` yields an all-zero `BUF`. -/
def Obligations.FftOfZeroIsZero : Prop :=
  ∀ s : State, s.status.fault = false → (∀ i, i < s.cfg.nfft → s.bin i = { re := 0, im := 0 }) →
    NextHas (exec .fft s) fun t => ∀ i, i < s.cfg.nfft → t.bin i = { re := 0, im := 0 }

/-! ### WINDOW -/

/-- R140 to R146: WINDOW completes when every pre-shifted sample fits 16 bits or `OVF_MODE = SATURATE`. Word `i` becomes
the clamped pre-shifted sample, scaled by coefficient `i` unless the window is the rectangle, with imaginary part 0;
coefficient `i` is entry `i` of `WINDOW`, which a well-formed configuration has. `ERR` is the only other thing written,
and every byte outside `BUF` reads as before. -/
def Obligations.WindowScalesEverySample : Prop :=
  ∀ s : State, s.status.fault = false →
    (s.cfg.ovfMode = .saturate ∨ ∀ i, i < s.cfg.nfft →
      -32768 ≤ (s.bin i).re.toInt * 2 ^ s.cfg.preshift ∧ (s.bin i).re.toInt * 2 ^ s.cfg.preshift ≤ 32767) →
    NextHas (exec .window s) fun t =>
      t = { s.setErr .ok with mem := t.mem } ∧
      (∀ i, i < s.cfg.nfft →
        let x := max (-32768) (min 32767 ((s.bin i).re.toInt * 2 ^ s.cfg.preshift))
        (t.bin i).re.toInt = (if s.cfg.windowKind = .rect then x else sfApply (windowAt s.cfg i) x) ∧
          (t.bin i).im = 0 ∧
          (s.cfg.wellFormed = true → ∃ h : i < s.cfg.window.length, windowAt s.cfg i = s.cfg.window[i])) ∧
      ∀ a, a < bufOffset 0 ∨ bufOffset s.cfg.nfft ≤ a → t.bufByte a = s.bufByte a

/-- R142, R231, R234: with `OVF_MODE = FAULT` one pre-shifted sample outside 16 bits makes WINDOW raise `ARITH`: `FAULT`,
`FCODE = 2`, `FOP = 2`, `ERR = 3`; everything but `BUF` is kept. -/
def Obligations.WindowOverflowFaults : Prop :=
  ∀ (s : State) (i : Nat), s.status.fault = false → s.cfg.ovfMode = .fault → i < s.cfg.nfft →
    ((s.bin i).re.toInt * 2 ^ s.cfg.preshift < -32768 ∨ 32767 < (s.bin i).re.toInt * 2 ^ s.cfg.preshift) →
    NextHas (exec .window s) fun t =>
      t = { s with
        status := { s.status with fault := true, fcode := .arith, fop := 2, err := .abort }
        mem := t.mem, draws := t.draws, bufDraw := t.bufDraw }

/-! ### PEAKS -/

/-- R150, R151, R155: when `find_peaks` raises no fault, PEAKS stores its peaks from entry 0 on, sets `PEAK_COUNT` and
`ERR`, and changes nothing else; entries at and above the count keep their contents. What it works on are the words of
`BUF` and the squared magnitudes of the first `NBINS` of them. -/
def Obligations.PeaksStoresWhatItFinds : Prop :=
  ∀ (s : State) (ps : List PeakEntry), s.status.fault = false → s.cfg.wellFormed = true → s.TablesSized →
    findPeaks s.cfg s.thresh s.loadBuf = .ok ps →
    (∀ i, i < s.cfg.nfft → binAt s.loadBuf i = s.bin i) ∧ (squaredMags s.cfg s.loadBuf).length = s.cfg.nbins ∧
    (∀ i, i < s.cfg.nbins →
      sqAt (squaredMags s.cfg s.loadBuf) i = sqmag (s.bin i).re.toInt (s.bin i).im.toInt) ∧
    NextHas (exec .peaks s) fun t =>
      t = { s.setErr .ok with peak := t.peak, peakCount := t.peakCount } ∧ t.peakCount.toNat = ps.length ∧
      ps.length ≤ s.cfg.maxPeaks ∧ t.peak.length = s.cfg.maxPeaks ∧
      ∀ k, t.peakAt k = if k < ps.length then ps.getD k { freq := 0, mag := 0, phase := 0 } else s.peakAt k

/-- R153, R154, R175: with `RIDGE_CAP` at least its default and a multiplier of at most 1 (or `OVF_MODE = SATURATE`),
PEAKS cannot fault: it completes on every spectrum, with `PEAK_COUNT` at most `MAX_PEAKS`. -/
def Obligations.PeaksCompletesByDefault : Prop :=
  ∀ s : State, s.status.fault = false → s.cfg.wellFormed = true → s.cfg.defaultRidgeCap ≤ s.cfg.ridgeCap →
    (s.cfg.ovfMode = .saturate ∨ s.cfg.ncNum.toNat ≤ s.cfg.ncDen.toNat) →
    NextHas (exec .peaks s) fun t =>
      t = { s.setErr .ok with peak := t.peak, peakCount := t.peakCount } ∧ t.peakCount.toNat ≤ s.cfg.maxPeaks

/-- R153, R231, R234: a spectrum with more ridges than `RIDGE_CAP` makes PEAKS raise `CAPACITY`: `FAULT`, `FCODE = 1`,
`FOP = 4`, `ERR = 3`; everything but the PEAK table and `PEAK_COUNT` is kept. The ridges of the spectrum are those a
scan with the default capacity finds. -/
def Obligations.TooManyRidgesFault : Prop :=
  ∀ (s : State) (rs : List Nat), s.status.fault = false → s.cfg.wellFormed = true →
    ridges { s.cfg with ridgeCap := s.cfg.defaultRidgeCap } (squaredMags s.cfg s.loadBuf) = .ok rs →
    s.cfg.ridgeCap < rs.length →
    NextHas (exec .peaks s) fun t =>
      t = { s with
        status := { s.status with fault := true, fcode := .capacity, fop := 4, err := .abort }
        peak := t.peak, peakCount := t.peakCount, draws := t.draws }

/-- R152, R153, R154: the bins from 1 on that are higher than the bin before (bin 1 always) and not lower than the bin
after (the last bin always), in increasing order, are what the scan finds when there are at most `RIDGE_CAP` of them;
more raise `CAPACITY`. With the default capacity or more there never are more. So bin 0 is never recorded, and the first
bin of a level top is. -/
def Obligations.RidgesAreTheLocalMaxima : Prop :=
  ∀ (c : Config) (sq : List Nat), c.wellFormed = true →
    let maxima := (List.range c.nbins).filter fun i =>
      decide (1 ≤ i) && (decide (i = 1) || decide (sqAt sq (i - 1) < sqAt sq i)) &&
        (decide (i + 1 ≥ c.nbins) || decide (sqAt sq (i + 1) ≤ sqAt sq i))
    (∀ i (h : i < sq.length), sqAt sq i = sq[i]) ∧
    (maxima.length ≤ c.ridgeCap → ridges c sq = .ok maxima) ∧
    (c.ridgeCap < maxima.length → ridges c sq = .error .capacity) ∧
    (c.defaultRidgeCap ≤ c.ridgeCap → ridges c sq = .ok maxima)

/-- R154 (a) to (c): the ridge list is not empty, its bins lie from 1 to `NBINS - 1`, two consecutive ones are at least
2 apart, and there are at most `NBINS/2` of them. -/
def Obligations.RidgeListProperties : Prop :=
  ∀ (c : Config) (sq : List Nat) (rs : List Nat), c.wellFormed = true → ridges c sq = .ok rs →
    rs ≠ [] ∧ (∀ r ∈ rs, 1 ≤ r ∧ r ≤ c.nbins - 1) ∧ rs.Pairwise (fun a b => a + 2 ≤ b) ∧ 2 * rs.length ≤ c.nbins

/-- R156 to R160, R176 to R178: each stored peak is a ridge of the spectrum, with the frequency `refine` accepts, the
magnitude of its bin and the phase of its bin; no two are the same ridge. They come in order of non-increasing squared
magnitude, at equal ones of increasing bin. No stored ridge lies at or below `MIN_BIN` (R157); each has a magnitude from
the noise floor (R158) to 46340, a frequency from 1 to `MAX_FREQ`, and at least the relative threshold of R159 of every
ridge above `MIN_BIN`, so of the highest; in particular every peak after the first has at least that of the first. A
ridge above `MIN_BIN` that passes the noise floor and these thresholds and whose frequency is accepted is left out only
where the list is full, and then every stored ridge comes before it. -/
def Obligations.StoredPeaksAreOrderedAndCulled : Prop :=
  ∀ (c : Config) (thresh : Half) (bins : List Bin) (ps : List PeakEntry), c.wellFormed = true →
    findPeaks c thresh bins = .ok ps →
      let sq := squaredMags c bins
      let magnitude := fun b => isqrt (sqmag (binAt bins b).re.toInt (binAt bins b).im.toInt)
      let threshold := fun m : Nat => (c.noiseFloor.toNat : Int) + sfApply thresh ((m : Int) - c.noiseFloor.toNat)
      let before := fun a b => sqAt sq b < sqAt sq a ∨ (sqAt sq b = sqAt sq a ∧ a < b)
      ps.Pairwise (fun a b => b.mag.toNat ≤ a.mag.toNat) ∧
      (∀ e ∈ ps, c.noiseFloor.toNat ≤ e.mag.toNat ∧ e.mag.toNat ≤ 46340 ∧ 1 ≤ e.freq.toNat ∧
        e.freq.toNat ≤ c.maxFreq.toNat) ∧
      (∀ first ∈ ps.head?, ∀ e ∈ ps.tail, threshold first.mag.toNat ≤ e.mag.toNat) ∧
      ∃ rs bs : List Nat, ridges c sq = .ok rs ∧ bs.Pairwise before ∧
        List.Forall₂ (fun b e => b ∈ rs ∧ c.minBin < b ∧ refine c sq b = .ok (some e.freq) ∧
          e.mag.toNat = magnitude b ∧ e.phase = phaseOf c.phaseFn (binAt bins b).re (binAt bins b).im ∧
          ∀ x ∈ rs, c.minBin < x → threshold (magnitude x) ≤ e.mag.toNat) bs ps ∧
        ∀ b ∈ rs, c.minBin < b → c.noiseFloor.toNat ≤ magnitude b →
          (∀ x ∈ rs, c.minBin < x → threshold (magnitude x) ≤ magnitude b) →
          (∃ f, refine c sq b = .ok (some f)) → b ∉ bs → ps.length = c.maxPeaks ∧ ∀ a ∈ bs, before a b

/-- R161: an all-below-floor spectrum yields zero peaks, and PEAKS completes. -/
def Obligations.AllBelowFloorYieldsNoPeak : Prop :=
  ∀ s : State, s.status.fault = false → s.cfg.wellFormed = true → s.cfg.defaultRidgeCap ≤ s.cfg.ridgeCap →
    (∀ i, i < s.cfg.nbins →
      sqmag (s.bin i).re.toInt (s.bin i).im.toInt < s.cfg.noiseFloor.toNat * s.cfg.noiseFloor.toNat) →
    exec .peaks s = .next { s.setErr .ok with peakCount := 0 }

/-- R161: a spectrum with one bin `b` at or above the noise floor and all others 0 yields exactly one peak, at that bin's
nominal frequency (below the last bin and with the multiplier off). -/
def Obligations.OneBinYieldsOnePeak : Prop :=
  ∀ (s : State) (b : Nat), s.status.fault = false → s.cfg.wellFormed = true → s.TablesSized →
    s.cfg.defaultRidgeCap ≤ s.cfg.ridgeCap → s.cfg.ncNum = 1 → s.cfg.ncDen = 1 → 1 ≤ s.cfg.noiseFloor.toNat →
    s.cfg.minBin < b → b + 1 < s.cfg.nbins → b * s.cfg.freqPerBin.toNat ≤ s.cfg.maxFreq.toNat →
    (∀ i, i < s.cfg.nbins → i ≠ b → s.bin i = { re := 0, im := 0 }) →
    s.cfg.noiseFloor.toNat * s.cfg.noiseFloor.toNat ≤ sqmag (s.bin b).re.toInt (s.bin b).im.toInt →
    NextHas (exec .peaks s) fun t =>
      t = { s.setErr .ok with peak := t.peak, peakCount := 1 } ∧
      t.peakAt 0 =
        { freq := BitVec.ofNat 32 (b * s.cfg.freqPerBin.toNat)
          mag := BitVec.ofNat 16 (isqrt (sqmag (s.bin b).re.toInt (s.bin b).im.toInt))
          phase := phaseOf s.cfg.phaseFn (s.bin b).re (s.bin b).im }

/-- R175, R231, R234: with `OVF_MODE = FAULT` a refined frequency above `2^32 - 1` makes PEAKS raise `ARITH`: `FAULT`,
`FCODE = 2`, `FOP = 4`, `ERR = 3`; everything but the PEAK table and `PEAK_COUNT` is kept. Said of every spectrum whose
selection reaches such a ridge: one above `MIN_BIN`, not below the noise floor nor below the relative threshold, with
fewer than `MAX_PEAKS` other ridges above `MIN_BIN` as high as it or higher. Second clause: the spectra of one bin, whose
frequency before the multiplier is the bin's nominal one. -/
def Obligations.PeaksFrequencyFaults : Prop :=
  let faulted := fun (s t : State) => t = { s with
    status := { s.status with fault := true, fcode := .arith, fop := 4, err := .abort }
    peak := t.peak, peakCount := t.peakCount, draws := t.draws }
  (∀ (s : State) (rs : List Nat) (b : Nat), s.status.fault = false → s.cfg.wellFormed = true → s.cfg.ovfMode = .fault →
    let sq := squaredMags s.cfg s.loadBuf
    ridges s.cfg sq = .ok rs → b ∈ rs → s.cfg.minBin < b →
    s.cfg.noiseFloor.toNat * s.cfg.noiseFloor.toNat ≤ sqAt sq b →
    (∀ x ∈ rs, s.cfg.minBin < x →
      (s.cfg.noiseFloor.toNat : Int) + sfApply s.thresh ((isqrt (sqAt sq x) : Int) - s.cfg.noiseFloor.toNat) ≤
        isqrt (sqAt sq b)) →
    (rs.filter fun x => decide (x ≠ b ∧ s.cfg.minBin < x ∧ sqAt sq b ≤ sqAt sq x)).length < s.cfg.maxPeaks →
    2 ^ 32 - 1 < (adjustedFreq s.cfg sq b * s.cfg.ncNum.toNat + s.cfg.ncDen.toNat / 2) / s.cfg.ncDen.toNat →
    NextHas (exec .peaks s) (faulted s)) ∧
  (∀ (s : State) (b : Nat), s.status.fault = false → s.cfg.wellFormed = true → s.cfg.ovfMode = .fault →
    s.cfg.defaultRidgeCap ≤ s.cfg.ridgeCap → 1 ≤ s.cfg.noiseFloor.toNat → s.cfg.minBin < b → b + 1 < s.cfg.nbins →
    2 ^ 32 - 1 <
      (b * s.cfg.freqPerBin.toNat * s.cfg.ncNum.toNat + s.cfg.ncDen.toNat / 2) / s.cfg.ncDen.toNat →
    (∀ i, i < s.cfg.nbins → i ≠ b → s.bin i = { re := 0, im := 0 }) →
    s.cfg.noiseFloor.toNat * s.cfg.noiseFloor.toNat ≤ sqmag (s.bin b).re.toInt (s.bin b).im.toInt →
    NextHas (exec .peaks s) (faulted s))

/-- R171 to R174, R179: before the multiplier the refined frequency of a ridge is the bin's nominal one, moved towards
the larger neighbour by `adj`: up when the right neighbour is larger, down when the left one is, not at all when they are
equal. `adj` is the nearest whole number to the fraction `half` of one bin, `half` half the ratio of the larger
neighbour to the centre plus 1, both less the smaller neighbour; it is at most half a bin. At the last bin the centre
stands for the right neighbour. R175, R176: `f1` is that frequency times `NC_NUM / NC_DEN`, rounded to nearest, halves
up; above `2^32 - 1` it raises `ARITH` with `OVF_MODE = FAULT` and becomes `2^32 - 1` with `SATURATE`; the result is
rejected when it is 0 or above `MAX_FREQ`, and else is the refined frequency. -/
def Obligations.RefinementWithinHalfABin : Prop :=
  ∀ (c : Config) (sq : List Nat) (b : Nat), c.wellFormed = true → 1 ≤ b → b < c.nbins →
    let m := isqrt (sqAt sq b)
    let l := isqrt (sqAt sq (b - 1))
    let r := if b + 1 < c.nbins then isqrt (sqAt sq (b + 1)) else m
    let small := min l r
    let half := min 65535 ((max l r - small) * 2 ^ 16 / (m - small + 1)) / 2
    let adj := (c.freqPerBin.toNat * half + 32768) / 65536
    (l < r → adjustedFreq c sq b = (b : Int) * c.freqPerBin.toNat + adj) ∧
    (r < l → adjustedFreq c sq b = (b : Int) * c.freqPerBin.toNat - adj) ∧
    (l = r → adjustedFreq c sq b = (b : Int) * c.freqPerBin.toNat) ∧ 2 * adj ≤ c.freqPerBin.toNat ∧
    2 * |adjustedFreq c sq b - (b : Int) * c.freqPerBin.toNat| ≤ (c.freqPerBin.toNat : Int) ∧
    1 ≤ adjustedFreq c sq b ∧ adjustedFreq c sq b ≤ 2 ^ 32 - 1 ∧
    let f1 := (adjustedFreq c sq b * c.ncNum.toNat + (c.ncDen.toNat : Int) / 2) / c.ncDen.toNat
    let g := min f1 (2 ^ 32 - 1)
    0 ≤ f1 ∧
    (2 ^ 32 - 1 < f1 → c.ovfMode = .fault → refine c sq b = .error .arith) ∧
    (f1 ≤ 2 ^ 32 - 1 ∨ c.ovfMode = .saturate →
      (g = 0 ∨ c.maxFreq.toNat < g → refine c sq b = .ok none) ∧
      (g ≠ 0 → g ≤ c.maxFreq.toNat → ∃ f, refine c sq b = .ok (some f) ∧ (f.toNat : Int) = g))

/-! ### SCHED, ADJUST -/

/-- R191 to R194: SCHED completes when every period fits 1 to `PERIOD_MAX` or `OVF_MODE = SATURATE`. Entry `k` below
`PEAK_COUNT` becomes the clamped period of the peak's frequency and its phase's fraction of that period; entries above
keep their contents; `STAGE_COUNT` and `ERR` are the only other things written. -/
def Obligations.SchedBuildsTheTemplate : Prop :=
  ∀ s : State, s.status.fault = false → s.cfg.wellFormed = true → s.TablesSized → s.PeaksValid →
    (s.cfg.ovfMode = .saturate ∨ ∀ k, k < s.peakCount.toNat →
      1 ≤ (s.cfg.periodNum.toNat + (s.peakAt k).freq.toNat / 2) / (s.peakAt k).freq.toNat ∧
      (s.cfg.periodNum.toNat + (s.peakAt k).freq.toNat / 2) / (s.peakAt k).freq.toNat ≤ s.cfg.periodMax) →
    NextHas (exec .sched s) fun t =>
      t = { s.setErr .ok with stage := t.stage, stageCount := s.peakCount } ∧
      (∀ k, k < s.peakCount.toNat →
        let f := (s.peakAt k).freq.toNat
        let p := max 1 (min s.cfg.periodMax ((s.cfg.periodNum.toNat + f / 2) / f))
        (t.stageAt k).period.toNat = p ∧ ((t.stageAt k).offset.toNat : Int) = sfApply (s.peakAt k).phase p ∧
          (t.stageAt k).offset.toNat ≤ p) ∧
      ∀ k, s.peakCount.toNat ≤ k → t.stageAt k = s.stageAt k

/-- R191, R231, R234: with `OVF_MODE = FAULT` a period of 0 or above `PERIOD_MAX` makes SCHED raise `ARITH`: `FAULT`,
`FCODE = 2`, `FOP = 5`, `ERR = 3`; everything but the STAGE table and `STAGE_COUNT` is kept. -/
def Obligations.SchedPeriodFaults : Prop :=
  ∀ (s : State) (k : Nat), s.status.fault = false → s.cfg.ovfMode = .fault → s.TablesSized → s.PeaksValid →
    k < s.peakCount.toNat →
    ((s.cfg.periodNum.toNat + (s.peakAt k).freq.toNat / 2) / (s.peakAt k).freq.toNat = 0 ∨
      s.cfg.periodMax < (s.cfg.periodNum.toNat + (s.peakAt k).freq.toNat / 2) / (s.peakAt k).freq.toNat) →
    NextHas (exec .sched s) fun t =>
      t = { s with
        status := { s.status with fault := true, fcode := .arith, fop := 5, err := .abort }
        stage := t.stage, stageCount := t.stageCount, draws := t.draws }

/-- R195, R196: ADJUST completes on every state that is not stopped: entry `k` below `STAGE_COUNT` becomes the
template's period and `start + offset` modulo 2^32; entries above keep their contents; `LIVE_COUNT` and `ERR` are the
only other things written (STAGE, `HOLDOFF` and `HV` stay). -/
def Obligations.AdjustAnchorsTheTemplate : Prop :=
  ∀ s : State, s.status.fault = false → s.TablesSized → s.stageCount.toNat ≤ s.cfg.maxPeaks →
    NextHas (exec .adjust s) fun t =>
      t = { s.setErr .ok with live := t.live, liveCount := s.stageCount } ∧
      (∀ k, k < s.stageCount.toNat →
        t.liveAt k = { period := (s.stageAt k).period, next := s.arg0 + (s.stageAt k).offset }) ∧
      ∀ k, s.stageCount.toNat ≤ k → t.liveAt k = s.liveAt k

/-! ### CONSUME -/

/-- R197 to R199: CONSUME with a pulse due at `ARG0` completes with `ERR = 0`: every pulse with that `next` advances by
its own period, the others stay; `RES0` counts them, `HV` is set, and `HOLDOFF` is the one the highest matching index
leaves. -/
def Obligations.ConsumeAdvancesTheMatches : Prop :=
  ∀ (s : State) (j : Nat), s.status.fault = false → s.TablesSized → s.liveCount.toNat ≤ s.cfg.maxPeaks →
    j < s.liveCount.toNat → (s.liveAt j).next = s.arg0 →
    (∀ k, j < k → k < s.liveCount.toNat → (s.liveAt k).next ≠ s.arg0) →
    NextHas (exec .consume s) fun t =>
      t = { (s.setErr .ok).setHv true with
        live := t.live, res0 := t.res0
        holdoff := s.arg0 + BitVec.ofInt 32 (sfApply s.cfg.holdoffRatio (s.liveAt j).period.toNat) } ∧
      t.res0.toNat = ((List.range s.liveCount.toNat).filter fun k => (s.liveAt k).next = s.arg0).length ∧
      (∀ k, k < s.liveCount.toNat → t.liveAt k =
        if (s.liveAt k).next = s.arg0 then { s.liveAt k with next := s.arg0 + (s.liveAt k).period }
        else s.liveAt k) ∧
      ∀ k, s.liveCount.toNat ≤ k → t.liveAt k = s.liveAt k

/-- R200: when no pulse of the live table has `next = at`, CONSUME writes `RES0 <- 0`, reports `RACE`, and changes
nothing else; it is not a fault. -/
def Obligations.ConsumeWithoutMatchIsARace : Prop :=
  ∀ s : State, s.status.fault = false → (∀ e ∈ s.live.take s.liveCount.toNat, e.next ≠ s.arg0) →
    exec .consume s = .next { s.setErr .race with res0 := 0 }

/-- R198: calling CONSUME again with the same instant reports the race and advances nothing. -/
def Obligations.ConsumeTwiceIsARace : Prop :=
  ∀ s t : State, s.Inv → s.status.fault = false → exec .consume s = .next t → t.status.err = .ok →
    exec .consume t = .next { t.setErr .race with res0 := 0 }

/-! ### NEXT -/

/-- R205: with an empty live table NEXT sets `NONE` and `ERR = 0` and changes nothing else. -/
def Obligations.NextOfEmptyTable : Prop :=
  ∀ s : State, s.status.fault = false → s.liveCount = 0 → exec .next s = .next ((s.setErr .ok).setNone true)

/-- R201 to R204: NEXT with a non-empty live table completes with `NONE = 0`: `RES0` is the stored `next`, after the
moves, of the pulse with the smallest effective offset, the lowest index on a tie, and `RES1` that offset. A pulse whose
offset is below the current holdoff is moved by the least whole number of its periods that brings its signed offset (the
wrapping difference from `after`, less `2^32` where that is `2^31` or more) to it, no other is; periods stay; `HV` is cleared exactly when a valid holdoff is past. -/
def Obligations.NextReturnsTheSoonest : Prop :=
  ∀ s : State, s.Inv → s.status.fault = false → 0 < s.liveCount.toNat →
    let h := if s.status.hv then effOffset s.arg0 s.holdoff else 0
    let signed := fun u : Instant =>
      if (u - s.arg0).toNat < 2 ^ 31 then ((u - s.arg0).toNat : Int) else ((u - s.arg0).toNat : Int) - 2 ^ 32
    NextHas (exec .next s) fun t =>
      t = { ((s.setErr .ok).setNone false).setHv (s.status.hv && isFuture s.arg0 s.holdoff) with
        live := t.live, res0 := t.res0, res1 := t.res1 } ∧
      (∃ k, k < s.liveCount.toNat ∧ t.res0 = (t.liveAt k).next ∧ t.res1.toNat = effOffset s.arg0 t.res0 ∧
        (∀ j, j < s.liveCount.toNat → t.res1.toNat ≤ effOffset s.arg0 (t.liveAt j).next) ∧
        (∀ j, j < k → t.res1.toNat < effOffset s.arg0 (t.liveAt j).next)) ∧
      (∀ k, k < s.liveCount.toNat → (t.liveAt k).period = (s.liveAt k).period ∧
        (h ≤ effOffset s.arg0 (s.liveAt k).next → t.liveAt k = s.liveAt k) ∧
        (effOffset s.arg0 (s.liveAt k).next < h → ∃ n : Nat, 1 ≤ n ∧
          (t.liveAt k).next = (s.liveAt k).next + BitVec.ofNat 32 (n * (s.liveAt k).period.toNat) ∧
          (h : Int) ≤ signed (s.liveAt k).next + n * (s.liveAt k).period.toNat ∧
          signed (s.liveAt k).next + (n - 1) * (s.liveAt k).period.toNat < (h : Int))) ∧
      ∀ k, s.liveCount.toNat ≤ k → t.liveAt k = s.liveAt k

/-- R203: the closed form gives what repeating "advance by one period, recompute the offset, compare" gives, as long as
`h + period <= 2^31`. -/
def Obligations.ClosedFormIsRepeatedAdvance : Prop :=
  ∀ (after : Instant) (h : Nat) (e : LiveEntry), 1 ≤ e.period.toNat → h + e.period.toNat ≤ 2 ^ 31 →
    ∃ n : Nat, heldOff after h e = { e with next := e.next + BitVec.ofNat 32 (n * e.period.toNat) } ∧
      h ≤ effOffset after (heldOff after h e).next ∧
      ∀ j, j < n → effOffset after (e.next + BitVec.ofNat 32 (j * e.period.toNat)) < h

/-- R209: while a valid holdoff is future or present seen from `after`, NEXT returns in `RES1` at least the current
holdoff `HOLDOFF - after`, as long as every `h + period <= 2^31`; where the holdoff is still ahead, the instant in `RES0`
is `after + RES1`, so it is not before `HOLDOFF`. With `HOLDOFF = after` the instant in `RES0` may be that of a past
pulse. -/
def Obligations.NextRespectsTheHoldoff : Prop :=
  ∀ s t : State, s.Inv → s.status.fault = false → 0 < s.liveCount.toNat → s.status.hv = true →
    isFuture s.arg0 s.holdoff = true →
    (∀ e ∈ s.live.take s.liveCount.toNat, effOffset s.arg0 s.holdoff + e.period.toNat ≤ 2 ^ 31) →
    exec .next s = .next t →
      effOffset s.arg0 s.holdoff ≤ t.res1.toNat ∧ t.status.hv = true ∧
      (0 < effOffset s.arg0 s.holdoff → t.res0 = s.arg0 + t.res1)

/-- R206: a second NEXT with the same `after` returns the same result and moves nothing more. -/
def Obligations.NextIsRepeatable : Prop :=
  ∀ s t : State, s.Inv → s.status.fault = false →
    (∀ e ∈ s.live.take s.liveCount.toNat,
      (if s.status.hv then effOffset s.arg0 s.holdoff else 0) + e.period.toNat ≤ 2 ^ 31) →
    exec .next s = .next t → exec .next t = .next t

/-- R208: a lone pulse is never moved by the holdoff of its own firing: after CONSUME at `t1`, NEXT seen from any `after`
from `t1` to the holdoff returns `t1` plus the pulse's period and leaves the live table alone. -/
def Obligations.LonePulseFiresEveryPeriod : Prop :=
  ∀ (s t : State) (after : Instant), s.Inv → s.status.fault = false → s.liveCount = 1 →
    (s.liveAt 0).next = s.arg0 → exec .consume s = .next t →
    ((tdiff s.arg0 after).toNat : Int) ≤ sfApply s.cfg.holdoffRatio (s.liveAt 0).period.toNat →
    NextHas (exec .next { t with arg0 := after }) fun u =>
      u.res0 = s.arg0 + (s.liveAt 0).period ∧
      u.res1.toNat = (s.liveAt 0).period.toNat - (tdiff s.arg0 after).toNat ∧ u.live = t.live ∧
      (t.liveAt 0).next = s.arg0 + (s.liveAt 0).period

/-! ### CMP -/

/-- R221: CMP completes on every state that is not stopped and writes the wrapping difference of `ARG1` from `ARG0` and
whether it is below half the range; nothing else but `ERR`. -/
def Obligations.CmpWritesTheDifference : Prop :=
  ∀ s : State, s.status.fault = false →
    exec .cmp s = .next { s.setErr .ok with
      res0 := s.arg1 - s.arg0
      res1 := if (s.arg1 - s.arg0).toNat < 2 ^ 31 then 1 else 0 }

/-! ### The split of the registers between the activities -/

/-- R266: the four Process commands leave `ARG0`, `ARG1`, `RES0`, `RES1`, `THRESH`, the live table, its count and
`HOLDOFF` alone, faulting or not; ADJUST, CONSUME, NEXT and CMP leave `BUF`, the PEAK table, STAGE, their counts,
`THRESH` and the operands alone, every byte of memory included. -/
def Obligations.ProcessAndFireShareNothing : Prop :=
  ∀ s t : State,
    (∀ i, i ∈ [Instr.window, Instr.fft, Instr.peaks, Instr.sched] → exec i s = .next t →
      t.arg0 = s.arg0 ∧ t.arg1 = s.arg1 ∧ t.res0 = s.res0 ∧ t.res1 = s.res1 ∧ t.thresh = s.thresh ∧ t.live = s.live ∧
        t.liveCount = s.liveCount ∧ t.holdoff = s.holdoff ∧ t.status.hv = s.status.hv ∧
        t.status.noneBit = s.status.noneBit) ∧
    (∀ i, i ∈ [Instr.adjust, Instr.consume, Instr.next, Instr.cmp] → exec i s = .next t →
      t.mem = s.mem ∧ (∀ a, t.bufByte a = s.bufByte a) ∧ t.peak = s.peak ∧ t.peakCount = s.peakCount ∧
        t.stage = s.stage ∧ t.stageCount = s.stageCount ∧ t.thresh = s.thresh ∧ t.arg0 = s.arg0 ∧ t.arg1 = s.arg1)
end

