-- ==== Sys2Proof/Laws/State.lean ====
section
/-! SUPPORT. What each update of the state does to each field, once, so that no proof unfolds a record update. -/

namespace Sys2Proof.Machine

/-! ### `setErr`: `STATUS.ERR <- e` -/

@[simp] theorem State.setErr_cfg (s : State) (e : ErrCode) : (s.setErr e).cfg = s.cfg := rfl
@[simp] theorem State.setErr_arg0 (s : State) (e : ErrCode) : (s.setErr e).arg0 = s.arg0 := rfl
@[simp] theorem State.setErr_arg1 (s : State) (e : ErrCode) : (s.setErr e).arg1 = s.arg1 := rfl
@[simp] theorem State.setErr_res0 (s : State) (e : ErrCode) : (s.setErr e).res0 = s.res0 := rfl
@[simp] theorem State.setErr_res1 (s : State) (e : ErrCode) : (s.setErr e).res1 = s.res1 := rfl
@[simp] theorem State.setErr_thresh (s : State) (e : ErrCode) : (s.setErr e).thresh = s.thresh := rfl
@[simp] theorem State.setErr_status (s : State) (e : ErrCode) : (s.setErr e).status = { s.status with err := e } := rfl
@[simp] theorem State.setErr_peakCount (s : State) (e : ErrCode) : (s.setErr e).peakCount = s.peakCount := rfl
@[simp] theorem State.setErr_stageCount (s : State) (e : ErrCode) : (s.setErr e).stageCount = s.stageCount := rfl
@[simp] theorem State.setErr_liveCount (s : State) (e : ErrCode) : (s.setErr e).liveCount = s.liveCount := rfl
@[simp] theorem State.setErr_holdoff (s : State) (e : ErrCode) : (s.setErr e).holdoff = s.holdoff := rfl
@[simp] theorem State.setErr_peak (s : State) (e : ErrCode) : (s.setErr e).peak = s.peak := rfl
@[simp] theorem State.setErr_stage (s : State) (e : ErrCode) : (s.setErr e).stage = s.stage := rfl
@[simp] theorem State.setErr_live (s : State) (e : ErrCode) : (s.setErr e).live = s.live := rfl
@[simp] theorem State.setErr_mem (s : State) (e : ErrCode) : (s.setErr e).mem = s.mem := rfl
@[simp] theorem State.setErr_hardReset (s : State) (e : ErrCode) : (s.setErr e).hardReset = s.hardReset := rfl
@[simp] theorem State.setErr_pending (s : State) (e : ErrCode) : (s.setErr e).pending = s.pending := rfl
@[simp] theorem State.setErr_response (s : State) (e : ErrCode) : (s.setErr e).response = s.response := rfl
@[simp] theorem State.setErr_draws (s : State) (e : ErrCode) : (s.setErr e).draws = s.draws := rfl
@[simp] theorem State.setErr_bufDraw (s : State) (e : ErrCode) : (s.setErr e).bufDraw = s.bufDraw := rfl

/-! ### `setNone`: `STATUS.NONE <- b` -/

@[simp] theorem State.setNone_cfg (s : State) (b : Bool) : (s.setNone b).cfg = s.cfg := rfl
@[simp] theorem State.setNone_arg0 (s : State) (b : Bool) : (s.setNone b).arg0 = s.arg0 := rfl
@[simp] theorem State.setNone_arg1 (s : State) (b : Bool) : (s.setNone b).arg1 = s.arg1 := rfl
@[simp] theorem State.setNone_res0 (s : State) (b : Bool) : (s.setNone b).res0 = s.res0 := rfl
@[simp] theorem State.setNone_res1 (s : State) (b : Bool) : (s.setNone b).res1 = s.res1 := rfl
@[simp] theorem State.setNone_thresh (s : State) (b : Bool) : (s.setNone b).thresh = s.thresh := rfl
@[simp] theorem State.setNone_status (s : State) (b : Bool) : (s.setNone b).status = { s.status with noneBit := b } := rfl
@[simp] theorem State.setNone_peakCount (s : State) (b : Bool) : (s.setNone b).peakCount = s.peakCount := rfl
@[simp] theorem State.setNone_stageCount (s : State) (b : Bool) : (s.setNone b).stageCount = s.stageCount := rfl
@[simp] theorem State.setNone_liveCount (s : State) (b : Bool) : (s.setNone b).liveCount = s.liveCount := rfl
@[simp] theorem State.setNone_holdoff (s : State) (b : Bool) : (s.setNone b).holdoff = s.holdoff := rfl
@[simp] theorem State.setNone_peak (s : State) (b : Bool) : (s.setNone b).peak = s.peak := rfl
@[simp] theorem State.setNone_stage (s : State) (b : Bool) : (s.setNone b).stage = s.stage := rfl
@[simp] theorem State.setNone_live (s : State) (b : Bool) : (s.setNone b).live = s.live := rfl
@[simp] theorem State.setNone_mem (s : State) (b : Bool) : (s.setNone b).mem = s.mem := rfl
@[simp] theorem State.setNone_hardReset (s : State) (b : Bool) : (s.setNone b).hardReset = s.hardReset := rfl
@[simp] theorem State.setNone_pending (s : State) (b : Bool) : (s.setNone b).pending = s.pending := rfl
@[simp] theorem State.setNone_response (s : State) (b : Bool) : (s.setNone b).response = s.response := rfl
@[simp] theorem State.setNone_draws (s : State) (b : Bool) : (s.setNone b).draws = s.draws := rfl
@[simp] theorem State.setNone_bufDraw (s : State) (b : Bool) : (s.setNone b).bufDraw = s.bufDraw := rfl

/-! ### `setHv`: `STATUS.HV <- b` -/

@[simp] theorem State.setHv_cfg (s : State) (b : Bool) : (s.setHv b).cfg = s.cfg := rfl
@[simp] theorem State.setHv_arg0 (s : State) (b : Bool) : (s.setHv b).arg0 = s.arg0 := rfl
@[simp] theorem State.setHv_arg1 (s : State) (b : Bool) : (s.setHv b).arg1 = s.arg1 := rfl
@[simp] theorem State.setHv_res0 (s : State) (b : Bool) : (s.setHv b).res0 = s.res0 := rfl
@[simp] theorem State.setHv_res1 (s : State) (b : Bool) : (s.setHv b).res1 = s.res1 := rfl
@[simp] theorem State.setHv_thresh (s : State) (b : Bool) : (s.setHv b).thresh = s.thresh := rfl
@[simp] theorem State.setHv_status (s : State) (b : Bool) : (s.setHv b).status = { s.status with hv := b } := rfl
@[simp] theorem State.setHv_peakCount (s : State) (b : Bool) : (s.setHv b).peakCount = s.peakCount := rfl
@[simp] theorem State.setHv_stageCount (s : State) (b : Bool) : (s.setHv b).stageCount = s.stageCount := rfl
@[simp] theorem State.setHv_liveCount (s : State) (b : Bool) : (s.setHv b).liveCount = s.liveCount := rfl
@[simp] theorem State.setHv_holdoff (s : State) (b : Bool) : (s.setHv b).holdoff = s.holdoff := rfl
@[simp] theorem State.setHv_peak (s : State) (b : Bool) : (s.setHv b).peak = s.peak := rfl
@[simp] theorem State.setHv_stage (s : State) (b : Bool) : (s.setHv b).stage = s.stage := rfl
@[simp] theorem State.setHv_live (s : State) (b : Bool) : (s.setHv b).live = s.live := rfl
@[simp] theorem State.setHv_mem (s : State) (b : Bool) : (s.setHv b).mem = s.mem := rfl
@[simp] theorem State.setHv_hardReset (s : State) (b : Bool) : (s.setHv b).hardReset = s.hardReset := rfl
@[simp] theorem State.setHv_pending (s : State) (b : Bool) : (s.setHv b).pending = s.pending := rfl
@[simp] theorem State.setHv_response (s : State) (b : Bool) : (s.setHv b).response = s.response := rfl
@[simp] theorem State.setHv_draws (s : State) (b : Bool) : (s.setHv b).draws = s.draws := rfl
@[simp] theorem State.setHv_bufDraw (s : State) (b : Bool) : (s.setHv b).bufDraw = s.bufDraw := rfl

/-! ### `setFault`: the status part of fault entry -/

@[simp] theorem State.setFault_cfg (s : State) (code : FaultCode) (fop : BitVec 4) : (s.setFault code fop).cfg = s.cfg := rfl
@[simp] theorem State.setFault_arg0 (s : State) (code : FaultCode) (fop : BitVec 4) : (s.setFault code fop).arg0 = s.arg0 := rfl
@[simp] theorem State.setFault_arg1 (s : State) (code : FaultCode) (fop : BitVec 4) : (s.setFault code fop).arg1 = s.arg1 := rfl
@[simp] theorem State.setFault_res0 (s : State) (code : FaultCode) (fop : BitVec 4) : (s.setFault code fop).res0 = s.res0 := rfl
@[simp] theorem State.setFault_res1 (s : State) (code : FaultCode) (fop : BitVec 4) : (s.setFault code fop).res1 = s.res1 := rfl
@[simp] theorem State.setFault_thresh (s : State) (code : FaultCode) (fop : BitVec 4) : (s.setFault code fop).thresh = s.thresh := rfl
@[simp] theorem State.setFault_status (s : State) (code : FaultCode) (fop : BitVec 4) : (s.setFault code fop).status = { s.status with fault := true, fcode := code, fop := fop, err := .abort } := rfl
@[simp] theorem State.setFault_peakCount (s : State) (code : FaultCode) (fop : BitVec 4) : (s.setFault code fop).peakCount = s.peakCount := rfl
@[simp] theorem State.setFault_stageCount (s : State) (code : FaultCode) (fop : BitVec 4) : (s.setFault code fop).stageCount = s.stageCount := rfl
@[simp] theorem State.setFault_liveCount (s : State) (code : FaultCode) (fop : BitVec 4) : (s.setFault code fop).liveCount = s.liveCount := rfl
@[simp] theorem State.setFault_holdoff (s : State) (code : FaultCode) (fop : BitVec 4) : (s.setFault code fop).holdoff = s.holdoff := rfl
@[simp] theorem State.setFault_peak (s : State) (code : FaultCode) (fop : BitVec 4) : (s.setFault code fop).peak = s.peak := rfl
@[simp] theorem State.setFault_stage (s : State) (code : FaultCode) (fop : BitVec 4) : (s.setFault code fop).stage = s.stage := rfl
@[simp] theorem State.setFault_live (s : State) (code : FaultCode) (fop : BitVec 4) : (s.setFault code fop).live = s.live := rfl
@[simp] theorem State.setFault_mem (s : State) (code : FaultCode) (fop : BitVec 4) : (s.setFault code fop).mem = s.mem := rfl
@[simp] theorem State.setFault_hardReset (s : State) (code : FaultCode) (fop : BitVec 4) : (s.setFault code fop).hardReset = s.hardReset := rfl
@[simp] theorem State.setFault_pending (s : State) (code : FaultCode) (fop : BitVec 4) : (s.setFault code fop).pending = s.pending := rfl
@[simp] theorem State.setFault_response (s : State) (code : FaultCode) (fop : BitVec 4) : (s.setFault code fop).response = s.response := rfl
@[simp] theorem State.setFault_draws (s : State) (code : FaultCode) (fop : BitVec 4) : (s.setFault code fop).draws = s.draws := rfl
@[simp] theorem State.setFault_bufDraw (s : State) (code : FaultCode) (fop : BitVec 4) : (s.setFault code fop).bufDraw = s.bufDraw := rfl

/-! ### `setBufWord`: `BUF[i] <- w` -/

@[simp] theorem State.setBufWord_cfg (s : State) (i : Nat) (w : Word) : (s.setBufWord i w).cfg = s.cfg := rfl
@[simp] theorem State.setBufWord_arg0 (s : State) (i : Nat) (w : Word) : (s.setBufWord i w).arg0 = s.arg0 := rfl
@[simp] theorem State.setBufWord_arg1 (s : State) (i : Nat) (w : Word) : (s.setBufWord i w).arg1 = s.arg1 := rfl
@[simp] theorem State.setBufWord_res0 (s : State) (i : Nat) (w : Word) : (s.setBufWord i w).res0 = s.res0 := rfl
@[simp] theorem State.setBufWord_res1 (s : State) (i : Nat) (w : Word) : (s.setBufWord i w).res1 = s.res1 := rfl
@[simp] theorem State.setBufWord_thresh (s : State) (i : Nat) (w : Word) : (s.setBufWord i w).thresh = s.thresh := rfl
@[simp] theorem State.setBufWord_status (s : State) (i : Nat) (w : Word) : (s.setBufWord i w).status = s.status := rfl
@[simp] theorem State.setBufWord_peakCount (s : State) (i : Nat) (w : Word) : (s.setBufWord i w).peakCount = s.peakCount := rfl
@[simp] theorem State.setBufWord_stageCount (s : State) (i : Nat) (w : Word) : (s.setBufWord i w).stageCount = s.stageCount := rfl
@[simp] theorem State.setBufWord_liveCount (s : State) (i : Nat) (w : Word) : (s.setBufWord i w).liveCount = s.liveCount := rfl
@[simp] theorem State.setBufWord_holdoff (s : State) (i : Nat) (w : Word) : (s.setBufWord i w).holdoff = s.holdoff := rfl
@[simp] theorem State.setBufWord_peak (s : State) (i : Nat) (w : Word) : (s.setBufWord i w).peak = s.peak := rfl
@[simp] theorem State.setBufWord_stage (s : State) (i : Nat) (w : Word) : (s.setBufWord i w).stage = s.stage := rfl
@[simp] theorem State.setBufWord_live (s : State) (i : Nat) (w : Word) : (s.setBufWord i w).live = s.live := rfl
@[simp] theorem State.setBufWord_mem (s : State) (i : Nat) (w : Word) : (s.setBufWord i w).mem = s.mem.putWord i w := rfl
@[simp] theorem State.setBufWord_hardReset (s : State) (i : Nat) (w : Word) : (s.setBufWord i w).hardReset = s.hardReset := rfl
@[simp] theorem State.setBufWord_pending (s : State) (i : Nat) (w : Word) : (s.setBufWord i w).pending = s.pending := rfl
@[simp] theorem State.setBufWord_response (s : State) (i : Nat) (w : Word) : (s.setBufWord i w).response = s.response := rfl
@[simp] theorem State.setBufWord_draws (s : State) (i : Nat) (w : Word) : (s.setBufWord i w).draws = s.draws := rfl
@[simp] theorem State.setBufWord_bufDraw (s : State) (i : Nat) (w : Word) : (s.setBufWord i w).bufDraw = s.bufDraw := rfl

/-! ### `storeBuf`: a whole buffer stored -/

@[simp] theorem State.storeBuf_cfg (s : State) (b : List Bin) : (s.storeBuf b).cfg = s.cfg := rfl
@[simp] theorem State.storeBuf_arg0 (s : State) (b : List Bin) : (s.storeBuf b).arg0 = s.arg0 := rfl
@[simp] theorem State.storeBuf_arg1 (s : State) (b : List Bin) : (s.storeBuf b).arg1 = s.arg1 := rfl
@[simp] theorem State.storeBuf_res0 (s : State) (b : List Bin) : (s.storeBuf b).res0 = s.res0 := rfl
@[simp] theorem State.storeBuf_res1 (s : State) (b : List Bin) : (s.storeBuf b).res1 = s.res1 := rfl
@[simp] theorem State.storeBuf_thresh (s : State) (b : List Bin) : (s.storeBuf b).thresh = s.thresh := rfl
@[simp] theorem State.storeBuf_status (s : State) (b : List Bin) : (s.storeBuf b).status = s.status := rfl
@[simp] theorem State.storeBuf_peakCount (s : State) (b : List Bin) : (s.storeBuf b).peakCount = s.peakCount := rfl
@[simp] theorem State.storeBuf_stageCount (s : State) (b : List Bin) : (s.storeBuf b).stageCount = s.stageCount := rfl
@[simp] theorem State.storeBuf_liveCount (s : State) (b : List Bin) : (s.storeBuf b).liveCount = s.liveCount := rfl
@[simp] theorem State.storeBuf_holdoff (s : State) (b : List Bin) : (s.storeBuf b).holdoff = s.holdoff := rfl
@[simp] theorem State.storeBuf_peak (s : State) (b : List Bin) : (s.storeBuf b).peak = s.peak := rfl
@[simp] theorem State.storeBuf_stage (s : State) (b : List Bin) : (s.storeBuf b).stage = s.stage := rfl
@[simp] theorem State.storeBuf_live (s : State) (b : List Bin) : (s.storeBuf b).live = s.live := rfl
@[simp] theorem State.storeBuf_mem (s : State) (b : List Bin) : (s.storeBuf b).mem = s.mem.putBins 0 b := rfl
@[simp] theorem State.storeBuf_hardReset (s : State) (b : List Bin) : (s.storeBuf b).hardReset = s.hardReset := rfl
@[simp] theorem State.storeBuf_pending (s : State) (b : List Bin) : (s.storeBuf b).pending = s.pending := rfl
@[simp] theorem State.storeBuf_response (s : State) (b : List Bin) : (s.storeBuf b).response = s.response := rfl
@[simp] theorem State.storeBuf_draws (s : State) (b : List Bin) : (s.storeBuf b).draws = s.draws := rfl
@[simp] theorem State.storeBuf_bufDraw (s : State) (b : List Bin) : (s.storeBuf b).bufDraw = s.bufDraw := rfl

/-! ### `answer`: the bus answer -/

@[simp] theorem State.answer_cfg (s : State) (r : BusResponse) : (s.answer r).cfg = s.cfg := rfl
@[simp] theorem State.answer_arg0 (s : State) (r : BusResponse) : (s.answer r).arg0 = s.arg0 := rfl
@[simp] theorem State.answer_arg1 (s : State) (r : BusResponse) : (s.answer r).arg1 = s.arg1 := rfl
@[simp] theorem State.answer_res0 (s : State) (r : BusResponse) : (s.answer r).res0 = s.res0 := rfl
@[simp] theorem State.answer_res1 (s : State) (r : BusResponse) : (s.answer r).res1 = s.res1 := rfl
@[simp] theorem State.answer_thresh (s : State) (r : BusResponse) : (s.answer r).thresh = s.thresh := rfl
@[simp] theorem State.answer_status (s : State) (r : BusResponse) : (s.answer r).status = s.status := rfl
@[simp] theorem State.answer_peakCount (s : State) (r : BusResponse) : (s.answer r).peakCount = s.peakCount := rfl
@[simp] theorem State.answer_stageCount (s : State) (r : BusResponse) : (s.answer r).stageCount = s.stageCount := rfl
@[simp] theorem State.answer_liveCount (s : State) (r : BusResponse) : (s.answer r).liveCount = s.liveCount := rfl
@[simp] theorem State.answer_holdoff (s : State) (r : BusResponse) : (s.answer r).holdoff = s.holdoff := rfl
@[simp] theorem State.answer_peak (s : State) (r : BusResponse) : (s.answer r).peak = s.peak := rfl
@[simp] theorem State.answer_stage (s : State) (r : BusResponse) : (s.answer r).stage = s.stage := rfl
@[simp] theorem State.answer_live (s : State) (r : BusResponse) : (s.answer r).live = s.live := rfl
@[simp] theorem State.answer_mem (s : State) (r : BusResponse) : (s.answer r).mem = s.mem := rfl
@[simp] theorem State.answer_hardReset (s : State) (r : BusResponse) : (s.answer r).hardReset = s.hardReset := rfl
@[simp] theorem State.answer_pending (s : State) (r : BusResponse) : (s.answer r).pending = s.pending := rfl
@[simp] theorem State.answer_response (s : State) (r : BusResponse) : (s.answer r).response = r := rfl
@[simp] theorem State.answer_draws (s : State) (r : BusResponse) : (s.answer r).draws = s.draws := rfl
@[simp] theorem State.answer_bufDraw (s : State) (r : BusResponse) : (s.answer r).bufDraw = s.bufDraw := rfl

/-! ### `withPending`: the next input taken -/

@[simp] theorem State.withPending_cfg (s : State) (p : List HostInput) : (s.withPending p).cfg = s.cfg := rfl
@[simp] theorem State.withPending_arg0 (s : State) (p : List HostInput) : (s.withPending p).arg0 = s.arg0 := rfl
@[simp] theorem State.withPending_arg1 (s : State) (p : List HostInput) : (s.withPending p).arg1 = s.arg1 := rfl
@[simp] theorem State.withPending_res0 (s : State) (p : List HostInput) : (s.withPending p).res0 = s.res0 := rfl
@[simp] theorem State.withPending_res1 (s : State) (p : List HostInput) : (s.withPending p).res1 = s.res1 := rfl
@[simp] theorem State.withPending_thresh (s : State) (p : List HostInput) : (s.withPending p).thresh = s.thresh := rfl
@[simp] theorem State.withPending_status (s : State) (p : List HostInput) : (s.withPending p).status = s.status := rfl
@[simp] theorem State.withPending_peakCount (s : State) (p : List HostInput) : (s.withPending p).peakCount = s.peakCount := rfl
@[simp] theorem State.withPending_stageCount (s : State) (p : List HostInput) : (s.withPending p).stageCount = s.stageCount := rfl
@[simp] theorem State.withPending_liveCount (s : State) (p : List HostInput) : (s.withPending p).liveCount = s.liveCount := rfl
@[simp] theorem State.withPending_holdoff (s : State) (p : List HostInput) : (s.withPending p).holdoff = s.holdoff := rfl
@[simp] theorem State.withPending_peak (s : State) (p : List HostInput) : (s.withPending p).peak = s.peak := rfl
@[simp] theorem State.withPending_stage (s : State) (p : List HostInput) : (s.withPending p).stage = s.stage := rfl
@[simp] theorem State.withPending_live (s : State) (p : List HostInput) : (s.withPending p).live = s.live := rfl
@[simp] theorem State.withPending_mem (s : State) (p : List HostInput) : (s.withPending p).mem = s.mem := rfl
@[simp] theorem State.withPending_hardReset (s : State) (p : List HostInput) : (s.withPending p).hardReset = s.hardReset := rfl
@[simp] theorem State.withPending_pending (s : State) (p : List HostInput) : (s.withPending p).pending = p := rfl
@[simp] theorem State.withPending_response (s : State) (p : List HostInput) : (s.withPending p).response = s.response := rfl
@[simp] theorem State.withPending_draws (s : State) (p : List HostInput) : (s.withPending p).draws = s.draws := rfl
@[simp] theorem State.withPending_bufDraw (s : State) (p : List HostInput) : (s.withPending p).bufDraw = s.bufDraw := rfl

/-! ### `resetBlock`: either reset (R260, R261) -/

@[simp] theorem State.resetBlock_cfg (s : State) : s.resetBlock.cfg = s.cfg := rfl
@[simp] theorem State.resetBlock_arg0 (s : State) : s.resetBlock.arg0 = 0 := rfl
@[simp] theorem State.resetBlock_arg1 (s : State) : s.resetBlock.arg1 = 0 := rfl
@[simp] theorem State.resetBlock_res0 (s : State) : s.resetBlock.res0 = 0 := rfl
@[simp] theorem State.resetBlock_res1 (s : State) : s.resetBlock.res1 = 0 := rfl
@[simp] theorem State.resetBlock_thresh (s : State) : s.resetBlock.thresh = 0 := rfl
@[simp] theorem State.resetBlock_status (s : State) : s.resetBlock.status = Status.reset := rfl
@[simp] theorem State.resetBlock_peakCount (s : State) : s.resetBlock.peakCount = 0 := rfl
@[simp] theorem State.resetBlock_stageCount (s : State) : s.resetBlock.stageCount = 0 := rfl
@[simp] theorem State.resetBlock_liveCount (s : State) : s.resetBlock.liveCount = 0 := rfl
@[simp] theorem State.resetBlock_holdoff (s : State) : s.resetBlock.holdoff = 0 := rfl
@[simp] theorem State.resetBlock_peak (s : State) :
    s.resetBlock.peak = List.replicate s.cfg.maxPeaks { freq := 0, mag := 0, phase := 0 } := rfl
@[simp] theorem State.resetBlock_stage (s : State) :
    s.resetBlock.stage = List.replicate s.cfg.maxPeaks { period := 0, offset := 0 } := rfl
@[simp] theorem State.resetBlock_live (s : State) :
    s.resetBlock.live = List.replicate s.cfg.maxPeaks { period := 0, next := 0 } := rfl
@[simp] theorem State.resetBlock_mem (s : State) : s.resetBlock.mem = [] := rfl
@[simp] theorem State.resetBlock_hardReset (s : State) : s.resetBlock.hardReset = s.hardReset := rfl
@[simp] theorem State.resetBlock_pending (s : State) : s.resetBlock.pending = s.pending := rfl
@[simp] theorem State.resetBlock_response (s : State) : s.resetBlock.response = s.response := rfl
@[simp] theorem State.resetBlock_draws (s : State) : s.resetBlock.draws = s.draws + 1 := rfl
@[simp] theorem State.resetBlock_bufDraw (s : State) : s.resetBlock.bufDraw = s.draws := rfl

end Sys2Proof.Machine
end

