-- ==== Sys2Proof/Laws/Memory.lean ====
section
/-! SUPPORT. The memory behind `BUF`: read after write, the canonical form kept, and what storing words into `BUF`
does to every byte, word and complex word (spec/20_memory.md R62, R67). -/

namespace Sys2Proof.Machine

/-! ### One byte -/

@[simp] theorem Memory.byte?_nil (a : Nat) : Memory.byte? [] a = none := rfl

theorem Memory.byte?_put (m : Memory) (a : Nat) (b : Byte) (x : Nat) :
    (m.put a b).byte? x = if x = a then some b else m.byte? x := by
  induction m with
  | nil => simp only [Memory.put, Memory.byte?, eq_comm]
  | cons c rest ih =>
    obtain ⟨k, y⟩ := c
    simp only [Memory.put]
    split
    · simp only [Memory.byte?, eq_comm]
    · split
      · subst_vars
        simp only [Memory.byte?, eq_comm]
        split <;> rfl
      · simp only [Memory.byte?, ih]
        split
        · subst_vars
          rw [if_neg (by omega)]
        · rfl

theorem Memory.wf_cons (c : Host.Cell) (m : Memory) :
    Memory.wf (c :: m) = true ↔ (∀ d ∈ m.head?, c.1 < d.1) ∧ m.wf = true := by
  cases m <;> simp [Memory.wf]

theorem Memory.head?_put (m : Memory) (a : Nat) (b : Byte) :
    ∀ d ∈ (m.put a b).head?, d.1 = a ∨ ∃ e ∈ m.head?, d.1 = e.1 := by
  intro d hd
  cases m with
  | nil => simp [Memory.put] at hd; simp [← hd]
  | cons c rest =>
    obtain ⟨k, y⟩ := c
    simp only [Memory.put] at hd
    split at hd
    · simp at hd; simp [← hd]
    · split at hd
      · simp at hd; simp [← hd]
      · simp at hd; simp [← hd]

/-- Storing a byte keeps the canonical form. -/
theorem Memory.wf_put (m : Memory) (a : Nat) (b : Byte) (h : m.wf = true) : (m.put a b).wf = true := by
  induction m with
  | nil => rfl
  | cons c rest ih =>
    obtain ⟨k, y⟩ := c
    have hc := (Memory.wf_cons (k, y) rest).1 h
    simp only [Memory.put]
    split
    · exact (Memory.wf_cons _ _).2 ⟨by simpa using ‹a < k›, h⟩
    · split
      · subst_vars
        exact (Memory.wf_cons _ _).2 hc
      · refine (Memory.wf_cons _ _).2 ⟨fun d hd => ?_, ih hc.2⟩
        obtain hd | ⟨e, he, hd⟩ := Memory.head?_put rest a b d hd
        · simp only [hd]; omega
        · rw [hd]; exact hc.1 e he

/-- The listed offsets after storing a byte. -/
theorem Memory.mem_put (m : Memory) (a : Nat) (b : Byte) (c : Host.Cell) (h : c ∈ m.put a b) :
    c = (a, b) ∨ c ∈ m := by
  induction m with
  | nil => simpa [Memory.put] using h
  | cons d rest ih =>
    obtain ⟨k, y⟩ := d
    simp only [Memory.put] at h
    split at h
    · simpa using h
    · split at h
      · rcases List.mem_cons.1 h with h | h
        · exact .inl h
        · exact .inr (List.mem_cons_of_mem _ h)
      · rcases List.mem_cons.1 h with h | h
        · exact .inr (h ▸ List.mem_cons_self ..)
        · rcases ih h with h | h
          · exact .inl h
          · exact .inr (List.mem_cons_of_mem _ h)

/-! ### A run of bytes -/

theorem Memory.byte?_putBytes (m : Memory) (a : Nat) (bs : List Byte) (x : Nat) :
    (m.putBytes a bs).byte? x = if a ≤ x ∧ x < a + bs.length then bs[x - a]? else m.byte? x := by
  induction bs generalizing m a with
  | nil => simp only [Memory.putBytes, List.length_nil]; rw [if_neg (by omega)]
  | cons b bs ih =>
    simp only [Memory.putBytes, ih, Memory.byte?_put, List.length_cons]
    by_cases hx : x = a
    · subst hx
      rw [if_neg (by omega), if_pos rfl, if_pos (by omega)]
      simp
    · by_cases hr : a + 1 ≤ x ∧ x < a + 1 + bs.length
      · rw [if_pos hr, if_pos (by omega)]
        have : x - a = (x - (a + 1)) + 1 := by omega
        rw [this, List.getElem?_cons_succ]
      · rw [if_neg hr, if_neg hx, if_neg (by omega)]

theorem Memory.wf_putBytes (m : Memory) (a : Nat) (bs : List Byte) (h : m.wf = true) :
    (m.putBytes a bs).wf = true := by
  induction bs generalizing m a with
  | nil => exact h
  | cons b bs ih => exact ih _ _ (Memory.wf_put m a b h)

theorem Memory.mem_putBytes (m : Memory) (a : Nat) (bs : List Byte) (c : Host.Cell) (h : c ∈ m.putBytes a bs) :
    (a ≤ c.1 ∧ c.1 < a + bs.length) ∨ c ∈ m := by
  induction bs generalizing m a with
  | nil => exact .inr h
  | cons b bs ih =>
    simp only [List.length_cons]
    rcases ih _ _ h with h | h
    · exact .inl (by omega)
    · rcases Memory.mem_put _ _ _ _ h with rfl | h
      · exact .inl (by simp)
      · exact .inr h

/-! ### Words -/

@[simp] theorem bytesOfWord_length (w : Word) : (bytesOfWord w).length = 4 := rfl

/-- The bytes of a word, put together again, are the word (R62). -/
theorem wordOfBytes_bytesOfWord (w : Word) :
    wordOfBytes (w.extractLsb' 0 8) (w.extractLsb' 8 8) (w.extractLsb' 16 8) (w.extractLsb' 24 8) = w := by
  apply BitVec.eq_of_getLsbD_eq
  intro i hi
  simp only [wordOfBytes, BitVec.getLsbD_append, BitVec.getLsbD_extractLsb']
  have : i < 8 ∨ (8 ≤ i ∧ i < 16) ∨ (16 ≤ i ∧ i < 24) ∨ (24 ≤ i ∧ i < 32) := by omega
  rcases this with h | h | h | h
  · simp [h]
  · simp [show ¬ i < 8 by omega, show i - 8 < 8 by omega, show 8 + (i - 8) = i by omega]
  · simp [show ¬ i < 8 by omega, show ¬ i - 8 < 8 by omega, show i - 8 - 8 < 8 by omega,
      show 16 + (i - 8 - 8) = i by omega]
  · simp [show ¬ i < 8 by omega, show ¬ i - 8 < 8 by omega, show ¬ i - 8 - 8 < 8 by omega,
      show i - 8 - 8 - 8 < 8 by omega, show 24 + (i - 8 - 8 - 8) = i by omega]

/-- The decoder on the bytes of a word is the decoder on the word. -/
@[simp] theorem decodeBytes_bytesOfWord (w : Word) : decodeBytes (bytesOfWord w) = decode w := by
  simp only [bytesOfWord, decodeBytes, wordOfBytes_bytesOfWord]

/-- A complex word packed and unpacked again (R61, R67). -/
@[simp] theorem binOfWord_wordOfBin (b : Bin) : binOfWord (wordOfBin b) = b := by
  obtain ⟨re, im⟩ := b
  have hg : ∀ i, (im ++ re : BitVec (16 + 16)).getLsbD i = if i < 16 then re.getLsbD i else im.getLsbD (i - 16) :=
    fun i => by rw [BitVec.getLsbD_append]
  simp only [wordOfBin, binOfWord, Bin.mk.injEq]
  constructor <;> apply BitVec.eq_of_getLsbD_eq <;> intro i hi <;> rw [BitVec.getLsbD_extractLsb', hg] <;> simp [hi]

theorem Memory.wf_putWord (m : Memory) (i : Nat) (w : Word) (h : m.wf = true) : (m.putWord i w).wf = true :=
  Memory.wf_putBytes _ _ _ h

/-- The stored bytes after a word is stored: the word's four bytes at its offset, the others as before. -/
theorem Memory.byte?_putWord (m : Memory) (i : Nat) (w : Word) (x : Nat) :
    (m.putWord i w).byte? x =
      if bufOffset i ≤ x ∧ x < bufOffset i + 4 then (bytesOfWord w)[x - bufOffset i]? else m.byte? x :=
  Memory.byte?_putBytes m (bufOffset i) (bytesOfWord w) x

theorem Memory.wf_putBins (m : Memory) (i : Nat) (bs : List Bin) (h : m.wf = true) : (m.putBins i bs).wf = true := by
  induction bs generalizing m i with
  | nil => exact h
  | cons b bs ih => exact ih _ _ (Memory.wf_putWord m i _ h)

/-- A listed offset after words are stored is one of theirs or was listed before. -/
theorem Memory.mem_putBins (m : Memory) (i : Nat) (bs : List Bin) (c : Host.Cell) (h : c ∈ m.putBins i bs) :
    (bufOffset i ≤ c.1 ∧ c.1 < bufOffset (i + bs.length)) ∨ c ∈ m := by
  induction bs generalizing m i with
  | nil => exact .inr h
  | cons b bs ih =>
    simp only [List.length_cons]
    rcases ih _ _ h with h | h
    · left; simp only [bufOffset] at h ⊢; omega
    · rcases Memory.mem_putBytes _ _ _ _ h with h | h
      · left; simp only [bufOffset, bytesOfWord_length] at h ⊢; omega
      · exact .inr h

/-- The stored bytes outside the words stored are as before. -/
theorem Memory.byte?_putBins_of_outside (m : Memory) (i : Nat) (bs : List Bin) (x : Nat)
    (h : x < bufOffset i ∨ bufOffset (i + bs.length) ≤ x) : (m.putBins i bs).byte? x = m.byte? x := by
  induction bs generalizing m i with
  | nil => rfl
  | cons b bs ih =>
    simp only [List.length_cons, bufOffset] at h
    simp only [Memory.putBins]
    rw [ih _ _ (by simp only [bufOffset]; omega), Memory.byte?_putWord,
      if_neg (by simp only [bufOffset]; omega)]

/-- The stored bytes of word `j` after words are stored from `i` on. -/
theorem Memory.byte?_putBins (m : Memory) (i : Nat) (bs : List Bin) (j : Nat) (hj : j < bs.length) (o : Nat)
    (ho : o < 4) :
    (m.putBins i bs).byte? (bufOffset (i + j) + o) = (bytesOfWord (wordOfBin bs[j]))[o]? := by
  induction bs generalizing m i j with
  | nil => simp at hj
  | cons b bs ih =>
    simp only [Memory.putBins]
    cases j with
    | zero =>
      rw [Memory.byte?_putBins_of_outside _ _ _ _ (by simp only [bufOffset]; omega), Memory.byte?_putWord,
        if_pos (by simp only [bufOffset]; omega)]
      simp
    | succ j =>
      have := ih (m.putWord i (wordOfBin b)) (i + 1) j (by simpa using hj)
      rw [show i + (j + 1) = i + 1 + j by omega, this]
      simp

/-! ### `BUF` in the state -/

theorem State.bufByte_eq (s t : State) (a : Nat) (hm : t.mem.byte? a = s.mem.byte? a) (hd : t.bufDraw = s.bufDraw) :
    t.bufByte a = s.bufByte a := by
  simp only [State.bufByte, hm, hd]

/-- A byte outside a stored word reads as before (R67). -/
theorem State.bufByte_setBufWord_of_outside (s : State) (i : Nat) (w : Word) (a : Nat)
    (h : a < bufOffset i ∨ bufOffset i + 4 ≤ a) : (s.setBufWord i w).bufByte a = s.bufByte a :=
  State.bufByte_eq _ _ _ (by rw [State.setBufWord_mem, Memory.byte?_putWord, if_neg (by omega)]) rfl

/-- Word `i` after a store of `w` there is `w`: both halves exactly as written (R67). -/
@[simp] theorem State.bufWord_setBufWord (s : State) (i : Nat) (w : Word) : (s.setBufWord i w).bufWord i = w := by
  have h : ∀ o, o < 4 → (s.setBufWord i w).mem.byte? (bufOffset i + o) = (bytesOfWord w)[o]? := by
    intro o ho
    rw [State.setBufWord_mem, Memory.byte?_putWord, if_pos (by omega)]
    simp
  have h0 := h 0 (by omega)
  have h1 := h 1 (by omega)
  have h2 := h 2 (by omega)
  have h3 := h 3 (by omega)
  simp only [bytesOfWord, Nat.add_zero, List.getElem?_cons_zero, List.getElem?_cons_succ] at h0 h1 h2 h3
  simp only [State.bufWord, State.bufByte, h0, h1, h2, h3, wordOfBytes_bytesOfWord]

/-- Another word reads as before (R67). -/
theorem State.bufWord_setBufWord_of_ne (s : State) (i j : Nat) (w : Word) (h : j ≠ i) :
    (s.setBufWord i w).bufWord j = s.bufWord j := by
  simp only [State.bufWord]
  congr 1 <;> exact State.bufByte_setBufWord_of_outside _ _ _ _ (by simp only [bufOffset]; omega)

/-- A byte of the register space that is not in the words stored reads as before. -/
theorem State.bufByte_storeBuf_of_outside (s : State) (b : List Bin) (a : Nat)
    (h : a < bufOffset 0 ∨ bufOffset b.length ≤ a) : (s.storeBuf b).bufByte a = s.bufByte a :=
  State.bufByte_eq _ _ _ (by rw [State.storeBuf_mem, Memory.byte?_putBins_of_outside _ _ _ _ (by simpa using h)]) rfl

/-- Complex word `i` after a buffer is stored is its entry `i`. -/
theorem State.bin_storeBuf (s : State) (b : List Bin) (i : Nat) (h : i < b.length) : (s.storeBuf b).bin i = b[i] := by
  have hb : ∀ o, o < 4 →
      (s.storeBuf b).mem.byte? (bufOffset i + o) = (bytesOfWord (wordOfBin b[i]))[o]? := by
    intro o ho
    have := Memory.byte?_putBins s.mem 0 b i h o ho
    simpa using this
  have h0 := hb 0 (by omega)
  have h1 := hb 1 (by omega)
  have h2 := hb 2 (by omega)
  have h3 := hb 3 (by omega)
  simp only [bytesOfWord, Nat.add_zero, List.getElem?_cons_zero, List.getElem?_cons_succ] at h0 h1 h2 h3
  simp only [State.bin, State.bufWord, State.bufByte, h0, h1, h2, h3, wordOfBytes_bytesOfWord, binOfWord_wordOfBin]

@[simp] theorem State.loadBuf_length (s : State) : s.loadBuf.length = s.cfg.nfft := by
  simp [State.loadBuf]

theorem State.loadBuf_getElem (s : State) (i : Nat) (h : i < s.cfg.nfft) :
    s.loadBuf[i]'(by simpa using h) = s.bin i := by
  simp [State.loadBuf]

/-- A whole buffer stored is what is then loaded. -/
theorem State.loadBuf_storeBuf (s : State) (b : List Bin) (h : b.length = s.cfg.nfft) :
    (s.storeBuf b).loadBuf = b := by
  apply List.ext_getElem
  · simp [h]
  · intro i hi hi'
    rw [State.loadBuf_getElem _ _ (by simpa [h] using hi'), State.bin_storeBuf _ _ _ hi']

/-- The complex words depend on the stored bytes and the draw only. -/
theorem State.bin_congr (s t : State) (hm : t.mem = s.mem) (hd : t.bufDraw = s.bufDraw) (i : Nat) :
    t.bin i = s.bin i := by
  simp only [State.bin, State.bufWord, State.bufByte, hm, hd]

theorem State.loadBuf_congr (s t : State) (hm : t.mem = s.mem) (hd : t.bufDraw = s.bufDraw) (hc : t.cfg = s.cfg) :
    t.loadBuf = s.loadBuf := by
  simp only [State.loadBuf, hc]
  exact List.map_congr_left fun i _ => State.bin_congr s t hm hd i

end Sys2Proof.Machine
end

