-- ==== Sys2Proof/Laws/Primitives.lean ====
section
/-! SUPPORT. What the arithmetic primitives can answer (spec/40_fixed_point_primitives.md): the shifts as floor
divisions, the outcomes of a narrowing, a conversion over a list, offsets on the wrapping counter. -/

namespace Sys2Proof.Machine

/-- R103 with the shift written as a floor division (R6, R113). -/
theorem sfApply_eq (v : Half) (x : Int) : sfApply v x = (x * (v.toNat : Int) + 32768) / 65536 := by
  simp only [sfApply, Int.shiftRight_eq_div_pow]
  norm_num

/-- R104 with the shift written as a floor division. -/
theorem qmul_eq (a b : Int) : qmul a b = (a * b + 16384) / 32768 := by
  simp only [qmul, Int.shiftRight_eq_div_pow]
  norm_num

/-- R112: a value in range is kept, in either mode. -/
theorem narrow_of_fits (mode : OvfMode) (v lo hi : Int) (h : lo ≤ v ∧ v ≤ hi) : narrow mode v lo hi = .ok v := by
  simp only [narrow, if_pos h]

/-- R112: a value out of range raises `ARITH` in the mode `FAULT`. -/
theorem narrow_fault (v lo hi : Int) (h : ¬ (lo ≤ v ∧ v ≤ hi)) : narrow .fault v lo hi = .error .arith := by
  simp only [narrow, if_neg h]

/-- R112: a value out of range goes to the nearer bound in the mode `SATURATE`. -/
theorem narrow_saturate (v lo hi : Int) (h : ¬ (lo ≤ v ∧ v ≤ hi)) :
    narrow .saturate v lo hi = .ok (if v < lo then lo else hi) := by
  simp only [narrow, if_neg h]

/-- R112: what a narrowing answers lies within the bounds. -/
theorem narrow_bounds (mode : OvfMode) (v lo hi w : Int) (hb : lo ≤ hi) (h : narrow mode v lo hi = .ok w) :
    lo ≤ w ∧ w ≤ hi := by
  simp only [narrow] at h
  split at h
  · cases h; assumption
  · cases mode
    · cases h
    · simp only [Except.ok.injEq] at h
      subst h
      split <;> omega

/-- R112: the only fault of a narrowing is `ARITH`, in the mode `FAULT`, for a value out of range. -/
theorem narrow_error (mode : OvfMode) (v lo hi : Int) (code : FaultCode) (h : narrow mode v lo hi = .error code) :
    code = .arith ∧ mode = .fault ∧ ¬ (lo ≤ v ∧ v ≤ hi) := by
  simp only [narrow] at h
  split at h
  · cases h
  · cases mode
    · cases h; exact ⟨rfl, rfl, by assumption⟩
    · cases h

/-- A conversion over a list answers the conversion of each entry. -/
theorem mapOrFault_ok {α β : Type} (f : α → Except FaultCode β) (l : List α) (r : List β)
    (h : mapOrFault f l = .ok r) :
    r.length = l.length ∧ ∀ i (hi : i < l.length) (hr : i < r.length), f l[i] = .ok r[i] := by
  induction l generalizing r with
  | nil => cases h; simp
  | cons a rest ih =>
    simp only [mapOrFault] at h
    split at h
    · cases h
    · split at h
      · cases h
      · cases h
        obtain ⟨hl, hf⟩ := ih _ ‹_›
        refine ⟨by simp [hl], fun i hi hr => ?_⟩
        cases i with
        | zero => simpa using ‹f a = _›
        | succ i => simpa using hf i (by simpa using hi) (by simpa using hr)

/-- A conversion over a list that answers for every entry answers. -/
theorem mapOrFault_of_ok {α β : Type} (f : α → Except FaultCode β) (g : α → β) (l : List α)
    (h : ∀ a ∈ l, f a = .ok (g a)) : mapOrFault f l = .ok (l.map g) := by
  induction l with
  | nil => rfl
  | cons a rest ih =>
    simp only [mapOrFault, h a (List.mem_cons_self ..), List.map_cons,
      ih fun x hx => h x (List.mem_cons_of_mem _ hx)]

/-- A conversion over a list faults only with the fault of an entry. -/
theorem mapOrFault_error {α β : Type} (f : α → Except FaultCode β) (l : List α) (code : FaultCode)
    (h : mapOrFault f l = .error code) : ∃ a ∈ l, f a = .error code := by
  induction l with
  | nil => cases h
  | cons a rest ih =>
    simp only [mapOrFault] at h
    split at h
    · cases h; exact ⟨a, List.mem_cons_self .., ‹_›⟩
    · split at h
      · cases h
        obtain ⟨x, hx, hf⟩ := ih ‹_›
        exact ⟨x, List.mem_cons_of_mem _ hx, hf⟩
      · cases h

/-- R111: an effective offset is below half the counter's range. -/
theorem effOffset_lt (a b : Instant) : effOffset a b < 2 ^ 31 := by
  simp only [effOffset, isFuture, decide_eq_true_eq]
  split
  · assumption
  · norm_num

end Sys2Proof.Machine
end

