-- ==== Sys2Proof/Laws/Ops.lean ====
section
/-! SUPPORT. What the shared operations do, once each: command start, fault entry, a table overlaid, the dispatch of a
command, one step. -/

namespace Sys2Proof.Machine

/-! ### Command start (spec/30_encoding.md R84) -/

/-- In the stopped state a command reports `ABORT` and does nothing else (R235). -/
theorem State.command_stopped (s : State) (body : State → State) (h : s.status.fault = true) :
    s.command body = s.setErr .abort := by
  simp only [State.command, h, if_true]

/-- Otherwise the command runs from `ERR = OK`. -/
theorem State.command_running (s : State) (body : State → State) (h : s.status.fault = false) :
    s.command body = body (s.setErr .ok) := by
  simp only [State.command, h, Bool.false_eq_true, if_false]

/-! ### Tables -/

@[simp] theorem overlay_nil {α : Type} (old : List α) : overlay [] old = old := rfl

theorem overlay_length {α : Type} (new old : List α) (h : new.length ≤ old.length) :
    (overlay new old).length = old.length := by
  simp only [overlay, List.length_append, List.length_drop]
  omega

/-- The entries written. -/
@[simp] theorem overlay_take {α : Type} (new old : List α) : (overlay new old).take new.length = new := by
  simp [overlay]

/-- Entry `k` of a table after entries 0 to `new.length - 1` are replaced. -/
theorem overlay_getD {α : Type} (new old : List α) (k : Nat) (d : α) :
    (overlay new old).getD k d = if k < new.length then new.getD k d else old.getD k d := by
  simp only [overlay, List.getD_eq_getElem?_getD]
  split
  · rw [List.getElem?_append_left ‹_›]
  · rw [List.getElem?_append_right (by omega), List.getElem?_drop]
    congr 2
    omega

/-! ### Fault entry (spec/60_exceptions.md R234) -/

/-- Fault entry sets the four status fields and leaves `NONE` and `HV`. -/
theorem State.faultEntry_status (s : State) (i : Instr) (code : FaultCode) :
    (s.faultEntry i code).status =
      { s.status with fault := true, fcode := code, fop := fopOf i, err := .abort } := by
  cases i <;> rfl

/-- Fault entry keeps everything that is no command's destination. -/
theorem State.faultEntry_keeps (s : State) (i : Instr) (code : FaultCode) :
    (s.faultEntry i code).cfg = s.cfg ∧ (s.faultEntry i code).arg0 = s.arg0 ∧ (s.faultEntry i code).arg1 = s.arg1 ∧
      (s.faultEntry i code).res0 = s.res0 ∧ (s.faultEntry i code).res1 = s.res1 ∧
      (s.faultEntry i code).thresh = s.thresh ∧ (s.faultEntry i code).holdoff = s.holdoff ∧
      (s.faultEntry i code).live = s.live ∧ (s.faultEntry i code).liveCount = s.liveCount ∧
      (s.faultEntry i code).pending = s.pending ∧ (s.faultEntry i code).response = s.response ∧
      (s.faultEntry i code).hardReset = s.hardReset := by
  cases i <;> exact ⟨rfl, rfl, rfl, rfl, rfl, rfl, rfl, rfl, rfl, rfl, rfl, rfl⟩

/-! ### Dispatch -/

/-- The effect of a command that runs. -/
def bodyOf : Instr → State → State
  | .fft => fftBody
  | .window => windowBody
  | .peaks => peaksBody
  | .sched => schedBody
  | .adjust => adjustBody
  | .consume => consumeBody
  | .next => nextBody
  | .cmp => cmpBody

/-- Every command ends in a next state: command start, then its effect (R84). -/
theorem exec_eq (i : Instr) (s : State) : exec i s = .next (s.command (bodyOf i)) := by
  cases i <;> rfl

/-- A write to `CMD` (R84). -/
theorem commandWrite_eq (s : State) (w : Word) :
    commandWrite s w = .next (match decode w with
      | .ok i => s.command (bodyOf i)
      | .error _ => s.illegalCommand) := by
  simp only [commandWrite, decodeBytes_bytesOfWord]
  split <;> simp_all [exec_eq]

/-! ### One step -/

/-- What one step can do: nothing, a reset-line change, an access refused under the hard reset, or an access. -/
theorem step_cases (s : State) :
    (s.pending = [] ∧ step s = .next s) ∨
    (∃ b rest, s.pending = .resetLine b :: rest ∧ step s = .next ((s.withPending rest).setHardReset b)) ∨
    (∃ a rest, s.pending = .access a :: rest ∧ s.hardReset = true ∧
      step s = .next ((s.withPending rest).answer (.refused .underHardReset))) ∨
    (∃ a rest, s.pending = .access a :: rest ∧ s.hardReset = false ∧ step s = access (s.withPending rest) a) := by
  rcases hp : s.pending with _ | ⟨e, rest⟩
  · exact .inl ⟨rfl, by simp only [step, stepInput, hp]⟩
  · right
    cases e with
    | resetLine b => exact .inl ⟨b, rest, rfl, by simp only [step, stepInput, hp, takeInput]⟩
    | access a =>
      right
      cases hr : s.hardReset with
      | true => exact .inl ⟨a, rest, rfl, rfl, by simp [step, stepInput, hp, takeInput, hr]⟩
      | false => exact .inr ⟨a, rest, rfl, rfl, by simp [step, stepInput, hp, takeInput, hr]⟩

/-- What one access can answer: an error response and nothing else, the data of a read, or the effect of a write. -/
theorem access_cases (s : State) (a : Access) :
    (∃ e, access s a = .next (s.answer (.refused e))) ∨
    (∃ width off l, a = .read width off ∧ resolve s.cfg width off = .ok l ∧
      access s a = .next (s.answer (.data (s.readLoc l)))) ∨
    (∃ width off w l, a = .write width off w ∧ resolve s.cfg width off = .ok l ∧
      access s a = writeLoc (s.answer .written) l w) := by
  cases a with
  | read width off =>
    simp only [access]
    split
    · exact .inl ⟨_, rfl⟩
    · exact .inr (.inl ⟨width, off, _, rfl, ‹_›, rfl⟩)
  | write width off w =>
    simp only [access]
    split
    · exact .inl ⟨_, rfl⟩
    · exact .inr (.inr ⟨width, off, w, _, rfl, ‹_›, rfl⟩)

/-- What a host write to a location can do: a reset, a command, an operand or buffer word stored, or nothing (R65). -/
theorem writeLoc_cases (s : State) (l : Loc) (w : Word) :
    (l = .ctrl ∧ writeLoc s l w = .next (s.writeCtrl w)) ∨
    (l = .cmd ∧ writeLoc s l w = commandWrite s w) ∨
    (l = .arg0 ∧ writeLoc s l w = .next { s with arg0 := w }) ∨
    (l = .arg1 ∧ writeLoc s l w = .next { s with arg1 := w }) ∨
    (l = .thresh ∧ writeLoc s l w = .next { s with thresh := w.extractLsb' 0 16 }) ∨
    (∃ i, l = .buf i ∧ writeLoc s l w = .next (s.setBufWord i w)) ∨
    writeLoc s l w = .next s := by
  cases l <;> simp [writeLoc]

end Sys2Proof.Machine
end

