-- ==== Sys2Proof/Laws/Commands.lean ====
section
/-! SUPPORT. What the operations inside the commands can do, once each: the parts of a well-formed configuration, the
faults each command can raise, the lengths of the buffers, the pick of a ridge, the pulses of the live table, the moves
of NEXT and its choice. -/

namespace Sys2Proof.Machine

/-! ### Configuration (spec/00_scope.md R8 to R12) -/

/-- What a well-formed configuration gives, as propositions. -/
theorem Config_wellFormed_parts (c : Config) (h : c.wellFormed = true) :
    (2 ≤ c.nlog2 ∧ c.nlog2 ≤ 14) ∧ c.preshift ≤ 15 ∧ (1 ≤ c.maxPeaks ∧ c.maxPeaks ≤ 32) ∧ 1 ≤ c.ridgeCap ∧
      c.sine.length = 3 * c.nfft / 4 ∧ c.window.length = c.nfft ∧ c.minBin < c.nbins ∧
      (1 ≤ c.freqPerBin.toNat ∧ c.nbins * c.freqPerBin.toNat ≤ 2 ^ 32 - 1) ∧ 1 ≤ c.maxFreq.toNat ∧
      (1 ≤ c.ncNum.toNat ∧ 1 ≤ c.ncDen.toNat) ∧ 1 ≤ c.periodNum.toNat ∧
      (1 ≤ c.periodMax ∧ c.periodMax ≤ 2 ^ 30) := by
  simp only [Config.wellFormed, Bool.and_eq_true, Config.nlog2Ok, Config.preshiftOk, Config.maxPeaksOk,
    Config.ridgeCapOk, Config.sineLengthOk, Config.windowLengthOk, Config.minBinOk, Config.freqPerBinOk,
    Config.maxFreqOk, Config.nightcoreOk, Config.periodNumOk, Config.periodMaxOk, decide_eq_true_eq] at h
  tauto

/-! ### A command that runs -/

/-- A command that is not stopped ends in its effect on the state with `ERR = OK` (spec/30_encoding.md R84). -/
theorem exec_running (i : Instr) (s : State) (hf : s.status.fault = false) :
    exec i s = .next (bodyOf i (s.setErr .ok)) := by
  rw [exec_eq, State.command_running _ _ hf]

/-! ### Faults (spec/60_exceptions.md R231) -/

/-- WINDOW raises only `ARITH`, and only with `OVF_MODE = FAULT`. -/
theorem windowOf_error (c : Config) (b : List Bin) (code : FaultCode) (h : windowOf c b = .error code) :
    code = .arith ∧ c.ovfMode = .fault := by
  obtain ⟨a, -, he⟩ := mapOrFault_error _ _ _ h
  simp only [windowWord] at he
  split at he
  · cases he
    rename_i h
    exact ⟨(narrow_error _ _ _ _ _ h).1, (narrow_error _ _ _ _ _ h).2.1⟩
  · cases he

/-- SCHED raises only `ARITH`, and only with `OVF_MODE = FAULT`. -/
theorem schedulePulses_error (c : Config) (ps : List PeakEntry) (code : FaultCode)
    (h : schedulePulses c ps = .error code) : code = .arith ∧ c.ovfMode = .fault := by
  obtain ⟨a, -, he⟩ := mapOrFault_error _ _ _ h
  simp only [stageOf] at he
  split at he
  · cases he
    rename_i h
    exact ⟨(narrow_error _ _ _ _ _ h).1, (narrow_error _ _ _ _ _ h).2.1⟩
  · cases he

/-- The refinement raises only `ARITH`, and only with `OVF_MODE = FAULT`. -/
theorem refine_error (c : Config) (sq : List Nat) (b : Nat) (code : FaultCode) (h : refine c sq b = .error code) :
    code = .arith ∧ c.ovfMode = .fault := by
  simp only [refine] at h
  split at h
  · cases h
    rename_i h
    exact ⟨(narrow_error _ _ _ _ _ h).1, (narrow_error _ _ _ _ _ h).2.1⟩
  · split at h <;> cases h

/-- The selection loop raises only what the refinement raises. -/
theorem selectPeaks_error (c : Config) (thresh : Half) (bins : List Bin) (sq : List Nat) (turns : Nat) (left : List Nat)
    (room : Nat) (maxMag : Option Nat) (code : FaultCode)
    (h : selectPeaks c thresh bins sq turns left room maxMag = .error code) : code = .arith ∧ c.ovfMode = .fault := by
  induction turns generalizing left room maxMag with
  | zero => cases h
  | succ n ih =>
    simp only [selectPeaks] at h
    split at h
    · cases h
    split at h
    · cases h
    split at h
    · exact ih _ _ _ h
    split at h
    · cases h
    split at h
    · cases h
    split at h
    · cases h; exact refine_error _ _ _ _ ‹_›
    · exact ih _ _ _ h
    · split at h
      · cases h; exact ih _ _ _ ‹_›
      · cases h

/-- The ridge scan raises only `CAPACITY`. -/
theorem scanFrom_error (c : Config) (sq : List Nat) (fuel room i : Nat) (code : FaultCode)
    (h : scanFrom c sq fuel room i = .error code) : code = .capacity := by
  induction fuel generalizing room i with
  | zero => cases h
  | succ n ih =>
    simp only [scanFrom] at h
    split at h
    · cases h; rfl
    split at h
    · cases h
    split at h
    · cases h; exact ih _ _ ‹_›
    · cases h

/-- PEAKS raises `CAPACITY`, or with `OVF_MODE = FAULT` `ARITH`. -/
theorem findPeaks_error (c : Config) (thresh : Half) (bins : List Bin) (code : FaultCode)
    (h : findPeaks c thresh bins = .error code) : code = .capacity ∨ (code = .arith ∧ c.ovfMode = .fault) := by
  simp only [findPeaks] at h
  split at h
  · cases h; exact .inl (scanFrom_error _ _ _ _ _ _ ‹_›)
  · exact .inr (selectPeaks_error _ _ _ _ _ _ _ _ _ h)

/-! ### Buffers -/

@[simp] theorem butterfly_length (w : Twiddle) (i k : Nat) (b : List Bin) : (butterfly w i k b).length = b.length := by
  simp [butterfly]

@[simp] theorem stagePosition_length (c : Config) (s m : Nat) (b : List Bin) :
    (stagePosition c s m b).length = b.length := by
  simp only [stagePosition]
  generalize List.range _ = l
  induction l generalizing b with
  | nil => rfl
  | cons a l ih => rw [List.foldl_cons, ih, butterfly_length]

@[simp] theorem stage_length (c : Config) (b : List Bin) (s : Nat) : (stage c b s).length = b.length := by
  simp only [stage]
  generalize List.range _ = l
  induction l generalizing b with
  | nil => rfl
  | cons a l ih => rw [List.foldl_cons, ih, stagePosition_length]

@[simp] theorem fftOf_length (c : Config) (b : List Bin) : (fftOf c b).length = c.nfft := by
  simp only [fftOf]
  have h : ∀ (l : List Nat) (x : List Bin), (l.foldl (stage c) x).length = x.length := by
    intro l
    induction l with
    | nil => intro x; rfl
    | cons a l ih => intro x; rw [List.foldl_cons, ih, stage_length]
  rw [h]
  simp [bitReversed]

theorem windowOf_length (c : Config) (b r : List Bin) (h : windowOf c b = .ok r) : r.length = b.length := by
  rw [(mapOrFault_ok _ _ _ h).1, List.length_zipIdx]

/-! ### PEAKS -/

/-- The pick is a ridge of the list that no ridge of the list exceeds (spec/43_peak_detector.md R156). -/
theorem pickRidge_some (sq left : List Nat) (b : Nat) (h : pickRidge sq left = some b) :
    b ∈ left ∧ ∀ x ∈ left, sqAt sq x ≤ sqAt sq b := by
  cases left with
  | nil => cases h
  | cons a r =>
    simp only [pickRidge, Option.some.injEq] at h
    subst h
    induction r using List.reverseRecOn with
    | nil => simp
    | append_singleton r x ih =>
      rw [List.foldl_append, List.foldl_cons, List.foldl_nil]
      generalize r.foldl (higherRidge sq) a = c at *
      obtain ⟨i1, i2⟩ := ih
      have hm : ∀ y, y ∈ a :: (r ++ [x]) ↔ y ∈ a :: r ∨ y = x := by intro y; simp; tauto
      simp only [higherRidge]
      split
      · refine ⟨(hm _).2 (.inr rfl), fun y hy => ?_⟩
        rcases (hm y).1 hy with h | rfl
        · have := i2 y h; omega
        · omega
      · refine ⟨(hm _).2 (.inl i1), fun y hy => ?_⟩
        rcases (hm y).1 hy with h | rfl
        · exact i2 y h
        · omega

/-- An accepted frequency lies from 1 to `MAX_FREQ` (spec/44_peak_interpolator.md R176). -/
theorem refine_accepted (c : Config) (sq : List Nat) (b : Nat) (f : Frequency) (h : refine c sq b = .ok (some f)) :
    1 ≤ f.toNat ∧ f.toNat ≤ c.maxFreq.toNat := by
  simp only [refine] at h
  split at h
  · cases h
  · rename_i f1 hn
    have := narrow_bounds _ _ _ _ _ (by norm_num) hn
    split at h
    · cases h
    · cases h
      rw [BitVec.toNat_ofInt]
      omega

/-! ### The live table -/

theorem State.livePulses_length (s : State) (h : s.live.length = s.cfg.maxPeaks)
    (hc : s.liveCount.toNat ≤ s.cfg.maxPeaks) : s.livePulses.length = s.liveCount.toNat := by
  simp [State.livePulses]
  omega

theorem State.livePulses_getElem (s : State) (h : s.live.length = s.cfg.maxPeaks)
    (hc : s.liveCount.toNat ≤ s.cfg.maxPeaks) (k : Nat) (hk : k < s.livePulses.length) :
    s.livePulses[k] = s.liveAt k := by
  have : k < s.liveCount.toNat := by rw [← State.livePulses_length s h hc]; exact hk
  simp only [State.livePulses, State.liveAt, List.getElem_take, List.getD_eq_getElem?_getD]
  rw [List.getElem?_eq_getElem (by omega)]
  rfl

/-- The pulses after each is changed in its place. -/
theorem overlay_livePulses_take (s : State) (f : LiveEntry → LiveEntry) (h : s.live.length = s.cfg.maxPeaks)
    (hc : s.liveCount.toNat ≤ s.cfg.maxPeaks) :
    (overlay (s.livePulses.map f) s.live).take s.liveCount.toNat = s.livePulses.map f := by
  have := overlay_take (s.livePulses.map f) s.live
  rwa [List.length_map, State.livePulses_length s h hc] at this

/-! ### Offsets -/

theorem tdiff_toNat (a b : Instant) : (tdiff a b).toNat = (b.toNat + 2 ^ 32 - a.toNat) % 2 ^ 32 := by
  have := a.isLt
  have := b.isLt
  simp only [tdiff, BitVec.toNat_sub]
  congr 1
  omega

/-- The signed offset (spec/45_pulse_scheduler.md R203): its range, the effective offset and the difference from it. -/
theorem signedOffset_spec (a b : Instant) :
    -2 ^ 31 ≤ signedOffset a b ∧ signedOffset a b < 2 ^ 31 ∧ (effOffset a b : Int) = max 0 (signedOffset a b) ∧
      ((tdiff a b).toNat : Int) = signedOffset a b % 2 ^ 32 := by
  simp only [signedOffset, effOffset, isFuture, decide_eq_true_eq]
  have := (tdiff a b).isLt
  split <;> omega

/-- An instant moved forward, as long as it stays within half the counter's range. -/
theorem signedOffset_add (a b : Instant) (m : Nat) (h : signedOffset a b + m < 2 ^ 31) :
    signedOffset a (b + BitVec.ofNat 32 m) = signedOffset a b + m := by
  obtain ⟨h3, h4, -, h5⟩ := signedOffset_spec a b
  obtain ⟨h6, h7, -, h8⟩ := signedOffset_spec a (b + BitVec.ofNat 32 m)
  rw [tdiff_toNat] at h5
  rw [tdiff_toNat, BitVec.toNat_add, BitVec.toNat_ofNat] at h8
  have := a.isLt
  have := b.isLt
  omega

theorem ceilDiv_spec (a p : Int) (hp : 1 ≤ p) (ha : 1 ≤ a) :
    1 ≤ ceilDiv a p ∧ a ≤ ceilDiv a p * p ∧ (ceilDiv a p - 1) * p < a := by
  simp only [ceilDiv]
  have h1 := Int.mul_ediv_add_emod (a + p - 1) p
  have h2 := Int.emod_nonneg (a + p - 1) (show p ≠ 0 by omega)
  have h3 := Int.emod_lt_of_pos (a + p - 1) (show 0 < p by omega)
  generalize (a + p - 1) / p = q at *
  have h4 : p * q = q * p := mul_comm _ _
  have h5 : (q - 1) * p = q * p - p := by ring
  refine ⟨?_, by omega, by omega⟩
  by_contra hq
  have : q * p ≤ 0 := by nlinarith
  omega

/-! ### NEXT -/

/-- A pulse of NEXT keeps its period; it stays when its offset is not below the holdoff, else it moves by the least
number of periods that brings its signed offset there (R203). -/
theorem heldOff_spec (after : Instant) (h : Nat) (e : LiveEntry) (hp : 1 ≤ e.period.toNat) :
    (heldOff after h e).period = e.period ∧ (h ≤ effOffset after e.next → heldOff after h e = e) ∧
      (effOffset after e.next < h → ∃ n : Nat, 1 ≤ n ∧
        heldOff after h e = { e with next := e.next + BitVec.ofNat 32 (n * e.period.toNat) } ∧
        (h : Int) ≤ signedOffset after e.next + n * e.period.toNat ∧
        signedOffset after e.next + (n - 1) * e.period.toNat < (h : Int)) := by
  refine ⟨?_, fun h1 => ?_, fun h1 => ?_⟩
  · simp only [heldOff]
    split <;> rfl
  · simp only [heldOff]
    rw [if_neg (by omega)]
  · obtain ⟨s1, s2, s3, s4⟩ := signedOffset_spec after e.next
    obtain ⟨c1, c2, c3⟩ := ceilDiv_spec ((h : Int) - signedOffset after e.next) e.period.toNat (by omega) (by omega)
    simp only [heldOff]
    rw [if_pos h1]
    simp only [heldOffPeriods]
    generalize ceilDiv ((h : Int) - signedOffset after e.next) e.period.toNat = q at *
    obtain ⟨n, rfl⟩ : ∃ n : Nat, q = n := ⟨q.toNat, by omega⟩
    refine ⟨n, by omega, ?_, by omega, by linarith⟩
    congr 1
    apply BitVec.eq_of_toNat_eq
    rw [BitVec.toNat_ofInt, BitVec.toNat_add, BitVec.toNat_ofNat]
    push_cast
    have : (e.next.toNat : Int) + n * e.period.toNat = ((e.next.toNat + n * e.period.toNat : Nat) : Int) := by
      push_cast; rfl
    rw [this]
    generalize n * e.period.toNat = z
    omega

/-- The soonest pulse of a list that is not empty stands in it, no pulse is sooner, and none before it is as soon
(R204). -/
theorem foldl_sooner_spec (after : Instant) (l : List LiveEntry) (b : LiveEntry) :
    ∃ k, k < (b :: l).length ∧ (b :: l)[k]? = some (l.foldl (sooner after) b) ∧
      (∀ j (hj : j < (b :: l).length),
        effOffset after (l.foldl (sooner after) b).next ≤ effOffset after ((b :: l)[j]).next) ∧
      (∀ j (hj : j < (b :: l).length), j < k →
        effOffset after (l.foldl (sooner after) b).next < effOffset after ((b :: l)[j]).next) := by
  induction l using List.reverseRecOn with
  | nil => exact ⟨0, by simp, by simp, fun j hj => by simp at hj; subst hj; simp, fun j hj h => by omega⟩
  | append_singleton l a ih =>
    obtain ⟨k, hk, h1, h2, h3⟩ := ih
    rw [List.foldl_append, List.foldl_cons, List.foldl_nil]
    generalize l.foldl (sooner after) b = best at *
    have happ : b :: (l ++ [a]) = (b :: l) ++ [a] := rfl
    have hl : (b :: (l ++ [a])).length = (b :: l).length + 1 := by simp
    have hget : ∀ j (hj : j < (b :: (l ++ [a])).length),
        (∃ h : j < (b :: l).length, (b :: (l ++ [a]))[j] = (b :: l)[j]) ∨
          (j = (b :: l).length ∧ (b :: (l ++ [a]))[j] = a) := by
      intro j hj
      by_cases h : j < (b :: l).length
      · exact .inl ⟨h, by simp only [happ]; rw [List.getElem_append_left h]⟩
      · have hj' : j = (b :: l).length := by omega
        refine .inr ⟨hj', ?_⟩
        subst hj'
        simp
    simp only [sooner]
    split
    · rename_i hlt
      refine ⟨(b :: l).length, by omega, by simp, fun j hj => ?_, fun j hj hjk => ?_⟩
      · rcases hget j hj with ⟨h, he⟩ | ⟨-, he⟩
        · rw [he]; have := h2 j h; omega
        · rw [he]
      · rcases hget j hj with ⟨h, he⟩ | ⟨h, -⟩
        · rw [he]; have := h2 j h; omega
        · omega
    · rename_i hlt
      refine ⟨k, by omega, ?_, fun j hj => ?_, fun j hj hjk => ?_⟩
      · rw [happ, List.getElem?_append_left hk, h1]
      · rcases hget j hj with ⟨h, he⟩ | ⟨-, he⟩
        · rw [he]; exact h2 j h
        · rw [he]; omega
      · rcases hget j hj with ⟨h, he⟩ | ⟨h, -⟩
        · rw [he]; exact h3 j h hjk
        · omega

end Sys2Proof.Machine
end

