-- ==== Sys2Proof/Laws/PerInstr.lean ====
section
/-! SUPPORT. The family `CommandFormat` of LAWS.json: one lemma per command about its syntax. -/

/-- R80, R81, R82: the word of a well-formed command has `ZERO` 0 and its opcode in `OPCODE`, and the decoder gives the
command back. -/
def Sys2Proof.Laws.CommandFormat.Statement (i : Sys2Proof.Instr) : Prop :=
  i.wellFormed = true →
    Sys2Proof.zeroField (Sys2Proof.encode i) = 0 ∧
      Sys2Proof.opcodeField (Sys2Proof.encode i) = Sys2Proof.opcodeOf i ∧
      Sys2Proof.decode (Sys2Proof.encode i) = .ok i

theorem Sys2Proof.Laws.CommandFormat.fft : Sys2Proof.Laws.CommandFormat.Statement .fft :=
  fun _ => ⟨rfl, rfl, rfl⟩

theorem Sys2Proof.Laws.CommandFormat.window : Sys2Proof.Laws.CommandFormat.Statement .window :=
  fun _ => ⟨rfl, rfl, rfl⟩

theorem Sys2Proof.Laws.CommandFormat.peaks : Sys2Proof.Laws.CommandFormat.Statement .peaks :=
  fun _ => ⟨rfl, rfl, rfl⟩

theorem Sys2Proof.Laws.CommandFormat.sched : Sys2Proof.Laws.CommandFormat.Statement .sched :=
  fun _ => ⟨rfl, rfl, rfl⟩

theorem Sys2Proof.Laws.CommandFormat.adjust : Sys2Proof.Laws.CommandFormat.Statement .adjust :=
  fun _ => ⟨rfl, rfl, rfl⟩

theorem Sys2Proof.Laws.CommandFormat.consume : Sys2Proof.Laws.CommandFormat.Statement .consume :=
  fun _ => ⟨rfl, rfl, rfl⟩

theorem Sys2Proof.Laws.CommandFormat.next : Sys2Proof.Laws.CommandFormat.Statement .next :=
  fun _ => ⟨rfl, rfl, rfl⟩

theorem Sys2Proof.Laws.CommandFormat.cmp : Sys2Proof.Laws.CommandFormat.Statement .cmp :=
  fun _ => ⟨rfl, rfl, rfl⟩
end

