-- ==== Sys2Proof/Tests/Slice0.lean ====
section
/-! SUPPORT. The model's own tests. Expected values come from spec/95_test_vectors.md (the vector is named beside each)
or are worked by hand from the rule named. The witnesses at the end show that the hypotheses of the obligations can be
met together. -/

namespace Sys2Proof.Machine

set_option Elab.async false

/-! ### Helpers -/

/-- An outcome is a next state that passes a check. -/
def nextIs (o : Host.Outcome State Fault Refusal) (p : State → Bool) : Bool :=
  match o with
  | .next t => p t
  | _ => false

/-- The next state of an outcome; the state after reset of REF8 if there is none. -/
def nextOf (o : Host.Outcome State Fault Refusal) : State :=
  match o with
  | .next t => t
  | _ => State.resetFor Config.ref8

/-- REF8 and REF32 right after reset. -/
def s8 : State := State.resetFor Config.ref8
def s32 : State := State.resetFor Config.ref32

/-- A state with these complex words in `BUF`. -/
def State.withBins (s : State) (l : List (Int × Int)) : State :=
  s.storeBuf (l.map fun p => { re := BitVec.ofInt 16 p.1, im := BitVec.ofInt 16 p.2 })

/-- A state with these real parts in `BUF`, imaginary parts 0. -/
def State.withReals (s : State) (l : List Int) : State := s.withBins (l.map fun x => (x, 0))

/-- The complex words of `BUF` as pairs of numbers. -/
def State.pairs (s : State) : List (Int × Int) := s.loadBuf.map fun b => (b.re.toInt, b.im.toInt)

/-- A state with this live table. -/
def State.withLive (s : State) (l : List LiveEntry) : State :=
  { s with live := overlay l s.live, liveCount := BitVec.ofNat 6 l.length }

/-- A state with `HOLDOFF` valid. -/
def State.withHoldoff (s : State) (h : Instant) : State := { s.setHv true with holdoff := h }

/-- A state with one access to come. -/
def State.toCome (s : State) (a : Access) : State := { s with pending := [.access a] }

/-- The spectrum `sp` of 95 2.4, the words above `NBINS` 0. -/
def spectrum : State :=
  s32.withReals ([900, 300, 200, 1000, 4000, 3000, 500, 100, 2000, 2000, 150, 120, 6000, 100, 90, 300] ++
    List.replicate 16 0)

/-- A WINDOW input that overflows (95 2.3, "Overflow of the pre-shift"). -/
def loud : State := s8.withReals [2048, -2049, 0, 0, 0, 0, 0, 0]

/-- The largest inputs that do not (95 2.3). -/
def edge : State := s8.withReals [2047, -2048, 0, 0, 0, 0, 0, 0]

/-- The stopped state the overflow leaves. -/
def stopped : State := nextOf (exec .window loud)

/-- The start state of 95 2.6, SCHED as a whole. -/
def threePeaks : State :=
  { s32 with
    peakCount := 3
    peak := [{ freq := 0x00050000, mag := 8000, phase := 0 }, { freq := 0x00078000, mag := 3000, phase := 0x4000 },
      { freq := 0x000C4000, mag := 2000, phase := 0xC000 }, { freq := 0, mag := 0, phase := 0 }] }

/-- The start state of 95 2.7, "tie and past". -/
def tiePast : State :=
  { s32.withLive [{ period := 1000, next := 0x500 }, { period := 700, next := 0x500 },
      { period := 900, next := 0x4F0 }] with arg0 := 0x500 }

/-- One pulse of period 1000 due at 1000, seen from 1000 (95 2.7). -/
def lonePulse : State := { s32.withLive [{ period := 1000, next := 1000 }] with arg0 := 1000 }

/-- 95 2.7, "past pulse, holdoff". -/
def heldPulse : State :=
  { (s32.withLive [{ period := 1000, next := 900 }]).withHoldoff 1500 with arg0 := 1200 }

/-! ### Well-formed configurations (00_scope.md R12): both reference ones pass, and each check refuses -/

theorem test_ref8_wellFormed : Config.ref8.wellFormed = true := by decide +kernel
theorem test_ref32_wellFormed : Config.ref32.wellFormed = true := by decide +kernel
theorem test_refuse_nlog2 : { Config.ref8 with nlog2 := 15 }.nlog2Ok = false := by decide
theorem test_refuse_preshift : { Config.ref8 with preshift := 16 }.preshiftOk = false := by decide
theorem test_refuse_maxPeaks : { Config.ref8 with maxPeaks := 33 }.maxPeaksOk = false := by decide
theorem test_refuse_ridgeCap : { Config.ref8 with ridgeCap := 0 }.ridgeCapOk = false := by decide
theorem test_refuse_sineLength : { Config.ref8 with sine := [0] }.sineLengthOk = false := by decide
theorem test_refuse_sineRange : { Config.ref8 with sine := [0x8000] }.sineRangeOk = false := by decide
theorem test_refuse_windowLength : { Config.ref8 with window := [] }.windowLengthOk = false := by decide
theorem test_refuse_minBin : { Config.ref8 with minBin := 4 }.minBinOk = false := by decide
theorem test_refuse_freqPerBin : { Config.ref8 with freqPerBin := 0x40000000 }.freqPerBinOk = false := by decide
theorem test_refuse_maxFreq : { Config.ref8 with maxFreq := 0 }.maxFreqOk = false := by decide
theorem test_refuse_nightcore : { Config.ref8 with ncDen := 0 }.nightcoreOk = false := by decide
theorem test_refuse_periodNum : { Config.ref8 with periodNum := 0 }.periodNumOk = false := by decide
theorem test_refuse_periodMax : { Config.ref8 with periodMax := 2 ^ 30 + 1 }.periodMaxOk = false := by decide

/-! ### Decoding (30_encoding.md R80 to R83): words written out bit by bit, ZERO then OPCODE -/

theorem test_decode_fft : decode 0b000000000000000000000000_00000001 = .ok .fft := by decide
theorem test_decode_window : decode 0b000000000000000000000000_00000010 = .ok .window := by decide
theorem test_decode_peaks : decode 0b000000000000000000000000_00000100 = .ok .peaks := by decide
theorem test_decode_sched : decode 0b000000000000000000000000_00000101 = .ok .sched := by decide
theorem test_decode_adjust : decode 0b000000000000000000000000_00000110 = .ok .adjust := by decide
theorem test_decode_consume : decode 0b000000000000000000000000_00000111 = .ok .consume := by decide
theorem test_decode_next : decode 0b000000000000000000000000_00001000 = .ok .next := by decide
theorem test_decode_cmp : decode 0b000000000000000000000000_00001001 = .ok .cmp := by decide
/-- 95 2.9, the decoding vectors that are `ILLEGAL`. -/
theorem test_decode_illegal :
    [0x00000000, 0x00000003, 0x0000000A, 0x000000FF, 0x00000101, 0x80000001, 0xFFFFFFFF].map
      (fun w : Word => (decode w).toOption) = List.replicate 7 none := by decide
/-- The bytes of a `CMD` write, lowest offset first (20_memory.md R62). -/
theorem test_decode_bytes : decodeBytes [0x09, 0, 0, 0] = .ok .cmp ∧ decodeBytes [0, 0, 0, 0x09] = .error .zeroField ∧
    decodeTableWord 32 7 = some .consume ∧ decodeTableWord 8 7 = some .consume := by decide

/-! ### Primitives (95 2.1) -/

theorem test_wrap16 : wrap16 39552 = -25984 ∧ wrap16 65536 = 0 ∧ wrap16 (-1) = -1 := by decide
theorem test_sf_apply : sfApply 0x8000 3 = 2 ∧ sfApply 0x8000 (-3) = -1 ∧ sfApply 0x7FFF 65536 = 32767 := by decide
theorem test_qmul : qmul 32767 (-16384) = -16383 ∧ qmul (-23170) 1000 = -707 ∧ qmul 16383 1 = 0 := by decide
theorem test_isqrt : isqrt 2147395599 = 46339 ∧ isqrt 2147395600 = 46340 ∧ isqrt 15 = 3 := by decide +kernel
theorem test_ref_phase : refPhase 1000 2000 = 0x2D39 ∧ refPhase (-32768) (-32768) = 0xA000 ∧
    refPhase 32767 (-1) = 0 ∧ refPhase 0 (-1) = 0xC000 := by decide +kernel
theorem test_bitrev : (List.range 8).map (bitrev 3) = [0, 4, 2, 6, 1, 5, 3, 7] := by decide

/-! ### Registers -/

/-- 95 P1 access 1: `CFG` of REF8. R21: `ID`. -/
theorem test_cfg_word : cfgWord Config.ref8 = 0x00040403 ∧ s8.readLoc .id = 0x46465407 := by decide
/-- 95 2.9: `STATUS` after a WINDOW fault with `HV` set. -/
theorem test_status_word :
    statusWord { fault := true, fcode := .arith, fop := 2, err := .abort, noneBit := false, hv := true } =
      0x00001325 := by decide
/-- 95 P1 access 2 (`LDBUF 0, 1000, 0x1234`), then read back. -/
theorem test_buf_write : nextIs (step (s8.toCome (.write 4 0x10000 0x123403E8)))
    (fun t => t.readLoc (.buf 0) = 0x123403E8 && t.bin 0 = { re := 1000, im := 0x1234 } && t.bufByte 0x10001 = 0x03) =
      true := by decide +kernel
/-- R61: `PEAK[1]` is read at 0x108 and 0x10C, phase above magnitude. -/
theorem test_peak_read : nextIs (step (threePeaks.toCome (.read 4 0x10C)))
    (fun t => t.response = .data 0x40000BB8) = true := by decide +kernel

/-! ### Commands: two vectors each -/

/-- 95 2.2 "wrap": the imaginary part of bin 7 wraps in the last butterfly. -/
theorem test_fft_wrap : nextIs (exec .fft (s8.withBins [(0, 32767), (32767, 32767), (32767, 0), (32767, -32768),
    (0, -32768), (-32768, -32768), (-32768, 0), (-32768, 32767)])) (fun t => t.pairs =
      [(0, -1), (0, 0), (0, 0), (0, -6786), (0, 0), (0, 0), (0, 0), (0, -25984)]) = true := by decide +kernel
/-- 95 2.2 "complex". -/
theorem test_fft_complex : nextIs (exec .fft (s8.withBins [(100, -50), (-200, 60), (300, -70), (-400, 80), (500, -90),
    (-600, 100), (700, -110), (-800, 120)])) (fun t => t.pairs = [(-50, 5), (-52, -16), (-55, -45), (-62, -116),
      (450, -85), (-38, 126), (-45, 55), (-48, 26)]) = true := by decide +kernel

/-- 95 2.3, HANN; `WIN_AMP` 32767. -/
theorem test_window_hann : nextIs (exec .window (State.withBins (State.resetFor { Config.ref8 with
    windowKind := .hann, window := [0, 9598, 32768, 55938, 65535, 55938, 32768, 9598] })
      [(1000, 7), (-1000, 7), (2047, 7), (-2048, 7), (1, 7), (-1, 7), (0, 7), (500, 7)]))
    (fun t => t.pairs = [(0, 0), (-2343, 0), (16376, 0), (-27969, 0), (16, 0), (-14, 0), (0, 0), (1172, 0)] &&
      t.readLoc .winAmp = 32767) = true := by decide +kernel
/-- 95 2.3, the overflow: the fault with `OVF_MODE = FAULT`, the bounds with `SATURATE`. -/
theorem test_window_overflow : nextIs (exec .window loud) (fun t => statusWord t.status = 0x00000325) = true ∧
    nextIs (exec .window { loud with cfg := { Config.ref8 with ovfMode := .saturate } })
      (fun t => t.pairs.take 2 = [(32767, 0), (-32768, 0)] && statusWord t.status = 0) = true := by decide +kernel

/-- 95 2.4, `sp` with `THRESH = 0x526C`. -/
theorem test_peaks_threshold : nextIs (exec .peaks { spectrum with thresh := 0x526C })
    (fun t => t.peakCount = 3 && t.peakAt 0 = { freq := 0x000BFF91, mag := 6000, phase := 0 } &&
      t.peakAt 2 = { freq := 0x00087FEE, mag := 2000, phase := 0 }) = true := by decide +kernel
/-- 95 2.4, `sp` with `RIDGE_CAP = 2`. -/
theorem test_peaks_capacity : nextIs (exec .peaks { spectrum with cfg := { Config.ref32 with ridgeCap := 2 } })
    (fun t => statusWord t.status = 0x00000343) = true := by decide +kernel

/-- 95 2.6, SCHED as a whole. -/
theorem test_sched : nextIs (exec .sched threePeaks) (fun t => t.stageCount = 3 && t.stage.take 3 =
    [{ period := 6400, offset := 0 }, { period := 4267, offset := 1067 }, { period := 2612, offset := 1959 }]) =
      true := by decide +kernel
/-- 95 2.6, the bounds of `to_period`, `PERIOD_NUM = 2^40`: 1024 gives `PERIOD_MAX`, 512 faults or saturates. -/
theorem test_to_period :
    toPeriod { Config.ref32 with periodNum := 2 ^ 40 } 1024 = .ok 1073741824 ∧
    toPeriod { Config.ref32 with periodNum := 2 ^ 40 } 512 = .error .arith ∧
    toPeriod { Config.ref32 with periodNum := 2 ^ 40, ovfMode := .saturate } 512 = .ok 1073741824 ∧
    toPeriod { Config.ref32 with periodNum := 2 ^ 40 } 0xFFFFFFFF = .ok 256 := by decide +kernel

/-- 95 2.7, the first line, and the wrap of R196. -/
theorem test_adjust : nextIs (exec .adjust { nextOf (exec .sched threePeaks) with arg0 := 0xFFFFFFFF })
    (fun t => t.liveCount = 3 && t.liveAt 1 = { period := 4267, next := 0x0000042A } && t.stageCount = 3) =
      true := by decide +kernel

/-- 95 2.7, three pulses on one instant: the highest index sets `HOLDOFF`. -/
theorem test_consume_three :
    nextIs (exec .consume { tiePast.withLive [{ period := 1000, next := 0x500 }, { period := 700, next := 0x500 },
      { period := 900, next := 0x500 }] with arg0 := 0x500 })
    (fun t => t.res0 = 3 && t.holdoff = 0x6C2 && (t.live.map LiveEntry.next).take 3 = [0x8E8, 0x7BC, 0x884] &&
      statusWord t.status = 0x00001000) = true := by decide +kernel
/-- 95 2.7: an instant no pulse holds. -/
theorem test_consume_race : nextIs (exec .consume { tiePast with arg0 := 0x12345678 })
    (fun t => t.res0 = 0 && statusWord t.status = 0x00000100 && t.live = tiePast.live) = true := by decide +kernel

/-- 95 2.7, "misread holdoff". -/
theorem test_next_misread : nextIs (exec .next { (s32.withLive [{ period := 1000, next := 0x80000300 }]).withHoldoff
    0x100 with arg0 := 0x80000200 })
    (fun t => (t.liveAt 0).next = 0x00000460 && t.res0 = 0x00000460 && t.res1 = 0 && t.status.hv) = true := by
  decide +kernel
/-- 95 2.7, "past pulse, holdoff", and "tie and past". -/
theorem test_next_past : nextIs (exec .next heldPulse) (fun t => t.res0 = 1900 && t.res1 = 700 && t.status.hv) = true ∧
    nextIs (exec .next tiePast) (fun t => t.res0 = 0x500 && t.res1 = 0 && !t.status.noneBit) = true := by
  decide +kernel

/-- 95 2.8: across the wrap, and exactly half the range. -/
theorem test_cmp : nextIs (exec .cmp { s8 with arg0 := 0xFFFFFFF0, arg1 := 0x10 })
      (fun t => t.res0 = 0x20 && t.res1 = 1) = true ∧
    nextIs (exec .cmp { s8 with arg0 := 0, arg1 := 0x80000000 })
      (fun t => t.res0 = 0x80000000 && t.res1 = 0) = true := by decide +kernel
/-- 95 2.8: the largest future distance, and one tick in the past. -/
theorem test_cmp_edges : nextIs (exec .cmp { s8 with arg0 := 0, arg1 := 0x7FFFFFFF })
      (fun t => t.res0 = 0x7FFFFFFF && t.res1 = 1) = true ∧
    nextIs (exec .cmp { s8 with arg0 := 0x64, arg1 := 0x63 })
      (fun t => t.res0 = 0xFFFFFFFF && t.res1 = 0) = true := by decide +kernel

/-! ### Witnesses: concrete states and operands that meet the hypotheses of each obligation together -/

theorem nextHas_of_nextIs (o : Host.Outcome State Fault Refusal) (p : State → Bool) (h : nextIs o p = true) :
    NextHas o fun t => p t = true := by
  cases o with
  | next t => exact ⟨t, rfl, h⟩
  | fault f => cases h
  | refused r => cases h

/-- A host with one word to write to an offset. -/
def State.toWrite (s : State) (off : Nat) (w : Word) : State := s.toCome (.write 4 off w)

theorem witness_CommandWordsRoundTrip : Instr.fft.wellFormed = true ∧ Instr.cmp.wellFormed = true := by decide

theorem witness_IllegalWordReportsOnly :
    (s8.toWrite 0x010 3).hardReset = false ∧ (s8.toWrite 0x010 3).pending = cmdWrite 3 :: [] ∧
      decode 3 = .error .equalizer ∧ (s8.toWrite 0x010 3).status.fault = false ∧
      (stopped.toWrite 0x010 0x101).hardReset = false ∧ (stopped.toWrite 0x010 0x101).pending = cmdWrite 0x101 :: [] ∧
      decode 0x101 = .error .zeroField ∧ (stopped.toWrite 0x010 0x101).status.fault = true := by decide +kernel

theorem witness_StepRunsDecodedCommand :
    (s8.toWrite 0x010 1).hardReset = false ∧ (s8.toWrite 0x010 1).pending = cmdWrite 1 :: [] ∧ decode 1 = .ok .fft ∧
      Instr.fft.wellFormed = true := by decide

theorem witness_StoppedStateAnswersAbort : stopped.status.fault = true ∧
    resolve stopped.cfg 4 0x00C = .ok .status ∧ (1 : Word).getLsbD 0 = true := by decide +kernel

theorem witness_FaultIsStickyUntilReset : stopped.status.fault = true ∧
    NextHas (step (stopped.toWrite 0x010 1)) (fun t => t.status.fault = true) ∧
    NextHas (step (stopped.toWrite 0x008 1)) (fun t => t.status = Status.reset) ∧
    NextHas (step { stopped with pending := [.resetLine true] }) (fun t => t.status = Status.reset) := by
  refine ⟨by decide +kernel, ?_, ?_, ?_⟩ <;>
    refine (nextHas_of_nextIs _ (fun t => decide _) (by decide +kernel)).imp fun t h => ⟨h.1, of_decide_eq_true h.2⟩

/-- Each of the three commands, from a state that is not stopped. -/
theorem witness_OnlyThreeCommandsFault :
    loud.status.fault = false ∧ nextIs (step (loud.toWrite 0x010 2)) (fun t => t.status.fault) = true ∧
    nextIs (step (State.toWrite { spectrum with cfg := { Config.ref32 with ridgeCap := 2 } } 0x010 4))
      (fun t => t.status.fault && t.status.fcode = .capacity) = true ∧
    nextIs (step (State.toWrite { threePeaks with cfg := { Config.ref32 with periodNum := 2 ^ 63 } } 0x010 5))
      (fun t => t.status.fault && t.status.fop = 5) = true := by decide +kernel

theorem witness_AddressMapRoundTrip : Config.ref8.wellFormed = true := test_ref8_wellFormed

/-- The first and the last undefined offsets of the map's holes, and the offset past the register space. -/
theorem witness_RefusedAccessChangesNothing : s8.cfg.wellFormed = true ∧ s8.hardReset = false ∧
    nextIs (step (s8.toCome (.write 2 0x014 7))) (fun t => t.response = .refused .width && t.arg0 = 0) = true ∧
    nextIs (step (s8.toCome (.read 4 0x016))) (fun t => t.response = .refused .misaligned) = true ∧
    ([0x03C, 0x0FC, 0x120, 0x1FC, 0x220, 0x320, 0x3FC, 0x400, 0xFFFC, 0x10020, 0x1FFFC, 0x20000].all fun off =>
      nextIs (step (s8.toCome (.read 4 off))) (fun t => t.response = .refused .undefinedOffset)) = true := by
  decide +kernel

/-- The locations at the ends of the map's regions. -/
theorem witness_ReadsHaveNoSideEffect : s8.cfg.wellFormed = true ∧
    ([Loc.id, .winAmp, .peakFreq 0, .peakPhaseMag 3, .stageOffset 3, .liveNext 3, .buf 0, .buf 7].all fun l =>
      l.exists? s8.cfg && (s8.toCome (.read 4 (offsetOf l))).pending = [.access (.read 4 (offsetOf l))] &&
        !(s8.toCome (.read 4 (offsetOf l))).hardReset) = true := by decide +kernel

theorem witness_ReadOnlyWritesAreIgnored : s8.cfg.wellFormed = true ∧ (s8.toWrite 0x01C 5).hardReset = false ∧
    (s8.toWrite 0x01C 5).pending = .access (.write 4 (offsetOf .res0) 5) :: [] ∧
    Loc.exists? s8.cfg .res0 = true ∧ Loc.res0 ∉ [Loc.ctrl, Loc.cmd, Loc.arg0, Loc.arg1, Loc.thresh] ∧
    (s8.toWrite 0x024 0x18000).pending = .access (.write 4 0x024 0x18000) :: [] ∧
    (s8.toCome (.read 4 0x010)).hardReset = false ∧
    (s8.toCome (.read 4 0x010)).pending = .access (.read 4 0x010) :: [] := by decide +kernel

theorem witness_OperandRegistersAreTheHosts :
    nextIs (step (s8.toWrite 0x014 0xFFFFFFFF)) (fun t => t.arg0 = 0xFFFFFFFF) = true ∧
    nextIs (step (s8.toWrite 0x018 1)) (fun t => t.arg1 = 1) = true ∧
    nextIs (step (s8.toWrite 0x024 0x1FFFF)) (fun t => t.thresh = 0xFFFF && t.readLoc .thresh = 0xFFFF) = true ∧
    (s8.toWrite 0x024 0x1FFFF).hardReset = false ∧
    (s8.toWrite 0x024 0x1FFFF).pending = .access (.write 4 0x024 0x1FFFF) :: [] := by decide +kernel

theorem witness_BufWriteReadsBack : s8.cfg.wellFormed = true ∧ 7 < s8.cfg.nfft := by decide +kernel

theorem witness_RegisterWordLayouts : { Config.ref8 with ncNum := 5, ncDen := 4 }.wellFormed = true ∧
    cfgWord { Config.ref8 with ncNum := 5, ncDen := 4 } = 0x00240403 ∧
    3 < threePeaks.peak.length ∧ 3 < threePeaks.stage.length ∧ 3 < threePeaks.live.length := by decide +kernel

theorem witness_WinAmpIsAverage : s8.cfg.wellFormed = true ∧ s8.cfg.windowKind = .rect ∧
    { Config.ref8 with windowKind := .hann }.wellFormed = true := by decide +kernel

theorem witness_BothResetsClearTheBlock : (stopped.toWrite 0x008 1).hardReset = false ∧
    (stopped.toWrite 0x008 1).pending = .access (.write 4 0x008 1) :: [] ∧ (1 : Word).getLsbD 0 = true ∧
    (0xFFFFFFFE : Word).getLsbD 0 = false ∧
    ({ stopped with pending := [.resetLine true] } : State).pending = .resetLine true :: [] := by decide +kernel

/-- The host's access of a block held in reset. -/
def underReset : State := { s8.toCome (.write 4 0x014 7) with hardReset := true }

theorem witness_EveryStepAnswers : s8.pending = [] ∧ underReset.hardReset = true ∧
    underReset.pending = .access (.write 4 0x014 7) :: [] ∧ nextIs (step underReset) (fun t => t.arg0 = 0) = true ∧
    nextIs (step { threePeaks with hardReset := true, pending := [.resetLine false] })
      (fun t => t = threePeaks) = true ∧
    nextIs (step { threePeaks with pending := [.resetLine true] }) (fun t => t.hardReset) = true := by
  decide +kernel

/-- A state with a template, a live table, a valid holdoff and a listed buffer has the invariant, and so has the stopped
state. -/
theorem witness_StepKeepsInvariant_states : threePeaks.Inv ∧ spectrum.Inv ∧ stopped.Inv :=
  ⟨by decide +kernel, by decide +kernel, by decide +kernel⟩

theorem witness_StepKeepsInvariant : (heldPulse.toWrite 0x010 8).Inv ∧
    nextIs (step (heldPulse.toWrite 0x010 8)) (fun t => t.Inv) = true := by decide +kernel

theorem witness_ConfigurationNeverChanges :
    nextIs (step (s8.toWrite 0x010 9)) (fun t => t.cfg = Config.ref8) = true := by decide +kernel

/-- R101, R104, R112 at the ends of the ranges; R106 at the largest argument. -/
theorem witness_primitives : (-32768 : Int) ≤ -32768 ∧ (32767 : Int) ≤ 32767 ∧ 2 ^ 32 - 1 ≤ 2 ^ 32 - 1 ∧
    isqrt (2 ^ 32 - 1) = 65535 ∧ (phaseOf .reference 0 0xFFFF).toNat = 0xC000 ∧ phaseOf .reference 0 0 = 0 ∧ qmul (-32767) (-32768) = 32767 ∧ sfApply 0xFFFF 32768 = 32768 ∧
    narrow .fault 32768 (-32768) 32767 = .error .arith ∧ narrow .saturate (-32784) (-32768) 32767 = .ok (-32768) := by
  decide +kernel

theorem witness_FftTransformsBuf : s8.status.fault = false ∧ 3 ≤ s8.cfg.nlog2 ∧ 7 < s8.cfg.nfft ∧ 2 < s8.cfg.nlog2 := by
  decide +kernel

theorem witness_BitReversalSwapsPairs : 5 < 2 ^ 3 ∧ 2 < 3 ∧ spectrum.loadBuf.length = spectrum.cfg.nfft := by
  decide +kernel

theorem witness_TwiddlesStayInTheTable : Config.ref8.wellFormed = true ∧ 2 < Config.ref8.nlog2 ∧ 3 < 2 ^ 2 := by
  decide +kernel

theorem witness_StageComputesItsButterflies : loud.loadBuf.length = loud.cfg.nfft ∧ 2 < loud.cfg.nlog2 ∧ 3 < 2 ^ 2 ∧
    0 < loud.cfg.nfft / 2 ^ (2 + 1) := by decide +kernel

theorem witness_FftOfZeroIsZero : (s8.withReals (List.replicate 8 0)).status.fault = false ∧
    ∀ i, i < (s8.withReals (List.replicate 8 0)).cfg.nfft →
      (s8.withReals (List.replicate 8 0)).bin i = { re := 0, im := 0 } := by decide +kernel

/-- The largest samples that fit in either direction, and any samples with `SATURATE`. -/
theorem witness_WindowScalesEverySample : edge.status.fault = false ∧
    (∀ i, i < edge.cfg.nfft → -32768 ≤ (edge.bin i).re.toInt * 2 ^ edge.cfg.preshift ∧
      (edge.bin i).re.toInt * 2 ^ edge.cfg.preshift ≤ 32767) ∧
    { loud with cfg := { Config.ref8 with ovfMode := .saturate } }.cfg.ovfMode = .saturate ∧
    edge.cfg.wellFormed = true ∧ 7 < edge.cfg.nfft := by decide +kernel

theorem witness_WindowOverflowFaults : loud.status.fault = false ∧ loud.cfg.ovfMode = .fault ∧ 0 < loud.cfg.nfft ∧
    32767 < (loud.bin 0).re.toInt * 2 ^ loud.cfg.preshift ∧
    (loud.bin 1).re.toInt * 2 ^ loud.cfg.preshift < -32768 := by decide +kernel

theorem witness_PeaksStoresWhatItFinds : spectrum.status.fault = false ∧ spectrum.cfg.wellFormed = true ∧
    spectrum.TablesSized ∧ (findPeaks spectrum.cfg spectrum.thresh spectrum.loadBuf).toOption.isSome = true := by
  decide +kernel

theorem witness_PeaksCompletesByDefault : spectrum.cfg.defaultRidgeCap ≤ spectrum.cfg.ridgeCap ∧
    spectrum.cfg.ncNum.toNat ≤ spectrum.cfg.ncDen.toNat := by decide +kernel

theorem witness_TooManyRidgesFault :
    { Config.ref32 with ridgeCap := 4 }.wellFormed = true ∧
    ridges { Config.ref32 with ridgeCap := Config.ref32.defaultRidgeCap } (squaredMags Config.ref32 spectrum.loadBuf) =
      .ok [1, 4, 8, 12, 15] ∧ 4 < [1, 4, 8, 12, 15].length := by decide +kernel

/-- The default capacity; five maxima with five places (the spectrum's, and the last place used) and with four. -/
theorem witness_RidgesAreTheLocalMaxima : Config.ref32.wellFormed = true ∧
    Config.ref32.defaultRidgeCap ≤ Config.ref32.ridgeCap ∧ { Config.ref32 with ridgeCap := 5 }.wellFormed = true ∧
    ridges { Config.ref32 with ridgeCap := 5 } (squaredMags Config.ref32 spectrum.loadBuf) = .ok [1, 4, 8, 12, 15] ∧
    { Config.ref32 with ridgeCap := 4 }.wellFormed = true ∧
    ridges { Config.ref32 with ridgeCap := 4 } (squaredMags Config.ref32 spectrum.loadBuf) = .error .capacity := by
  decide +kernel

theorem witness_RidgeListProperties : Config.ref8.wellFormed = true ∧
    ridges Config.ref8 [0, 1, 0, 1] = .ok [1, 3] := by decide +kernel

/-- Two peaks of the spectrum's ridges; and the full list of two places, with an acceptable ridge, bin 8, left out. -/
theorem witness_StoredPeaksAreOrderedAndCulled : Config.ref32.wellFormed = true ∧
    ((findPeaks Config.ref32 0x8000 spectrum.loadBuf).toOption.map List.length) = some 2 ∧
    { Config.ref32 with maxPeaks := 2 }.wellFormed = true ∧
    ((findPeaks { Config.ref32 with maxPeaks := 2 } 0 spectrum.loadBuf).toOption.map fun ps =>
      ps.map fun e => e.mag.toNat) = some [6000, 4000] ∧
    ridges Config.ref32 (squaredMags Config.ref32 spectrum.loadBuf) = .ok [1, 4, 8, 12, 15] ∧
    Config.ref32.minBin < 8 ∧ isqrt (sqAt (squaredMags Config.ref32 spectrum.loadBuf) 8) = 2000 ∧
    refine Config.ref32 (squaredMags Config.ref32 spectrum.loadBuf) 8 = .ok (some 0x00087FEE) := by decide +kernel

theorem witness_AllBelowFloorYieldsNoPeak : (s32.withReals (List.replicate 32 99)).status.fault = false ∧
    s32.cfg.defaultRidgeCap ≤ s32.cfg.ridgeCap ∧
    ∀ i, i < (s32.withReals (List.replicate 32 99)).cfg.nbins →
      sqmag ((s32.withReals (List.replicate 32 99)).bin i).re.toInt
        ((s32.withReals (List.replicate 32 99)).bin i).im.toInt < s32.cfg.noiseFloor.toNat * s32.cfg.noiseFloor.toNat :=
  by decide +kernel

/-- A spectrum with one bin, 5, exactly at the noise floor (95 2.4, "at the floor"). -/
def oneBin : State := s32.withReals ([0, 0, 0, 0, 0, 100] ++ List.replicate 26 0)

theorem witness_OneBinYieldsOnePeak : oneBin.status.fault = false ∧ oneBin.cfg.wellFormed = true ∧ oneBin.TablesSized ∧
    oneBin.cfg.defaultRidgeCap ≤ oneBin.cfg.ridgeCap ∧ oneBin.cfg.ncNum = 1 ∧ oneBin.cfg.ncDen = 1 ∧
    1 ≤ oneBin.cfg.noiseFloor.toNat ∧ oneBin.cfg.minBin < 5 ∧ 5 + 1 < oneBin.cfg.nbins ∧
    5 * oneBin.cfg.freqPerBin.toNat ≤ oneBin.cfg.maxFreq.toNat ∧
    (∀ i, i < oneBin.cfg.nbins → i ≠ 5 → oneBin.bin i = { re := 0, im := 0 }) ∧
    oneBin.cfg.noiseFloor.toNat * oneBin.cfg.noiseFloor.toNat ≤
      sqmag (oneBin.bin 5).re.toInt (oneBin.bin 5).im.toInt := by decide +kernel

/-- The same spectrum with a multiplier that takes its frequency past `2^32 - 1`. -/
def oneBinHigh : State := { oneBin with cfg := { Config.ref32 with ncNum := 65535 } }

theorem witness_PeaksFrequencyFaults : oneBinHigh.status.fault = false ∧ oneBinHigh.cfg.wellFormed = true ∧
    oneBinHigh.cfg.ovfMode = .fault ∧ oneBinHigh.cfg.defaultRidgeCap ≤ oneBinHigh.cfg.ridgeCap ∧
    1 ≤ oneBinHigh.cfg.noiseFloor.toNat ∧ oneBinHigh.cfg.minBin < 5 ∧ 5 + 1 < oneBinHigh.cfg.nbins ∧
    2 ^ 32 - 1 < (5 * oneBinHigh.cfg.freqPerBin.toNat * oneBinHigh.cfg.ncNum.toNat +
      oneBinHigh.cfg.ncDen.toNat / 2) / oneBinHigh.cfg.ncDen.toNat ∧
    (∀ i, i < oneBinHigh.cfg.nbins → i ≠ 5 → oneBinHigh.bin i = { re := 0, im := 0 }) ∧
    oneBinHigh.cfg.noiseFloor.toNat * oneBinHigh.cfg.noiseFloor.toNat ≤
      sqmag (oneBinHigh.bin 5).re.toInt (oneBinHigh.bin 5).im.toInt ∧
    nextIs (exec .peaks oneBinHigh) (fun t => statusWord t.status = 0x00000345) = true := by decide +kernel

/-- A spectrum of five ridges with that multiplier and a threshold that the ridge of bin 8 meets exactly. -/
def spectrumHigh : State := { spectrum with cfg := { Config.ref32 with ncNum := 65535 }, thresh := 0x526C }

theorem witness_PeaksFrequencyFaults_reached : spectrumHigh.status.fault = false ∧ spectrumHigh.cfg.wellFormed = true ∧
    spectrumHigh.cfg.ovfMode = .fault ∧
    ridges spectrumHigh.cfg (squaredMags spectrumHigh.cfg spectrumHigh.loadBuf) = .ok [1, 4, 8, 12, 15] ∧
    (
      let sq := squaredMags spectrumHigh.cfg spectrumHigh.loadBuf
      spectrumHigh.cfg.minBin < 8 ∧ 100 * 100 ≤ sqAt sq 8 ∧
      (∀ x ∈ [1, 4, 8, 12, 15], spectrumHigh.cfg.minBin < x →
        (100 : Int) + sfApply 0x526C ((isqrt (sqAt sq x) : Int) - 100) ≤ isqrt (sqAt sq 8)) ∧
      (100 : Int) + sfApply 0x526C ((isqrt (sqAt sq 12) : Int) - 100) = isqrt (sqAt sq 8) ∧
      ([1, 4, 8, 12, 15].filter fun x => decide (x ≠ 8 ∧ spectrumHigh.cfg.minBin < x ∧ sqAt sq 8 ≤ sqAt sq x)) =
        [4, 12] ∧
      2 ^ 32 - 1 < (adjustedFreq spectrumHigh.cfg sq 8 * spectrumHigh.cfg.ncNum.toNat +
        spectrumHigh.cfg.ncDen.toNat / 2) / spectrumHigh.cfg.ncDen.toNat) ∧
    nextIs (exec .peaks spectrumHigh) (fun t => statusWord t.status = 0x00000345) = true := by decide +kernel

/-- The right neighbour larger, the left one larger, both equal, and the last bin. -/
theorem witness_RefinementWithinHalfABin : Config.ref32.wellFormed = true ∧
    (
      let sq := squaredMags Config.ref32 spectrum.loadBuf
      isqrt (sqAt sq 3) < isqrt (sqAt sq 5) ∧ isqrt (sqAt sq 13) < isqrt (sqAt sq 11) ∧
      isqrt (sqAt sq 14) < isqrt (sqAt sq 15)) ∧
    sqAt (squaredMags Config.ref32 oneBin.loadBuf) 4 = sqAt (squaredMags Config.ref32 oneBin.loadBuf) 6 ∧
    15 < Config.ref32.nbins := by decide +kernel

/-- R175 and R176 for bin 8 of the spectrum, refined 0x00087FEE: accepted at `MAX_FREQ`, rejected one above it, rounded to
zero by the multiplier, out of range in either `OVF_MODE`. -/
theorem witness_RefinementWithinHalfABin_outcomes :
    (let sq := squaredMags Config.ref32 spectrum.loadBuf
     [refine { Config.ref32 with maxFreq := 0x00087FEE } sq 8, refine { Config.ref32 with maxFreq := 0x00087FED } sq 8,
      refine { Config.ref32 with freqPerBin := 1, ncDen := 65535 } sq 8,
      refine { Config.ref32 with ncNum := 65535, ovfMode := .saturate, maxFreq := 0xFFFFFFFF } sq 8,
      refine { Config.ref32 with ncNum := 65535, ovfMode := .saturate } sq 8,
      refine { Config.ref32 with ncNum := 65535 } sq 8]) =
    [.ok (some 0x00087FEE), .ok none, .ok none, .ok (some 0xFFFFFFFF), .ok none, .error .arith] := by decide +kernel

theorem witness_SchedBuildsTheTemplate : threePeaks.status.fault = false ∧ threePeaks.cfg.wellFormed = true ∧
    threePeaks.TablesSized ∧ threePeaks.PeaksValid ∧ ∀ k, k < threePeaks.peakCount.toNat →
      1 ≤ (threePeaks.cfg.periodNum.toNat + (threePeaks.peakAt k).freq.toNat / 2) / (threePeaks.peakAt k).freq.toNat ∧
      (threePeaks.cfg.periodNum.toNat + (threePeaks.peakAt k).freq.toNat / 2) / (threePeaks.peakAt k).freq.toNat ≤
        threePeaks.cfg.periodMax := by decide +kernel

/-- A period of 0 (the sum is below the frequency) and one above `PERIOD_MAX`. -/
theorem witness_SchedPeriodFaults : threePeaks.status.fault = false ∧ threePeaks.cfg.ovfMode = .fault ∧
    threePeaks.TablesSized ∧ threePeaks.PeaksValid ∧ 0 < threePeaks.peakCount.toNat ∧
    (1 + (threePeaks.peakAt 0).freq.toNat / 2) / (threePeaks.peakAt 0).freq.toNat = 0 ∧
    Config.ref32.periodMax < (2 ^ 63 + (threePeaks.peakAt 0).freq.toNat / 2) / (threePeaks.peakAt 0).freq.toNat := by
  decide +kernel

theorem witness_AdjustAnchorsTheTemplate : (nextOf (exec .sched threePeaks)).status.fault = false ∧
    (nextOf (exec .sched threePeaks)).TablesSized ∧ (nextOf (exec .sched threePeaks)).stageCount = 3 := by
  decide +kernel

theorem witness_ConsumeAdvancesTheMatches : tiePast.status.fault = false ∧ tiePast.TablesSized ∧
    tiePast.liveCount.toNat ≤ tiePast.cfg.maxPeaks ∧ 1 < tiePast.liveCount.toNat ∧
    (tiePast.liveAt 1).next = tiePast.arg0 ∧
    ∀ k, k < tiePast.liveCount.toNat → 1 < k → (tiePast.liveAt k).next ≠ tiePast.arg0 := by decide +kernel

theorem witness_ConsumeWithoutMatchIsARace : s32.status.fault = false ∧
    (∀ e ∈ s32.live.take s32.liveCount.toNat, e.next ≠ s32.arg0) ∧
    ∀ e ∈ heldPulse.live.take heldPulse.liveCount.toNat, e.next ≠ heldPulse.arg0 := by decide +kernel

theorem witness_ConsumeTwiceIsARace : tiePast.Inv ∧ tiePast.status.fault = false ∧
    nextIs (exec .consume tiePast) (fun t => t.status.err = .ok) = true := by decide +kernel

theorem witness_NextOfEmptyTable : s32.status.fault = false ∧ s32.liveCount = 0 := ⟨rfl, rfl⟩

/-- `heldPulse` one tick after its holdoff. -/
def expired : State := { heldPulse with arg0 := 1501 }

/-- With a holdoff that moves a past pulse, with one that is past, with none. -/
theorem witness_NextReturnsTheSoonest : heldPulse.Inv ∧ heldPulse.status.fault = false ∧ 0 < heldPulse.liveCount.toNat ∧
    expired.Inv ∧ isFuture expired.arg0 expired.holdoff = false ∧
    tiePast.Inv ∧ tiePast.status.hv = false ∧ 0 < tiePast.liveCount.toNat :=
  ⟨by decide +kernel, rfl, by decide, by decide +kernel, by decide, by decide +kernel, rfl, by decide⟩

/-- The bound met exactly. -/
theorem witness_ClosedFormIsRepeatedAdvance : 1 ≤ (1000 : Duration).toNat ∧
    (2 ^ 31 - 1000) + (1000 : Duration).toNat ≤ 2 ^ 31 := by decide

theorem witness_NextRespectsTheHoldoff : heldPulse.Inv ∧ heldPulse.status.fault = false ∧
    0 < heldPulse.liveCount.toNat ∧ heldPulse.status.hv = true ∧ isFuture heldPulse.arg0 heldPulse.holdoff = true ∧
    (∀ e ∈ heldPulse.live.take heldPulse.liveCount.toNat,
      effOffset heldPulse.arg0 heldPulse.holdoff + e.period.toNat ≤ 2 ^ 31) ∧
    0 < effOffset heldPulse.arg0 heldPulse.holdoff ∧
    nextIs (exec .next heldPulse) (fun t => t.res0 = heldPulse.arg0 + t.res1) = true := by decide +kernel

/-- `heldPulse` at the very instant of its holdoff: the past pulse is returned as it stands. -/
def atHoldoff : State := { heldPulse with arg0 := 1500 }

theorem witness_NextRespectsTheHoldoff_present : atHoldoff.Inv ∧ isFuture atHoldoff.arg0 atHoldoff.holdoff = true ∧
    effOffset atHoldoff.arg0 atHoldoff.holdoff = 0 ∧
    nextIs (exec .next atHoldoff) (fun t => t.res0 = 900 && t.res1 = 0 && t.status.hv) = true := by decide +kernel

theorem witness_NextIsRepeatable : heldPulse.Inv ∧ heldPulse.status.fault = false ∧
    (∀ e ∈ heldPulse.live.take heldPulse.liveCount.toNat,
      (if heldPulse.status.hv then effOffset heldPulse.arg0 heldPulse.holdoff else 0) + e.period.toNat ≤ 2 ^ 31) ∧
    nextIs (exec .next heldPulse) (fun t => nextIs (exec .next t) (fun u => u = t)) = true := by decide +kernel

theorem witness_LonePulseFiresEveryPeriod : lonePulse.Inv ∧ lonePulse.status.fault = false ∧ lonePulse.liveCount = 1 ∧
    (lonePulse.liveAt 0).next = lonePulse.arg0 ∧
    nextIs (exec .consume lonePulse) (fun t => t.status.err = .ok) = true ∧
    ((tdiff lonePulse.arg0 1500).toNat : Int) ≤
      sfApply lonePulse.cfg.holdoffRatio (lonePulse.liveAt 0).period.toNat := by decide +kernel

theorem witness_CmpWritesTheDifference : s8.status.fault = false := rfl

theorem witness_ProcessAndFireShareNothing : nextIs (exec .window edge) (fun _ => true) = true ∧
    nextIs (exec .next heldPulse) (fun _ => true) = true := by decide +kernel

end Sys2Proof.Machine
end

section
/-! SUPPORT. What one step can do, as the next state: the inversion of a step and of a host write, and the operands and
the configuration that no command touches. -/

namespace Sys2Proof.Machine

/-! ### The address decoder (spec/20_memory.md R61, R63, R64) -/

theorem registerAt_some (c : Config) (n : Nat) (l : Loc) (h : registerAt n = some l) :
    offsetOf l = 4 * n ∧ l.exists? c = true := by
  unfold registerAt at h
  split at h <;> cases h <;> exact ⟨rfl, rfl⟩

/-- A table region at `base`: the location found at a word-aligned offset is the entry's word at that offset. -/
theorem entryAt_some (c : Config) (base off : Nat) (first second : Nat → Loc) (l : Loc)
    (hfirst : ∀ k, offsetOf (first k) = base + 8 * k ∧ (first k).exists? c = decide (k < c.maxPeaks))
    (hsecond : ∀ k, offsetOf (second k) = base + 4 + 8 * k ∧ (second k).exists? c = decide (k < c.maxPeaks))
    (hbase : base ≤ off ∧ (off - base) % 4 = 0) (h : entryAt c (off - base) first second = some l) :
    off = offsetOf l ∧ l.exists? c = true := by
  unfold entryAt at h
  split at h
  · rename_i hk
    split at h <;> cases h
    · obtain ⟨ho, he⟩ := hfirst ((off - base) / 8)
      exact ⟨by omega, he.trans (decide_eq_true hk)⟩
    · obtain ⟨ho, he⟩ := hsecond ((off - base) / 8)
      exact ⟨by omega, he.trans (decide_eq_true hk)⟩
  · cases h

/-- The location found at a word-aligned offset is the one of the map at that offset, and the configuration has it. -/
theorem locAt_some (c : Config) (off : Nat) (l : Loc) (ha : off % 4 = 0) (h : locAt c off = some l) :
    off = offsetOf l ∧ l.exists? c = true := by
  unfold locAt at h
  split at h
  · obtain ⟨ho, he⟩ := registerAt_some c _ l h
    exact ⟨by omega, he⟩
  split at h
  · exact entryAt_some c 0x100 off _ _ l (fun _ => ⟨rfl, rfl⟩) (fun _ => ⟨rfl, rfl⟩) (by omega) h
  split at h
  · exact entryAt_some c 0x200 off _ _ l (fun _ => ⟨rfl, rfl⟩) (fun _ => ⟨rfl, rfl⟩) (by omega) h
  split at h
  · exact entryAt_some c 0x300 off _ _ l (fun _ => ⟨rfl, rfl⟩) (fun _ => ⟨rfl, rfl⟩) (by omega) h
  split at h
  · cases h
  split at h
  · cases h
    exact ⟨by simp only [offsetOf, bufOffset]; omega, decide_eq_true ‹_›⟩
  · cases h

/-- An access that is not refused is four bytes wide, at the offset of a location the configuration has. -/
theorem resolve_ok (c : Config) (width off : Nat) (l : Loc) (h : resolve c width off = .ok l) :
    width = 4 ∧ off = offsetOf l ∧ l.exists? c = true := by
  unfold resolve at h
  split at h
  · cases h
  split at h
  · cases h
  split at h
  · rename_i l' hl
    cases h
    exact ⟨by omega, locAt_some c off l (by omega) hl⟩
  · cases h

/-! ### One step, as its next state -/

/-- The next state of a step: the same state, a new level of the reset line, an answer on the bus and nothing else, or
the effect of a write to a location the configuration has. -/
theorem step_next_cases {s t : State} (h : step s = .next t) :
    t = s ∨
    (∃ b rest, s.pending = .resetLine b :: rest ∧ t = (s.withPending rest).setHardReset b) ∨
    (∃ rest r, t = (s.withPending rest).answer r) ∨
    (∃ l w rest, s.pending = .access (.write 4 (offsetOf l) w) :: rest ∧ l.exists? s.cfg = true ∧
      writeLoc ((s.withPending rest).answer .written) l w = .next t) := by
  obtain ⟨-, hs⟩ | ⟨b, rest, hp, hs⟩ | ⟨a, rest, hp, -, hs⟩ | ⟨a, rest, hp, -, hs⟩ := step_cases s
  · cases hs.symm.trans h
    exact .inl rfl
  · cases hs.symm.trans h
    exact .inr (.inl ⟨b, rest, hp, rfl⟩)
  · cases hs.symm.trans h
    exact .inr (.inr (.inl ⟨rest, _, rfl⟩))
  · obtain ⟨e, ha⟩ | ⟨width, off, l, -, -, ha⟩ | ⟨width, off, w, l, rfl, hl, ha⟩ := access_cases (s.withPending rest) a
    · cases (hs.trans ha).symm.trans h
      exact .inr (.inr (.inl ⟨rest, _, rfl⟩))
    · cases (hs.trans ha).symm.trans h
      exact .inr (.inr (.inl ⟨rest, _, rfl⟩))
    · obtain ⟨rfl, rfl, he⟩ := resolve_ok _ _ _ _ hl
      exact .inr (.inr (.inr ⟨l, w, rest, hp, he, (hs.trans ha).symm.trans h⟩))

/-- The next state of a host write: a reset, a command, an illegal word, an operand or a buffer word stored, or the same
state (R65). -/
theorem writeLoc_next_cases {s t : State} {l : Loc} {w : Word} (h : writeLoc s l w = .next t) :
    (l = .ctrl ∧ t = s.writeCtrl w) ∨
    (l = .cmd ∧ ∃ i, t = s.command (bodyOf i)) ∨
    (l = .cmd ∧ t = s.illegalCommand) ∨
    (l = .arg0 ∧ t = { s with arg0 := w }) ∨
    (l = .arg1 ∧ t = { s with arg1 := w }) ∨
    (l = .thresh ∧ t = { s with thresh := w.setWidth 16 }) ∨
    (∃ i, l = .buf i ∧ t = s.setBufWord i w) ∨
    t = s := by
  obtain ⟨rfl, hw⟩ | ⟨rfl, hw⟩ | ⟨rfl, hw⟩ | ⟨rfl, hw⟩ | ⟨rfl, hw⟩ | ⟨i, rfl, hw⟩ | hw := writeLoc_cases s l w
  · cases hw.symm.trans h
    exact .inl ⟨rfl, rfl⟩
  · rw [hw, commandWrite_eq] at h
    cases h
    cases decode w with
    | ok i => exact .inr (.inl ⟨rfl, i, rfl⟩)
    | error e => exact .inr (.inr (.inl ⟨rfl, rfl⟩))
  · cases hw.symm.trans h
    exact .inr (.inr (.inr (.inl ⟨rfl, rfl⟩)))
  · cases hw.symm.trans h
    exact .inr (.inr (.inr (.inr (.inl ⟨rfl, rfl⟩))))
  · cases hw.symm.trans h
    exact .inr (.inr (.inr (.inr (.inr (.inl ⟨rfl, by rw [BitVec.setWidth_eq_extractLsb' (by decide)]⟩)))))
  · cases hw.symm.trans h
    exact .inr (.inr (.inr (.inr (.inr (.inr (.inl ⟨i, rfl, rfl⟩))))))
  · cases hw.symm.trans h
    exact .inr (.inr (.inr (.inr (.inr (.inr (.inr rfl))))))

/-- A step that takes a four-byte write outside the hard reset is the write to the location at its offset. -/
theorem step_write {s : State} {off : Nat} {w : Word} {rest : List HostInput} {l : Loc} (hr : s.hardReset = false)
    (hp : s.pending = .access (.write 4 off w) :: rest) (hl : resolve s.cfg 4 off = .ok l) :
    step s = writeLoc ((s.withPending rest).answer .written) l w := by
  simp [step, stepInput, hp, takeInput, hr, access, hl]

/-! ### What commands and resets leave alone -/

/-- No command touches the configuration or an operand register (spec/10_state.md R38, R26, R28). -/
theorem bodyOf_keeps_operands (i : Instr) (s : State) :
    (bodyOf i s).cfg = s.cfg ∧ (bodyOf i s).arg0 = s.arg0 ∧ (bodyOf i s).arg1 = s.arg1 ∧
      (bodyOf i s).thresh = s.thresh := by
  have hfault : ∀ j code, (s.faultEntry j code).cfg = s.cfg ∧ (s.faultEntry j code).arg0 = s.arg0 ∧
      (s.faultEntry j code).arg1 = s.arg1 ∧ (s.faultEntry j code).thresh = s.thresh := by
    intro j code
    obtain ⟨hc, h0, h1, -, -, ht, -⟩ := s.faultEntry_keeps j code
    exact ⟨hc, h0, h1, ht⟩
  cases i with
  | fft => exact ⟨rfl, rfl, rfl, rfl⟩
  | adjust => exact ⟨rfl, rfl, rfl, rfl⟩
  | cmp => exact ⟨rfl, rfl, rfl, rfl⟩
  | window =>
    simp only [bodyOf, windowBody]
    split
    · exact ⟨rfl, rfl, rfl, rfl⟩
    · exact hfault _ _
  | peaks =>
    simp only [bodyOf, peaksBody]
    split
    · exact ⟨rfl, rfl, rfl, rfl⟩
    · exact hfault _ _
  | sched =>
    simp only [bodyOf, schedBody]
    split
    · exact ⟨rfl, rfl, rfl, rfl⟩
    · exact hfault _ _
  | consume =>
    simp only [bodyOf, consumeBody]
    split <;> exact ⟨rfl, rfl, rfl, rfl⟩
  | next =>
    simp only [bodyOf, nextBody]
    split <;> exact ⟨rfl, rfl, rfl, rfl⟩

/-- The same for the whole write of a command word, in the stopped state too. -/
theorem State.command_keeps_operands (s : State) (i : Instr) :
    (s.command (bodyOf i)).cfg = s.cfg ∧ (s.command (bodyOf i)).arg0 = s.arg0 ∧
      (s.command (bodyOf i)).arg1 = s.arg1 ∧ (s.command (bodyOf i)).thresh = s.thresh := by
  cases hf : s.status.fault with
  | true =>
    rw [State.command_stopped _ _ hf]
    exact ⟨rfl, rfl, rfl, rfl⟩
  | false =>
    rw [State.command_running _ _ hf]
    exact bodyOf_keeps_operands i (s.setErr .ok)

/-- The write of an illegal word sets `ERR` and nothing else (spec/30_encoding.md R83, R84). -/
theorem State.illegalCommand_eq_setErr (s : State) : ∃ e, s.illegalCommand = s.setErr e := by
  unfold State.illegalCommand
  split <;> exact ⟨_, rfl⟩

/-- A write to `CTRL` is the soft reset, or does nothing (spec/10_state.md R23). -/
theorem State.writeCtrl_cases (s : State) (w : Word) :
    (w.getLsbD 0 = true ∧ s.writeCtrl w = s.resetBlock) ∨ (w.getLsbD 0 = false ∧ s.writeCtrl w = s) := by
  cases hw : w.getLsbD 0 with
  | true => exact .inl ⟨rfl, by simp only [State.writeCtrl, hw, if_true]⟩
  | false => exact .inr ⟨rfl, by simp only [State.writeCtrl, hw, Bool.false_eq_true, if_false]⟩

@[simp] theorem State.writeCtrl_cfg (s : State) (w : Word) : (s.writeCtrl w).cfg = s.cfg := by
  obtain ⟨-, h⟩ | ⟨-, h⟩ := s.writeCtrl_cases w
  · rw [h, State.resetBlock_cfg]
  · rw [h]

@[simp] theorem State.setHardReset_cfg (s : State) (b : Bool) : (s.setHardReset b).cfg = s.cfg := by
  cases b <;> rfl

end Sys2Proof.Machine
end

section
/-! Family 10_state.md: the configuration, the sticky fault and the operand registers under one step. -/

namespace Sys2Proof.Machine

theorem writeLoc_keeps_cfg {s t : State} {l : Loc} {w : Word} (h : writeLoc s l w = .next t) : t.cfg = s.cfg := by
  obtain ⟨-, rfl⟩ | ⟨-, i, rfl⟩ | ⟨-, rfl⟩ | ⟨-, rfl⟩ | ⟨-, rfl⟩ | ⟨-, rfl⟩ | ⟨i, -, rfl⟩ | rfl := writeLoc_next_cases h
  · exact s.writeCtrl_cfg w
  · exact (s.command_keeps_operands i).1
  · obtain ⟨e, he⟩ := s.illegalCommand_eq_setErr
    rw [he, State.setErr_cfg]
  all_goals rfl

/-- Settles O23: each of the few next states a step has carries the configuration it started with. -/
theorem configurationNeverChanges : Obligations.ConfigurationNeverChanges := by
  intro s t h
  obtain rfl | ⟨b, rest, -, rfl⟩ | ⟨rest, r, rfl⟩ | ⟨l, w, rest, -, -, hw⟩ := step_next_cases h
  · rfl
  · exact State.setHardReset_cfg _ b
  · rfl
  · exact writeLoc_keeps_cfg (s := (s.withPending rest).answer .written) hw

/-- In the stopped state every write but the soft reset leaves the cause of the fault in place (R24, R235, R236). -/
theorem writeLoc_stopped {s t : State} {l : Loc} {w : Word} (hf : s.status.fault = true)
    (h : writeLoc s l w = .next t) :
    (t.status.fault = true ∧ t.status.fcode = s.status.fcode ∧ t.status.fop = s.status.fop) ∨
    (t.status = Status.reset ∧ l = .ctrl ∧ w.getLsbD 0 = true) := by
  obtain ⟨rfl, rfl⟩ | ⟨-, i, rfl⟩ | ⟨-, rfl⟩ | ⟨-, rfl⟩ | ⟨-, rfl⟩ | ⟨-, rfl⟩ | ⟨i, -, rfl⟩ | rfl := writeLoc_next_cases h
  · obtain ⟨hw, h⟩ | ⟨-, h⟩ := s.writeCtrl_cases w <;> rw [h]
    · exact .inr ⟨rfl, rfl, hw⟩
    · exact .inl ⟨hf, rfl, rfl⟩
  · rw [State.command_stopped _ _ hf]
    exact .inl ⟨hf, rfl, rfl⟩
  · obtain ⟨e, he⟩ := s.illegalCommand_eq_setErr
    rw [he]
    exact .inl ⟨hf, rfl, rfl⟩
  all_goals exact .inl ⟨hf, rfl, rfl⟩

/-- Settles O6: a command in the stopped state only sets `ERR`, so the two resets are the only ways to touch `FAULT`,
`FCODE` and `FOP`. -/
theorem faultIsStickyUntilReset : Obligations.FaultIsStickyUntilReset := by
  intro s t hf h
  obtain rfl | ⟨b, rest, hp, rfl⟩ | ⟨rest, r, rfl⟩ | ⟨l, w, rest, hp, -, hw⟩ := step_next_cases h
  · exact .inl ⟨hf, rfl, rfl⟩
  · cases b with
    | true => exact .inr ⟨rfl, .inl ⟨rest, hp⟩⟩
    | false => exact .inl ⟨hf, rfl, rfl⟩
  · exact .inl ⟨hf, rfl, rfl⟩
  · obtain hkept | ⟨hreset, rfl, hbit⟩ := writeLoc_stopped (s := (s.withPending rest).answer .written) hf hw
    · exact .inl hkept
    · exact .inr ⟨hreset, .inr ⟨w, rest, hp, hbit⟩⟩

/-- What a host write does to the operand registers, the soft reset aside (R26, R28). -/
theorem writeLoc_operands {s t : State} {l : Loc} {w : Word} (h : writeLoc s l w = .next t) :
    (l = .ctrl ∧ w.getLsbD 0 = true) ∨
    ((t.arg0 = s.arg0 ∨ (l = .arg0 ∧ t.arg0 = w)) ∧ (t.arg1 = s.arg1 ∨ (l = .arg1 ∧ t.arg1 = w)) ∧
      (t.thresh = s.thresh ∨ (l = .thresh ∧ t.thresh = w.setWidth 16))) := by
  obtain ⟨rfl, rfl⟩ | ⟨-, i, rfl⟩ | ⟨-, rfl⟩ | ⟨rfl, rfl⟩ | ⟨rfl, rfl⟩ | ⟨rfl, rfl⟩ | ⟨i, -, rfl⟩ | rfl :=
    writeLoc_next_cases h
  · obtain ⟨hw, -⟩ | ⟨-, h⟩ := s.writeCtrl_cases w
    · exact .inl ⟨rfl, hw⟩
    · rw [h]
      exact .inr ⟨.inl rfl, .inl rfl, .inl rfl⟩
  · obtain ⟨-, h0, h1, ht⟩ := s.command_keeps_operands i
    exact .inr ⟨.inl h0, .inl h1, .inl ht⟩
  · obtain ⟨e, he⟩ := s.illegalCommand_eq_setErr
    rw [he]
    exact .inr ⟨.inl rfl, .inl rfl, .inl rfl⟩
  · exact .inr ⟨.inr ⟨rfl, rfl⟩, .inl rfl, .inl rfl⟩
  · exact .inr ⟨.inl rfl, .inr ⟨rfl, rfl⟩, .inl rfl⟩
  · exact .inr ⟨.inl rfl, .inl rfl, .inr ⟨rfl, rfl⟩⟩
  · exact .inr ⟨.inl rfl, .inl rfl, .inl rfl⟩
  · exact .inr ⟨.inl rfl, .inl rfl, .inl rfl⟩

/-- R26, R28 for a step: an operand register changes by a host write to it or by a reset only. -/
theorem step_operands {s t : State} (h : step s = .next t) : s.ResetComes ∨
    ((t.arg0 = s.arg0 ∨ ∃ rest, s.pending = .access (.write 4 0x014 t.arg0) :: rest) ∧
      (t.arg1 = s.arg1 ∨ ∃ rest, s.pending = .access (.write 4 0x018 t.arg1) :: rest) ∧
      (t.thresh = s.thresh ∨ ∃ w rest, s.pending = .access (.write 4 0x024 w) :: rest ∧ t.thresh = w.setWidth 16)) := by
  obtain rfl | ⟨b, rest, hp, rfl⟩ | ⟨rest, r, rfl⟩ | ⟨l, w, rest, hp, -, hw⟩ := step_next_cases h
  · exact .inr ⟨.inl rfl, .inl rfl, .inl rfl⟩
  · cases b with
    | true => exact .inl (.inl ⟨rest, hp⟩)
    | false => exact .inr ⟨.inl rfl, .inl rfl, .inl rfl⟩
  · exact .inr ⟨.inl rfl, .inl rfl, .inl rfl⟩
  · obtain ⟨rfl, hbit⟩ | ⟨h0, h1, ht⟩ := writeLoc_operands hw
    · exact .inl (.inr ⟨w, rest, hp, hbit⟩)
    · refine .inr ⟨h0.imp_right ?_, h1.imp_right ?_, ht.imp_right ?_⟩
      · rintro ⟨rfl, rfl⟩
        exact ⟨rest, hp⟩
      · rintro ⟨rfl, rfl⟩
        exact ⟨rest, hp⟩
      · rintro ⟨rfl, hv⟩
        exact ⟨w, rest, hp, hv⟩

/-- Settles O12: each of the three writes reaches its register by the address map, and `step_operands` says that nothing
else does. -/
theorem operandRegistersAreTheHosts : Obligations.OperandRegistersAreTheHosts := by
  refine ⟨fun s w rest hr => ⟨fun hp => ?_, fun hp => ?_, fun hp => ?_⟩, fun s t => step_operands⟩
  · exact ⟨_, step_write (l := .arg0) hr hp rfl, rfl, rfl⟩
  · exact ⟨_, step_write (l := .arg1) hr hp rfl, rfl, rfl⟩
  · have hread : ((w.setWidth 16).setWidth 32).toNat = w.toNat % 2 ^ 16 := by
      simp only [BitVec.toNat_setWidth]
      omega
    refine ⟨{ s with pending := rest, response := .written, thresh := w.setWidth 16 }, ?_, rfl, hread⟩
    rw [step_write (l := .thresh) hr hp rfl, BitVec.setWidth_eq_extractLsb' (by decide)]
    rfl

end Sys2Proof.Machine
end

section
/-! SUPPORT. What each command leaves of the invariant `State.Inv` (spec/10_state.md R39): the memory behind `BUF`, fault
entry, the peaks that are stored, the template, the live table, and the two resets. -/

namespace Sys2Proof.Machine

/-! ### Memory (R32) -/

/-- A word of `BUF`, stored, keeps the canonical form and stays within `BUF`. -/
theorem State.setBufWord_memValid (s : State) (i : Nat) (w : Word) (hi : i < s.cfg.nfft) (h : s.MemValid) :
    (s.setBufWord i w).MemValid := by
  obtain ⟨hwf, hin⟩ := h
  refine ⟨Memory.wf_putWord _ _ _ hwf, fun c hc => ?_⟩
  obtain hw | hold := Memory.mem_putBytes _ _ _ _ hc
  · simp only [bufOffset, bytesOfWord_length, State.setBufWord_cfg] at hw ⊢
    omega
  · exact hin c hold

/-- A buffer of `NFFT` words, stored, keeps the canonical form and stays within `BUF`. -/
theorem State.storeBuf_memValid (s : State) (b : List Bin) (hb : b.length = s.cfg.nfft) (h : s.MemValid) :
    (s.storeBuf b).MemValid := by
  obtain ⟨hwf, hin⟩ := h
  refine ⟨Memory.wf_putBins _ _ _ hwf, fun c hc => ?_⟩
  obtain hw | hold := Memory.mem_putBins _ _ _ _ hc
  · rwa [Nat.zero_add, hb] at hw
  · exact hin c hold

/-- A whole buffer stored keeps the invariant: it touches nothing but the memory. -/
theorem State.storeBuf_inv (s : State) (b : List Bin) (hb : b.length = s.cfg.nfft) (h : s.Inv) : (s.storeBuf b).Inv := by
  obtain ⟨hcfg, hsize, hmem, hrest⟩ := h
  exact ⟨hcfg, hsize, s.storeBuf_memValid b hb hmem, hrest⟩

/-- A host write to a word of `BUF` keeps the invariant. -/
theorem State.setBufWord_inv (s : State) (i : Nat) (w : Word) (hi : i < s.cfg.nfft) (h : s.Inv) :
    (s.setBufWord i w).Inv := by
  obtain ⟨hcfg, hsize, hmem, hrest⟩ := h
  exact ⟨hcfg, hsize, s.setBufWord_memValid i w hi hmem, hrest⟩

/-! ### Fault entry (spec/60_exceptions.md R231, R234) -/

/-- The causes a command can raise (R231). -/
def CanRaise (i : Instr) (code : FaultCode) : Prop :=
  (code = .arith ∧ (i = .window ∨ i = .peaks ∨ i = .sched)) ∨ (code = .capacity ∧ i = .peaks)

/-- A cause as `FCODE` and `FOP` tell it. -/
theorem CanRaise.statusCodes {i : Instr} {code : FaultCode} (h : CanRaise i code) :
    (code = .arith ∧ (fopOf i = 2 ∨ fopOf i = 4 ∨ fopOf i = 5)) ∨ (code = .capacity ∧ fopOf i = 4) := by
  obtain ⟨rfl, rfl | rfl | rfl⟩ | ⟨rfl, rfl⟩ := h <;> decide

/-- What becomes UNSPECIFIED at fault entry keeps its shape. -/
theorem State.losesDestination_shape (s : State) (i : Instr) (hsize : s.TablesSized) (hmem : s.MemValid) :
    (s.losesDestination i).TablesSized ∧ (s.losesDestination i).MemValid := by
  obtain ⟨hp, hs, hl⟩ := hsize
  cases i with
  | window => exact ⟨⟨hp, hs, hl⟩, rfl, fun _ hc => absurd hc List.not_mem_nil⟩
  | peaks => exact ⟨⟨by simp [State.losesDestination], hs, hl⟩, hmem⟩
  | sched => exact ⟨⟨hp, by simp [State.losesDestination], hl⟩, hmem⟩
  | fft | adjust | consume | next | cmp => exact ⟨⟨hp, hs, hl⟩, hmem⟩

/-- Fault entry with a cause its command can raise keeps the invariant; the bounds of the PEAK and the STAGE table lapse
with `FAULT` set. -/
theorem State.faultEntry_inv (s : State) (i : Instr) (code : FaultCode) (hc : CanRaise i code) (h : s.Inv) :
    (s.faultEntry i code).Inv := by
  obtain ⟨hcfg, hsize, hmem, -, hlive, -⟩ := h
  obtain ⟨hsize', hmem'⟩ := s.losesDestination_shape i hsize hmem
  obtain ⟨hcfg', -, -, -, -, -, -, hl, hlc, -⟩ := s.faultEntry_keeps i code
  have hset : (s.faultEntry i code).status.fault ≠ false := by simp [State.faultEntry_status]
  have hstatus : (s.faultEntry i code).StatusValid := by
    refine ⟨fun hf => absurd hf hset, fun _ => ?_⟩
    rw [State.faultEntry_status]
    exact hc.statusCodes
  have hlive' : (s.faultEntry i code).LiveValid := by
    simpa only [State.LiveValid, hlc, hl, hcfg'] using hlive
  exact ⟨hcfg'.symm ▸ hcfg, hsize', hmem', hstatus, hlive', fun hf => absurd hf hset⟩

/-! ### PEAKS: magnitudes and frequencies of the stored peaks (R33, R39) -/

theorem isqrtBits_sq_le (n bits root : Nat) (h : root * root ≤ n) :
    isqrtBits n bits root * isqrtBits n bits root ≤ n := by
  induction bits generalizing root with
  | zero => exact h
  | succ bits ih =>
    simp only [isqrtBits]
    split
    · exact ih _ ‹_›
    · exact ih _ h

theorem isqrt_sq_le (n : Nat) : isqrt n * isqrt n ≤ n := isqrtBits_sq_le n 16 0 (by simp)

/-- A squared magnitude is at most `2^31` (R105). -/
theorem sqmag_le (re im : Half) : sqmag re.toInt im.toInt ≤ 2 ^ 31 := by
  have hsq : ∀ x : Half, x.toInt * x.toInt ≤ 2 ^ 30 := fun x => by
    have hlo := x.le_toInt
    have hhi := x.toInt_lt
    norm_num at hlo hhi
    nlinarith
  have hre := hsq re
  have him := hsq im
  simp only [sqmag]
  omega

theorem sqAt_squaredMags_le (c : Config) (b : List Bin) (i : Nat) : sqAt (squaredMags c b) i ≤ 2 ^ 31 := by
  simp only [sqAt, squaredMags, List.getD_eq_getElem?_getD, List.getElem?_map]
  cases (b.take c.nbins)[i]? with
  | none => simp
  | some x => exact sqmag_le x.re x.im

/-- The bounds of R39 on a PEAK entry. -/
def PeakEntry.Bounded (c : Config) (e : PeakEntry) : Prop :=
  1 ≤ e.freq.toNat ∧ e.freq.toNat ≤ c.maxFreq.toNat ∧ e.mag.toNat ≤ 46340

/-- The record of an accepted ridge is within the bounds of R39: 46340 is the root of the highest squared magnitude. -/
theorem peakOf_bounded (c : Config) (bins : List Bin) (b : Nat) (f : Frequency)
    (hf : refine c (squaredMags c bins) b = .ok (some f)) :
    (peakOf c bins (squaredMags c bins) b f).Bounded c := by
  obtain ⟨hlo, hhi⟩ := refine_accepted _ _ _ _ hf
  refine ⟨hlo, hhi, ?_⟩
  have hroot := isqrt_sq_le (sqAt (squaredMags c bins) b)
  have hsq := sqAt_squaredMags_le c bins b
  have hmag : isqrt (sqAt (squaredMags c bins) b) ≤ 46340 := by
    by_contra hgt
    nlinarith
  simp only [peakOf, BitVec.toNat_ofNat]
  omega

/-- The selection loop stores at most as many peaks as there is room for, each with the property that the record of every
accepted ridge has. -/
theorem selectPeaks_ok (c : Config) (thresh : Half) (bins : List Bin) (sq : List Nat) (P : PeakEntry → Prop)
    (hP : ∀ b f, refine c sq b = .ok (some f) → P (peakOf c bins sq b f)) (turns : Nat) (left : List Nat) (room : Nat)
    (maxMag : Option Nat) (ps : List PeakEntry) (h : selectPeaks c thresh bins sq turns left room maxMag = .ok ps) :
    ps.length ≤ room ∧ ∀ e ∈ ps, P e := by
  induction turns generalizing left room maxMag ps with
  | zero => cases h; simp
  | succ n ih =>
    simp only [selectPeaks] at h
    split at h
    · cases h; simp
    split at h
    · cases h; simp
    split at h
    · exact ih _ _ _ _ h
    split at h
    · cases h; simp
    split at h
    · cases h; simp
    split at h
    · cases h
    · exact ih _ _ _ _ h
    · rename_i f hacc
      split at h
      · cases h
      · rename_i rest hrest
        cases h
        obtain ⟨hlen, hall⟩ := ih _ _ _ _ hrest
        refine ⟨by simp only [List.length_cons]; omega, fun e he => ?_⟩
        obtain rfl | he := List.mem_cons.1 he
        · exact hP _ _ hacc
        · exact hall e he

/-- What PEAKS finds: at most `MAX_PEAKS` peaks, each within the bounds of R39. -/
theorem findPeaks_ok (c : Config) (thresh : Half) (bins : List Bin) (ps : List PeakEntry)
    (h : findPeaks c thresh bins = .ok ps) : ps.length ≤ c.maxPeaks ∧ ∀ e ∈ ps, e.Bounded c := by
  simp only [findPeaks] at h
  split at h
  · cases h
  · exact selectPeaks_ok c thresh bins _ _ (fun b f => peakOf_bounded c bins b f) _ _ _ _ _ h

/-! ### SCHED: the template (R34, R39) -/

/-- The bounds of R39 on a STAGE entry. -/
def StageEntry.Bounded (c : Config) (e : StageEntry) : Prop :=
  1 ≤ e.period.toNat ∧ e.period.toNat ≤ c.periodMax ∧ e.offset.toNat ≤ e.period.toNat

/-- A phase delay lies from 0 to the period (spec/45_pulse_scheduler.md R192). -/
theorem phaseDelay_bounds (phase : Half) (p : Int) (hp : 1 ≤ p) : 0 ≤ phaseDelay phase p ∧ phaseDelay phase p ≤ p := by
  have hv := phase.isLt
  have hlo : 0 ≤ p * (phase.toNat : Int) := by positivity
  have hhi : p * (phase.toNat : Int) ≤ p * 65535 := by
    apply Int.mul_le_mul_of_nonneg_left <;> omega
  simp only [phaseDelay, sfApply_eq]
  omega

/-- One pulse of the template is within the bounds of R39: the period by the narrowing, the delay by the period. -/
theorem stageOf_bounded (c : Config) (p : PeakEntry) (e : StageEntry) (hc : c.wellFormed = true)
    (h : stageOf c p = .ok e) : e.Bounded c := by
  obtain ⟨-, -, -, -, -, -, -, -, -, -, -, hmin, hmax⟩ := Config_wellFormed_parts c hc
  simp only [stageOf] at h
  split at h
  · cases h
  · rename_i period hper
    cases h
    obtain ⟨hlo, hhi⟩ := narrow_bounds _ _ _ _ _ (by omega) hper
    obtain ⟨hd0, hd1⟩ := phaseDelay_bounds p.phase period hlo
    simp only [StageEntry.Bounded, BitVec.toNat_ofInt]
    omega

/-- The template of SCHED: a pulse for each peak, each within the bounds of R39. -/
theorem schedulePulses_ok (c : Config) (ps : List PeakEntry) (es : List StageEntry) (hc : c.wellFormed = true)
    (h : schedulePulses c ps = .ok es) : es.length = ps.length ∧ ∀ e ∈ es, e.Bounded c := by
  obtain ⟨hlen, hall⟩ := mapOrFault_ok _ _ _ h
  refine ⟨hlen, fun e he => ?_⟩
  obtain ⟨i, hi, rfl⟩ := List.mem_iff_getElem.1 he
  exact stageOf_bounded c _ _ hc (hall i (hlen ▸ hi) hi)

/-! ### The live table (R35, R39) -/

/-- A live table of `n` pulses of valid period keeps the invariant, which names no field that ADJUST, CONSUME and NEXT
write beside the live table. -/
theorem State.live_overlay_inv (s : State) (es : List LiveEntry) (n : Count) (h : s.Inv) (hn : n.toNat ≤ s.cfg.maxPeaks)
    (hlen : es.length = n.toNat) (hes : ∀ e ∈ es, 1 ≤ e.period.toNat ∧ e.period.toNat ≤ s.cfg.periodMax) :
    State.Inv { s with live := overlay es s.live, liveCount := n } := by
  obtain ⟨hcfg, ⟨hp, hs, hl⟩, hmem, hstatus, -, hvalid⟩ := h
  refine ⟨hcfg, ⟨hp, hs, ?_⟩, hmem, hstatus, ⟨hn, ?_⟩, hvalid⟩
  · exact (overlay_length _ _ (by omega)).trans hl
  · have htake : (overlay es s.live).take n.toNat = es := by rw [← hlen, overlay_take]
    simpa only [htake] using hes

theorem advancedIf_period (t : Instant) (e : LiveEntry) : (advancedIf t e).period = e.period := by
  simp only [advancedIf]
  split <;> rfl

theorem heldOff_period (after : Instant) (h : Nat) (e : LiveEntry) : (heldOff after h e).period = e.period := by
  simp only [heldOff]
  split <;> rfl

/-- Moving the live pulses without changing a period keeps the number of pulses and the bounds of R39. -/
theorem State.livePulses_map_valid (s : State) (f : LiveEntry → LiveEntry) (hf : ∀ e, (f e).period = e.period)
    (h : s.Inv) :
    (s.livePulses.map f).length = s.liveCount.toNat ∧
      ∀ e ∈ s.livePulses.map f, 1 ≤ e.period.toNat ∧ e.period.toNat ≤ s.cfg.periodMax := by
  obtain ⟨-, ⟨-, -, hl⟩, -, -, ⟨hn, hall⟩, -⟩ := h
  refine ⟨by rw [List.length_map, s.livePulses_length hl hn], fun e he => ?_⟩
  obtain ⟨e0, he0, rfl⟩ := List.mem_map.1 he
  rw [hf]
  exact hall e0 he0

/-! ### The commands -/

theorem fftBody_inv (s : State) (h : s.Inv) : (fftBody s).Inv :=
  s.storeBuf_inv _ (fftOf_length _ _) h

theorem windowBody_inv (s : State) (h : s.Inv) : (windowBody s).Inv := by
  simp only [windowBody]
  split
  · exact s.storeBuf_inv _ ((windowOf_length _ _ _ ‹_›).trans s.loadBuf_length) h
  · exact s.faultEntry_inv _ _ (.inl ⟨(windowOf_error _ _ _ ‹_›).1, .inl rfl⟩) h

theorem peaksBody_inv (s : State) (hf : s.status.fault = false) (h : s.Inv) : (peaksBody s).Inv := by
  simp only [peaksBody]
  split
  · rename_i ps hps
    obtain ⟨hlen, hall⟩ := findPeaks_ok _ _ _ _ hps
    obtain ⟨hcfg, ⟨hp, hs, hl⟩, hmem, hstatus, hlive, hvalid⟩ := h
    obtain ⟨-, hstage⟩ := hvalid hf
    obtain ⟨-, -, ⟨-, hmax⟩, -⟩ := Config_wellFormed_parts s.cfg hcfg
    have hcount : (BitVec.ofNat 6 ps.length).toNat = ps.length := by
      rw [BitVec.toNat_ofNat]
      omega
    refine ⟨hcfg, ⟨(overlay_length _ _ (by omega)).trans hp, hs, hl⟩, hmem, hstatus, hlive, fun _ => ⟨?_, hstage⟩⟩
    simp only [State.PeaksValid, hcount, overlay_take]
    exact ⟨hlen, hall⟩
  · rename_i code hcode
    refine s.faultEntry_inv _ _ ?_ h
    obtain rfl | ⟨rfl, -⟩ := findPeaks_error _ _ _ _ hcode
    · exact .inr ⟨rfl, rfl⟩
    · exact .inl ⟨rfl, .inr (.inl rfl)⟩

theorem schedBody_inv (s : State) (hf : s.status.fault = false) (h : s.Inv) : (schedBody s).Inv := by
  simp only [schedBody]
  split
  · rename_i es hes
    obtain ⟨hcfg, ⟨hp, hs, hl⟩, hmem, hstatus, hlive, hvalid⟩ := h
    obtain ⟨hpeaks, -⟩ := hvalid hf
    obtain ⟨hlen, hall⟩ := schedulePulses_ok _ _ _ hcfg hes
    have hcount : es.length = s.peakCount.toNat := by
      rw [hlen, List.length_take, hp]
      exact Nat.min_eq_left hpeaks.1
    refine ⟨hcfg, ⟨hp, (overlay_length _ _ (by omega)).trans hs, hl⟩, hmem, hstatus, hlive, fun _ => ⟨hpeaks, ?_⟩⟩
    simp only [State.StageValid, ← hcount, overlay_take]
    exact ⟨hcount ▸ hpeaks.1, hall⟩
  · exact s.faultEntry_inv _ _ (.inl ⟨(schedulePulses_error _ _ _ ‹_›).1, .inr (.inr rfl)⟩) h

theorem adjustBody_inv (s : State) (hf : s.status.fault = false) (h : s.Inv) : (adjustBody s).Inv := by
  have ⟨_, ⟨_, hs, _⟩, _, _, _, hvalid⟩ := h
  obtain ⟨-, hn, hall⟩ := hvalid hf
  refine s.live_overlay_inv ((s.stage.take s.stageCount.toNat).map (anchored s.startInstant)) s.stageCount h hn ?_ ?_
  · rw [List.length_map, List.length_take, hs]
    exact Nat.min_eq_left hn
  · intro e he
    obtain ⟨e0, he0, rfl⟩ := List.mem_map.1 he
    obtain ⟨hlo, hhi, -⟩ := hall e0 he0
    exact ⟨hlo, hhi⟩

theorem consumeBody_inv (s : State) (h : s.Inv) : (consumeBody s).Inv := by
  simp only [consumeBody]
  split
  · exact h
  · have ⟨_, _, _, _, ⟨hn, _⟩, _⟩ := h
    obtain ⟨hlen, hall⟩ := s.livePulses_map_valid (advancedIf s.atInstant) (advancedIf_period _) h
    exact s.live_overlay_inv _ s.liveCount h hn hlen hall

theorem nextBody_inv (s : State) (h : s.Inv) : (nextBody s).Inv := by
  simp only [nextBody]
  split
  · exact h
  · have ⟨_, _, _, _, ⟨hn, _⟩, _⟩ := h
    obtain ⟨hlen, hall⟩ := s.livePulses_map_valid _ (heldOff_period s.afterInstant (s.currentHoldoff s.afterInstant)) h
    exact s.live_overlay_inv _ s.liveCount h hn hlen hall

/-- Every command that runs keeps the invariant. -/
theorem bodyOf_inv (i : Instr) (s : State) (hf : s.status.fault = false) (h : s.Inv) : (bodyOf i s).Inv := by
  cases i with
  | fft => exact fftBody_inv s h
  | window => exact windowBody_inv s h
  | peaks => exact peaksBody_inv s hf h
  | sched => exact schedBody_inv s hf h
  | adjust => exact adjustBody_inv s hf h
  | consume => exact consumeBody_inv s h
  | next => exact nextBody_inv s h
  | cmp => exact h

theorem State.command_inv (s : State) (i : Instr) (h : s.Inv) : (s.command (bodyOf i)).Inv := by
  cases hf : s.status.fault with
  | true =>
    rw [State.command_stopped _ _ hf]
    exact h
  | false =>
    rw [State.command_running _ _ hf]
    exact bodyOf_inv i (s.setErr .ok) hf h

/-! ### The resets -/

/-- The state right after a reset with a well-formed configuration has the invariant (R260). -/
theorem State.resetFor_inv (c : Config) (h : c.wellFormed = true) : (State.resetFor c).Inv := by
  refine ⟨h, ⟨List.length_replicate, List.length_replicate, List.length_replicate⟩, ⟨rfl, ?_⟩, ⟨fun _ => ⟨rfl, rfl⟩, ?_⟩,
    ⟨Nat.zero_le _, ?_⟩, fun _ => ⟨⟨Nat.zero_le _, ?_⟩, ⟨Nat.zero_le _, ?_⟩⟩⟩
  · exact fun _ hc => absurd hc List.not_mem_nil
  · exact fun hf => absurd hf Bool.false_ne_true
  all_goals exact fun _ he => absurd he List.not_mem_nil

theorem State.resetBlock_inv (s : State) (h : s.Inv) : s.resetBlock.Inv := State.resetFor_inv s.cfg h.1

theorem State.setHardReset_inv (s : State) (b : Bool) (h : s.Inv) : (s.setHardReset b).Inv := by
  cases b with
  | true => exact s.resetBlock_inv h
  | false => exact h

theorem State.writeCtrl_inv (s : State) (w : Word) (h : s.Inv) : (s.writeCtrl w).Inv := by
  obtain ⟨-, hw⟩ | ⟨-, hw⟩ := s.writeCtrl_cases w <;> rw [hw]
  · exact s.resetBlock_inv h
  · exact h

/-- REF8 is well formed, so the fallback of `Config.chip` is too (spec/00_scope.md R12, R13). -/
theorem Config.wellFormed_ref8 : Config.ref8.wellFormed = true := by decide

theorem Config.wellFormed_chip : Config.chip.wellFormed = true := by
  unfold Config.chip
  split
  · assumption
  · exact Config.wellFormed_ref8

end Sys2Proof.Machine
end

section
/-! Family 10_state.md: the invariant of R39 holds at reset and every step keeps it. -/

namespace Sys2Proof.Machine

/-- Settles O22: the chip's parameters are well formed, and every table and count is empty or 0. -/
theorem resetHasInvariant : Obligations.ResetHasInvariant :=
  State.resetFor_inv Config.chip Config.wellFormed_chip

/-- A host write to a location the configuration has keeps the invariant. -/
theorem writeLoc_keeps_inv {s t : State} {l : Loc} {w : Word} (h : s.Inv) (hl : l.exists? s.cfg = true)
    (hw : writeLoc s l w = .next t) : t.Inv := by
  obtain ⟨-, rfl⟩ | ⟨-, i, rfl⟩ | ⟨-, rfl⟩ | ⟨-, rfl⟩ | ⟨-, rfl⟩ | ⟨-, rfl⟩ | ⟨i, rfl, rfl⟩ | rfl := writeLoc_next_cases hw
  · exact s.writeCtrl_inv w h
  · exact s.command_inv i h
  · obtain ⟨e, he⟩ := s.illegalCommand_eq_setErr
    rw [he]
    exact h
  · exact h
  · exact h
  · exact h
  · exact s.setBufWord_inv i w (of_decide_eq_true hl) h
  · exact h

/-- Settles O21: `State.Inv` names neither the host's side of the state nor the operands and results, so what is left are
the resets, the commands and the writes to `BUF`, each with its own lemma. -/
theorem stepKeepsInvariant : Obligations.StepKeepsInvariant := by
  intro s t hinv h
  obtain rfl | ⟨b, rest, -, rfl⟩ | ⟨rest, r, rfl⟩ | ⟨l, w, rest, -, hl, hw⟩ := step_next_cases h
  · exact hinv
  · exact State.setHardReset_inv _ b hinv
  · exact hinv
  · exact writeLoc_keeps_inv (s := (s.withPending rest).answer .written) hinv hl hw

end Sys2Proof.Machine
end

section
/-! SUPPORT. The fields of a register word, found from its value: a word made of parts one above the other is the sum of
their values at their places, and a field is a quotient and a remainder of that sum. -/

namespace Sys2Proof.Machine

/-- The value of two parts of a word, one above the other. -/
theorem toNat_append_eq_add {n m : Nat} (x : BitVec n) (y : BitVec m) :
    (x ++ y).toNat = x.toNat * 2 ^ m + y.toNat := by
  rw [BitVec.toNat_append, ← Nat.shiftLeft_add_eq_or_of_lt y.isLt, Nat.shiftLeft_eq]

/-- The value of a field. -/
theorem extractLsb'_toNat_eq {n : Nat} (v : BitVec n) (i len : Nat) :
    (v.extractLsb' i len).toNat = v.toNat / 2 ^ i % 2 ^ len := by
  rw [BitVec.extractLsb'_toNat, Nat.shiftRight_eq_div_pow]

theorem extractLsb'_eq_of_toNat {n len : Nat} (v : BitVec n) (i : Nat) (x : BitVec len)
    (h : v.toNat / 2 ^ i % 2 ^ len = x.toNat) : v.extractLsb' i len = x :=
  BitVec.eq_of_toNat_eq ((extractLsb'_toNat_eq v i len).trans h)

theorem extractLsb'_eq_zero {n len : Nat} (v : BitVec n) (i : Nat) (h : v.toNat / 2 ^ i % 2 ^ len = 0) :
    v.extractLsb' i len = 0 :=
  extractLsb'_eq_of_toNat v i 0 (h.trans BitVec.toNat_zero.symm)

theorem getLsbD_eq_of_toNat {n : Nat} (v : BitVec n) (i : Nat) (b : Bool) (h : v.toNat / 2 ^ i % 2 = b.toNat) :
    v.getLsbD i = b := by
  rw [← BitVec.testBit_toNat, Nat.testBit_eq_decide_div_mod_eq, h]
  cases b <;> rfl

/-- `STATUS` as the sum of its fields (spec/10_state.md R24). -/
theorem statusWord_toNat (t : Status) : (statusWord t).toNat =
    t.fault.toNat + 2 * (fcodeBits t.fcode).toNat + 16 * t.fop.toNat + 256 * (errBits t.err).toNat +
      2048 * t.noneBit.toNat + 4096 * t.hv.toNat := by
  refine (toNat_append_eq_add _ _).trans ?_
  simp only [toNat_append_eq_add, BitVec.toNat_ofBool, BitVec.ofNat_eq_ofNat, BitVec.toNat_ofNat]
  omega

/-- `CFG` as the sum of its fields (R22). -/
theorem cfgWord_toNat (c : Config) : (cfgWord c).toNat =
    c.nlog2 % 32 + 2 ^ 8 * (c.maxPeaks % 64) + 2 ^ 14 * (windowKindBits c.windowKind).toNat +
      2 ^ 16 * (c.preshift % 16) + 2 ^ 20 * (decide (c.ovfMode = .saturate)).toNat +
      2 ^ 21 * (decide (c.ncNum ≠ c.ncDen)).toNat := by
  refine (toNat_append_eq_add _ _).trans ?_
  simp only [toNat_append_eq_add, BitVec.toNat_ofBool, BitVec.ofNat_eq_ofNat, BitVec.toNat_ofNat]
  omega

/-- The word of `PEAK[k].phase` and `PEAK[k].mag` as a sum (R33). -/
theorem readLoc_peakPhaseMag_toNat (s : State) (k : Nat) :
    (s.readLoc (.peakPhaseMag k)).toNat = (s.peakAt k).phase.toNat * 2 ^ 16 + (s.peakAt k).mag.toNat :=
  toNat_append_eq_add _ _

end Sys2Proof.Machine
end

section
/-! Family 10_state.md: the places of the fields of the registers. -/

namespace Sys2Proof.Machine

/-- R24: the fields of `STATUS`. -/
theorem statusWord_fields (t : Status) :
    (statusWord t).getLsbD 0 = t.fault ∧ (statusWord t).extractLsb' 1 3 = fcodeBits t.fcode ∧
    (statusWord t).extractLsb' 4 4 = t.fop ∧ (statusWord t).extractLsb' 8 3 = errBits t.err ∧
    (statusWord t).getLsbD 11 = t.noneBit ∧ (statusWord t).getLsbD 12 = t.hv ∧
    (statusWord t).extractLsb' 13 19 = 0 := by
  have hsum := statusWord_toNat t
  have hfault := t.fault.toNat_lt
  have hfcode := (fcodeBits t.fcode).isLt
  have hfop := t.fop.isLt
  have herr := (errBits t.err).isLt
  have hnone := t.noneBit.toNat_lt
  have hhv := t.hv.toNat_lt
  refine ⟨getLsbD_eq_of_toNat _ _ _ ?_, extractLsb'_eq_of_toNat _ _ _ ?_, extractLsb'_eq_of_toNat _ _ _ ?_,
    extractLsb'_eq_of_toNat _ _ _ ?_, getLsbD_eq_of_toNat _ _ _ ?_, getLsbD_eq_of_toNat _ _ _ ?_,
    extractLsb'_eq_zero _ _ ?_⟩
  all_goals omega

/-- Settles O15: the fields of `STATUS` by `statusWord_fields`, the code numbers by definition. -/
theorem statusWordLayout : Obligations.StatusWordLayout :=
  ⟨statusWord_fields, ⟨rfl, rfl, rfl, rfl⟩, ⟨rfl, rfl, rfl⟩⟩

/-- R22: the fields of `CFG`; the ranges of a well-formed configuration fit them. -/
theorem cfgWord_fields (c : Config) (h : c.wellFormed = true) :
    ((cfgWord c).extractLsb' 0 5).toNat = c.nlog2 ∧ (cfgWord c).extractLsb' 5 3 = 0 ∧
    ((cfgWord c).extractLsb' 8 6).toNat = c.maxPeaks ∧ (cfgWord c).extractLsb' 14 2 = windowKindBits c.windowKind ∧
    ((cfgWord c).extractLsb' 16 4).toNat = c.preshift ∧ ((cfgWord c).getLsbD 20 = true ↔ c.ovfMode = .saturate) ∧
    ((cfgWord c).getLsbD 21 = true ↔ c.ncNum ≠ c.ncDen) ∧ (cfgWord c).extractLsb' 22 10 = 0 := by
  obtain ⟨⟨-, hnlog2⟩, hpreshift, ⟨-, hmaxPeaks⟩, -⟩ := Config_wellFormed_parts c h
  have hsum := cfgWord_toNat c
  have hkind := (windowKindBits c.windowKind).isLt
  have hsat := (decide (c.ovfMode = .saturate)).toNat_lt
  have hnc := (decide (c.ncNum ≠ c.ncDen)).toNat_lt
  have hbit20 : (cfgWord c).getLsbD 20 = decide (c.ovfMode = .saturate) := getLsbD_eq_of_toNat _ _ _ (by omega)
  have hbit21 : (cfgWord c).getLsbD 21 = decide (c.ncNum ≠ c.ncDen) := getLsbD_eq_of_toNat _ _ _ (by omega)
  refine ⟨(extractLsb'_toNat_eq _ _ _).trans ?_, extractLsb'_eq_zero _ _ ?_, (extractLsb'_toNat_eq _ _ _).trans ?_,
    extractLsb'_eq_of_toNat _ _ _ ?_, (extractLsb'_toNat_eq _ _ _).trans ?_, by rw [hbit20, decide_eq_true_iff],
    by rw [hbit21, decide_eq_true_iff], extractLsb'_eq_zero _ _ ?_⟩
  all_goals omega

/-- R33: the halves of the word of `PEAK[k].phase` and `PEAK[k].mag`. -/
theorem readLoc_peakPhaseMag_fields (s : State) (k : Nat) :
    (s.readLoc (.peakPhaseMag k)).extractLsb' 0 16 = (s.peakAt k).mag ∧
      (s.readLoc (.peakPhaseMag k)).extractLsb' 16 16 = (s.peakAt k).phase := by
  have hsum := readLoc_peakPhaseMag_toNat s k
  have hmag := (s.peakAt k).mag.isLt
  have hphase := (s.peakAt k).phase.isLt
  refine ⟨extractLsb'_eq_of_toNat _ _ _ ?_, extractLsb'_eq_of_toNat _ _ _ ?_⟩
  all_goals omega

theorem State.peakAt_eq_getElem (s : State) (k : Nat) (h : k < s.peak.length) : s.peakAt k = s.peak[k] :=
  (List.getElem_eq_getD _).symm

theorem State.stageAt_eq_getElem (s : State) (k : Nat) (h : k < s.stage.length) : s.stageAt k = s.stage[k] :=
  (List.getElem_eq_getD _).symm

theorem State.liveAt_eq_getElem (s : State) (k : Nat) (h : k < s.live.length) : s.liveAt k = s.live[k] :=
  (List.getElem_eq_getD _).symm

/-- Settles O16: the fields of `CFG` and of a PEAK word by their sums; a table entry by its index in range; every other
register reads as it stands or zero-extended. -/
theorem registerWordLayouts : Obligations.RegisterWordLayouts := by
  refine ⟨cfgWord_fields, ⟨rfl, rfl, rfl, rfl⟩, fun s => ?_, fun s k => ?_⟩
  · have hcount : 6 ≤ 32 := by decide
    have hthresh : 16 ≤ 32 := by decide
    refine ⟨rfl, rfl, rfl, rfl, rfl, rfl, rfl, rfl, BitVec.toNat_setWidth_of_le hcount,
      BitVec.toNat_setWidth_of_le hcount, BitVec.toNat_setWidth_of_le hcount, BitVec.toNat_setWidth_of_le hthresh,
      fun k h => ?_, fun k h => ?_, fun k h => ?_⟩
    · rw [← s.peakAt_eq_getElem k h]
      exact ⟨rfl, readLoc_peakPhaseMag_fields s k⟩
    · rw [← s.stageAt_eq_getElem k h]
      exact ⟨rfl, rfl⟩
    · rw [← s.liveAt_eq_getElem k h]
      exact ⟨rfl, rfl⟩
  · obtain ⟨hmag, hphase⟩ := readLoc_peakPhaseMag_fields s k
    exact ⟨rfl, hmag, hphase, rfl, rfl, rfl, rfl⟩

end Sys2Proof.Machine
end

section
/-! SUPPORT. The address decoder the other way round, which word an offset of the map names, and what a step that takes
an access does by it (spec/20_memory.md R61 to R66); the bytes and halves of a `BUF` word (R62). -/

namespace Sys2Proof.Machine

/-! ### From a location to the decoder (R61) -/

/-- The first word of entry `k`, `8k` bytes into its region. -/
theorem entryAt_first (c : Config) (k : Nat) (first second : Nat → Loc) (hk : k < c.maxPeaks) :
    entryAt c (8 * k) first second = some (first k) := by
  have hdiv : 8 * k / 8 = k := by omega
  have hmod : 8 * k % 8 = 0 := by omega
  simp only [entryAt, hdiv, hmod, hk, if_true]

/-- The second word of entry `k`, 4 bytes above the first. -/
theorem entryAt_second (c : Config) (k : Nat) (first second : Nat → Loc) (hk : k < c.maxPeaks) :
    entryAt c (8 * k + 4) first second = some (second k) := by
  have hdiv : (8 * k + 4) / 8 = k := by omega
  have hmod : (8 * k + 4) % 8 ≠ 0 := by omega
  simp only [entryAt, hdiv, hmod, hk, if_true, if_false]

theorem locAt_peakRegion (c : Config) (rel : Nat) (h : rel < 0x100) :
    locAt c (0x100 + rel) = entryAt c rel .peakFreq .peakPhaseMag := by
  rw [locAt, if_neg (by omega), if_pos (by omega), Nat.add_sub_cancel_left]

theorem locAt_stageRegion (c : Config) (rel : Nat) (h : rel < 0x100) :
    locAt c (0x200 + rel) = entryAt c rel .stagePeriod .stageOffset := by
  rw [locAt, if_neg (by omega), if_neg (by omega), if_pos (by omega), Nat.add_sub_cancel_left]

theorem locAt_liveRegion (c : Config) (rel : Nat) (h : rel < 0x100) :
    locAt c (0x300 + rel) = entryAt c rel .livePeriod .liveNext := by
  rw [locAt, if_neg (by omega), if_neg (by omega), if_neg (by omega), if_pos (by omega), Nat.add_sub_cancel_left]

theorem locAt_bufOffset (c : Config) (i : Nat) (hi : i < c.nfft) : locAt c (bufOffset i) = some (.buf i) := by
  have hword : (bufOffset i - 0x10000) / 4 = i := by simp only [bufOffset]; omega
  have hbase : 0x10000 ≤ bufOffset i := Nat.le_add_right _ _
  rw [locAt, if_neg (by omega), if_neg (by omega), if_neg (by omega), if_neg (by omega), if_neg (by omega), hword,
    if_pos hi]

/-- The decoder finds each location the configuration has at its offset: the three tables do not run into each
other, having at most 32 entries. -/
theorem locAt_offsetOf (c : Config) (l : Loc) (hmax : c.maxPeaks ≤ 32) (hl : l.exists? c = true) :
    locAt c (offsetOf l) = some l := by
  cases l with
  | peakFreq k =>
    have hk : k < c.maxPeaks := of_decide_eq_true hl
    exact (locAt_peakRegion c (8 * k) (by omega)).trans (entryAt_first c k _ _ hk)
  | peakPhaseMag k =>
    have hk : k < c.maxPeaks := of_decide_eq_true hl
    have hoff : offsetOf (.peakPhaseMag k) = 0x100 + (8 * k + 4) := by simp only [offsetOf]; omega
    rw [hoff, locAt_peakRegion c _ (by omega), entryAt_second c k _ _ hk]
  | stagePeriod k =>
    have hk : k < c.maxPeaks := of_decide_eq_true hl
    exact (locAt_stageRegion c (8 * k) (by omega)).trans (entryAt_first c k _ _ hk)
  | stageOffset k =>
    have hk : k < c.maxPeaks := of_decide_eq_true hl
    have hoff : offsetOf (.stageOffset k) = 0x200 + (8 * k + 4) := by simp only [offsetOf]; omega
    rw [hoff, locAt_stageRegion c _ (by omega), entryAt_second c k _ _ hk]
  | livePeriod k =>
    have hk : k < c.maxPeaks := of_decide_eq_true hl
    exact (locAt_liveRegion c (8 * k) (by omega)).trans (entryAt_first c k _ _ hk)
  | liveNext k =>
    have hk : k < c.maxPeaks := of_decide_eq_true hl
    have hoff : offsetOf (.liveNext k) = 0x300 + (8 * k + 4) := by simp only [offsetOf]; omega
    rw [hoff, locAt_liveRegion c _ (by omega), entryAt_second c k _ _ hk]
  | buf i => exact locAt_bufOffset c i (of_decide_eq_true hl)
  | _ => rfl

theorem offsetOf_aligned (l : Loc) : offsetOf l % 4 = 0 := by
  cases l <;> simp only [offsetOf, bufOffset] <;> omega

/-! ### The answers of `resolve` (R63, R64) -/

theorem resolve_wrongWidth (c : Config) (width off : Nat) (h : width ≠ 4) : resolve c width off = .error .width :=
  if_pos h

theorem resolve_misaligned (c : Config) (off : Nat) (h : off % 4 ≠ 0) : resolve c 4 off = .error .misaligned := by
  rw [resolve, if_neg (by decide), if_pos h]

theorem resolve_of_locAt (c : Config) (off : Nat) (l : Loc) (ha : off % 4 = 0) (hl : locAt c off = some l) :
    resolve c 4 off = .ok l := by
  simp only [resolve, ha, hl, ne_eq, not_true_eq_false, if_false]

theorem resolve_unlisted (c : Config) (off : Nat) (ha : off % 4 = 0)
    (h : ∀ l : Loc, l.exists? c = true → offsetOf l ≠ off) : resolve c 4 off = .error .undefinedOffset := by
  cases hl : locAt c off with
  | none => simp only [resolve, ha, hl, ne_eq, not_true_eq_false, if_false]
  | some l =>
    obtain ⟨hoff, hexists⟩ := locAt_some c off l ha hl
    exact absurd hoff.symm (h l hexists)

/-- A 4-byte access at the offset of a location the configuration has reaches it. -/
theorem resolve_offsetOf (c : Config) (l : Loc) (hc : c.wellFormed = true) (hl : l.exists? c = true) :
    resolve c 4 (offsetOf l) = .ok l := by
  obtain ⟨-, -, ⟨-, hmax⟩, -⟩ := Config_wellFormed_parts c hc
  exact resolve_of_locAt c _ l (offsetOf_aligned l) (locAt_offsetOf c l hmax hl)

/-! ### A step that takes an access -/

/-- Outside the hard reset a step that takes an access is that access, taken off what is to come. -/
theorem step_access {s : State} {a : Access} {rest : List HostInput} (hr : s.hardReset = false)
    (hp : s.pending = .access a :: rest) : step s = access (s.withPending rest) a := by
  simp [step, stepInput, hp, takeInput, hr]

/-- A step that takes a read answers the word of the location it reaches (R66). -/
theorem step_read {s : State} {off : Nat} {rest : List HostInput} {l : Loc} (hr : s.hardReset = false)
    (hp : s.pending = .access (.read 4 off) :: rest) (hl : resolve s.cfg 4 off = .ok l) :
    step s = .next { s with pending := rest, response := .data (s.readLoc l) } := by
  have hread : (s.withPending rest).readLoc l = s.readLoc l := by cases l <;> rfl
  simp only [step_access hr hp, access, State.withPending_cfg, hl, hread]
  rfl

/-- A step that takes an access the decoder refuses answers the reason and does nothing else. -/
theorem step_refused {s : State} {a : Access} {width off : Nat} {rest : List HostInput} {e : AccessError}
    (hr : s.hardReset = false) (hp : s.pending = .access a :: rest)
    (ha : a = .read width off ∨ ∃ w, a = .write width off w) (he : resolve s.cfg width off = .error e) :
    step s = .next { s with pending := rest, response := .refused e } := by
  obtain rfl | ⟨w, rfl⟩ := ha
  all_goals
    simp only [step_access hr hp, access, State.withPending_cfg, he]
    rfl

/-- A host write to a location that is neither writable nor a command leaves the state alone (R65). -/
theorem writeLoc_readOnly (s : State) (l : Loc) (w : Word)
    (hl : l ∉ [Loc.ctrl, Loc.cmd, Loc.arg0, Loc.arg1, Loc.thresh]) (hbuf : ∀ i, l ≠ .buf i) :
    writeLoc s l w = .next s := by
  obtain ⟨rfl, -⟩ | ⟨rfl, -⟩ | ⟨rfl, -⟩ | ⟨rfl, -⟩ | ⟨rfl, -⟩ | ⟨i, rfl, -⟩ | hw := writeLoc_cases s l w
  iterate 5 simp at hl
  · exact absurd rfl (hbuf i)
  · exact hw

/-! ### The bytes and the halves of a word (R62, R67) -/

/-- A word as the sum of its bytes. -/
theorem wordOfBytes_toNat (b0 b1 b2 b3 : Byte) : (wordOfBytes b0 b1 b2 b3).toNat =
    b0.toNat + 2 ^ 8 * b1.toNat + 2 ^ 16 * b2.toNat + 2 ^ 24 * b3.toNat := by
  refine (toNat_append_eq_add _ _).trans ?_
  simp only [toNat_append_eq_add]
  omega

/-- The bytes of a word are its fields of 8 bits, the first the lowest. -/
theorem wordOfBytes_fields (b0 b1 b2 b3 : Byte) :
    (wordOfBytes b0 b1 b2 b3).extractLsb' 0 8 = b0 ∧ (wordOfBytes b0 b1 b2 b3).extractLsb' 8 8 = b1 ∧
      (wordOfBytes b0 b1 b2 b3).extractLsb' 16 8 = b2 ∧ (wordOfBytes b0 b1 b2 b3).extractLsb' 24 8 = b3 := by
  have hsum := wordOfBytes_toNat b0 b1 b2 b3
  have h0 := b0.isLt
  have h1 := b1.isLt
  have h2 := b2.isLt
  have h3 := b3.isLt
  refine ⟨extractLsb'_eq_of_toNat _ _ _ ?_, extractLsb'_eq_of_toNat _ _ _ ?_, extractLsb'_eq_of_toNat _ _ _ ?_,
    extractLsb'_eq_of_toNat _ _ _ ?_⟩
  all_goals omega

/-- The byte at offset `j` of a `BUF` word is bits `8j+7 : 8j`. -/
theorem State.bufWord_extractLsb' (s : State) (i j : Nat) (hj : j < 4) :
    (s.bufWord i).extractLsb' (8 * j) 8 = s.bufByte (bufOffset i + j) := by
  obtain ⟨h0, h1, h2, h3⟩ := wordOfBytes_fields (s.bufByte (bufOffset i)) (s.bufByte (bufOffset i + 1))
    (s.bufByte (bufOffset i + 2)) (s.bufByte (bufOffset i + 3))
  obtain rfl | rfl | rfl | rfl : j = 0 ∨ j = 1 ∨ j = 2 ∨ j = 3 := by omega
  · exact h0
  · exact h1
  · exact h2
  · exact h3

/-- The real part of a complex word is its lower half, the imaginary part its upper half. -/
theorem binOfWord_halves (w : Word) : binOfWord w = { re := w.setWidth 16, im := (w >>> 16).setWidth 16 } := by
  rw [binOfWord, BitVec.setWidth_ushiftRight_eq_extractLsb, BitVec.setWidth_eq_extractLsb' (by decide)]

end Sys2Proof.Machine
end

section
/-! Family 20_memory.md: the address map, the accesses of the host, and the words of `BUF`. -/

namespace Sys2Proof.Machine

/-- Settles O8: `resolve_ok` one way and `resolve_offsetOf` the other; the numbers are the map's own. -/
theorem addressMapRoundTrip : Obligations.AddressMapRoundTrip := by
  refine ⟨fun c hc width off l => ⟨resolve_ok c width off l, ?_⟩,
    ⟨rfl, rfl, rfl, rfl, rfl, rfl, rfl, rfl, rfl, rfl, rfl, rfl, rfl, rfl, rfl⟩,
    fun k => ⟨rfl, rfl, rfl, rfl, rfl, rfl, rfl⟩, fun c k => ⟨decide_eq_true_iff, ?_⟩, fun c => ?_⟩
  · rintro ⟨rfl, rfl, hl⟩
    exact resolve_offsetOf c l hc hl
  · simp [Loc.exists?]
  · simp [Loc.exists?]

/-- Settles O9: each of the three causes is refused by `resolve`, and `step_refused` says the rest. -/
theorem refusedAccessChangesNothing : Obligations.RefusedAccessChangesNothing := by
  intro s a width off rest _ hr hp ha
  refine ⟨fun hw => ?_, ?_, ?_⟩
  · exact step_refused hr hp ha (resolve_wrongWidth _ _ _ hw)
  · rintro rfl hmis
    exact step_refused hr hp ha (resolve_misaligned _ _ hmis)
  · rintro rfl halign hunlisted
    exact step_refused hr hp ha (resolve_unlisted _ _ halign hunlisted)

/-- Settles O10: the location's offset reaches it, and `step_read` gives the whole next state. -/
theorem readsHaveNoSideEffect : Obligations.ReadsHaveNoSideEffect := by
  intro s l rest hc hr hp hl
  have hstep := step_read hr hp (resolve_offsetOf s.cfg l hc hl)
  refine ⟨hstep, fun t ht => ?_⟩
  cases hstep.symm.trans ht
  exact ⟨rfl, rfl, rfl, rfl, rfl, rfl, rfl, rfl, rfl, rfl, rfl, rfl, rfl, rfl, rfl, rfl, rfl⟩

/-- Settles O11: `writeLoc_readOnly` for the writes, `step_read` for `CTRL` and `CMD`; the clause for `THRESH` is part
of what O12 says. -/
theorem readOnlyWritesAreIgnored : Obligations.ReadOnlyWritesAreIgnored := by
  refine ⟨fun s l w rest hc hr hp hl hreadOnly hbuf => ?_, fun s off rest hr hoff hp => ?_, fun s w rest hr hp => ?_⟩
  · rw [step_write hr hp (resolve_offsetOf s.cfg l hc hl), writeLoc_readOnly _ _ _ hreadOnly hbuf]
    rfl
  · obtain rfl | rfl := hoff
    · exact step_read (l := .ctrl) hr hp rfl
    · exact step_read (l := .cmd) hr hp rfl
  · obtain ⟨-, -, hthresh⟩ := operandRegistersAreTheHosts.1 s w rest hr
    obtain ⟨t, ht, rfl, -⟩ := hthresh hp
    exact ht

/-- Settles O14: the bytes from the word's sum, the halves by `binOfWord_halves`. -/
theorem bufIsLittleEndian : Obligations.BufIsLittleEndian := by
  intro s i j hj
  refine ⟨?_, binOfWord_halves _⟩
  rw [BitVec.setWidth_ushiftRight_eq_extractLsb, s.bufWord_extractLsb' i j hj]

/-- Settles O13: the write stores the word in `BUF[i]`; the word read back, its halves and the bytes around it are the
rules of `setBufWord`. -/
theorem bufWriteReadsBack : Obligations.BufWriteReadsBack := by
  intro s i w hc hi
  have hreach : resolve s.cfg 4 (bufOffset i) = .ok (.buf i) :=
    resolve_offsetOf s.cfg (.buf i) hc (decide_eq_true hi)
  have hword : ((s.answer .written).setBufWord i w).bufWord i = w := State.bufWord_setBufWord _ i w
  have hbin : ((s.answer .written).setBufWord i w).bin i = { re := w.setWidth 16, im := (w >>> 16).setWidth 16 } := by
    rw [State.bin, hword, binOfWord_halves]
  have hother : ∀ j, j ≠ i → ((s.answer .written).setBufWord i w).bin j = s.bin j := fun j hj =>
    congrArg binOfWord (State.bufWord_setBufWord_of_ne (s.answer .written) i j w hj)
  have hbyte : ∀ a, a < 0x10000 + 4 * i ∨ 0x10000 + 4 * i + 4 ≤ a →
      ((s.answer .written).setBufWord i w).bufByte a = s.bufByte a :=
    State.bufByte_setBufWord_of_outside (s.answer .written) i w
  refine ⟨(s.answer .written).setBufWord i w, ?_, rfl, hword, congrArg Bin.re hbin, congrArg Bin.im hbin, hother, hbyte⟩
  rw [← bufOffset, access, hreach]
  rfl

end Sys2Proof.Machine
end

section
/-! SUPPORT. The opcode map in both directions (spec/30_encoding.md R80, R81, R83), and the step that takes a write to
`CMD` (R84). -/

namespace Sys2Proof.Machine

/-! ### The opcode map -/

/-- The decoder reads every command back from its word. -/
@[simp] theorem decode_encode (i : Instr) : decode (encode i) = .ok i := by
  have hformat : Laws.CommandFormat.Statement i := by
    cases i with
    | fft => exact Laws.CommandFormat.fft
    | window => exact Laws.CommandFormat.window
    | peaks => exact Laws.CommandFormat.peaks
    | sched => exact Laws.CommandFormat.sched
    | adjust => exact Laws.CommandFormat.adjust
    | consume => exact Laws.CommandFormat.consume
    | next => exact Laws.CommandFormat.next
    | cmp => exact Laws.CommandFormat.cmp
  have hwf : i.wellFormed = true := by cases i <;> rfl
  obtain ⟨-, -, hdecode⟩ := hformat hwf
  exact hdecode

/-- A command word is its two fields, `ZERO` above `OPCODE` (R80). -/
theorem zeroField_append_opcodeField (w : Word) : zeroField w ++ opcodeField w = w := by
  refine BitVec.eq_of_toNat_eq ((toNat_append_eq_add _ _).trans ?_)
  simp only [zeroField, opcodeField, extractLsb'_toNat_eq]
  omega

/-- No two opcodes share a command: an opcode that decodes is its command's own (R81). -/
theorem eq_opcodeOf_of_decodeOpcode {op : Byte} {i : Instr} (h : decodeOpcode op = .ok i) : op = opcodeOf i := by
  unfold decodeOpcode at h
  split at h <;> cases h <;> exact BitVec.eq_of_toNat_eq ‹_›

/-- The decoder accepts the words of the commands and no other (R81, R83). -/
theorem decode_eq_ok_iff (w : Word) (i : Instr) : decode w = .ok i ↔ w = encode i := by
  refine ⟨fun h => ?_, fun h => h ▸ decode_encode i⟩
  unfold decode at h
  split at h
  next hzero => rw [← zeroField_append_opcodeField w, hzero, eq_opcodeOf_of_decodeOpcode h, encode]
  next => cases h

/-- The 32 bits of a command word, cut as the opcode table and the fetch cut them, are the word. -/
theorem ofNat_toNat_mod (w : Word) : BitVec.ofNat 32 (w.toNat % 2 ^ 32) = w := by
  rw [Nat.mod_eq_of_lt w.isLt, BitVec.ofNat_toNat, BitVec.setWidth_eq]

theorem decodeTableWord_encode (i : Instr) : decodeTableWord 32 (encode i).toNat = some i := by
  rw [decodeTableWord, if_pos le_rfl, ofNat_toNat_mod, decodeBytes_bytesOfWord, decode_encode]

/-- The words that decode to some command, as numbers: the opcodes of the map with `ZERO` 0. -/
theorem exists_decode_eq_ok_iff (w : Word) :
    (∃ i, decode w = .ok i) ↔ w.toNat ∈ [0x01, 0x02, 0x04, 0x05, 0x06, 0x07, 0x08, 0x09] := by
  simp only [decode_eq_ok_iff]
  constructor
  · rintro ⟨i, rfl⟩
    cases i <;> decide
  · intro h
    have hword : ∀ i : Instr, w.toNat = (encode i).toNat → ∃ j, w = encode j := fun i hi =>
      ⟨i, BitVec.eq_of_toNat_eq hi⟩
    simp only [List.mem_cons, List.not_mem_nil, or_false] at h
    obtain h | h | h | h | h | h | h | h := h
    · exact hword .fft h
    · exact hword .window h
    · exact hword .peaks h
    · exact hword .sched h
    · exact hword .adjust h
    · exact hword .consume h
    · exact hword .next h
    · exact hword .cmp h

/-- A word is illegal or a command's, and never both. -/
theorem exists_decode_eq_error_iff (w : Word) : (∃ e, decode w = .error e) ↔ ¬ ∃ i, decode w = .ok i := by
  cases decode w <;> simp

/-! ### The write to `CMD` -/

theorem commandWrite_of_ok {w : Word} {i : Instr} (s : State) (h : decode w = .ok i) :
    commandWrite s w = exec i s := by
  rw [commandWrite_eq, h, exec_eq]

theorem commandWrite_of_error {w : Word} {e : DecodeError} (s : State) (h : decode w = .error e) :
    commandWrite s w = .next s.illegalCommand := by
  rw [commandWrite_eq, h]

theorem State.illegalCommand_running (s : State) (h : s.status.fault = false) :
    s.illegalCommand = s.setErr .illegal := by
  simp only [State.illegalCommand, h, Bool.false_eq_true, if_false]

theorem State.illegalCommand_stopped (s : State) (h : s.status.fault = true) :
    s.illegalCommand = s.setErr .abort := by
  simp only [State.illegalCommand, h, if_true]

/-- The step that takes a write to `CMD` is that write on the state with the access taken and answered. -/
theorem step_cmdWrite {s : State} {w : Word} {rest : List HostInput} (hr : s.hardReset = false)
    (hp : s.pending = cmdWrite w :: rest) : step s = commandWrite { s with pending := rest, response := .written } w :=
  step_write (l := .cmd) hr hp rfl

end Sys2Proof.Machine
end

section
/-! Family 30_encoding.md: the opcode map, the illegal words, and the dispatch of a command word. -/

namespace Sys2Proof.Machine

/-- Settles O1: the bytes and the table's bits give the word back, and the word decides. -/
theorem commandWordsRoundTrip : Obligations.CommandWordsRoundTrip := by
  refine ⟨fun i _ => ⟨?_, decodeTableWord_encode i⟩, decode_eq_ok_iff⟩
  rw [decodeBytes_bytesOfWord, decode_encode]

/-- Settles O3: the illegal words are those outside the map's eight numbers, and `step_cmdWrite` carries one to
`illegalCommand`. -/
theorem illegalWordReportsOnly : Obligations.IllegalWordReportsOnly := by
  refine ⟨fun w => ?_, fun s w e rest hr hp he => ?_⟩
  · rw [exists_decode_eq_error_iff, exists_decode_eq_ok_iff]
    simp only [List.mem_cons, List.not_mem_nil, or_false]
    omega
  · rw [step_cmdWrite hr hp, commandWrite_of_error _ he]
    exact ⟨fun hf => congrArg _ (State.illegalCommand_running _ hf),
      fun hf => congrArg _ (State.illegalCommand_stopped _ hf)⟩

/-- Settles O2: each number is the word of its command. -/
theorem opcodeMapWords : Obligations.OpcodeMapWords :=
  ⟨decode_encode .fft, decode_encode .window, decode_encode .peaks, decode_encode .sched, decode_encode .adjust,
    decode_encode .consume, decode_encode .next, decode_encode .cmp⟩

/-- Settles O4: `step_cmdWrite` for both clauses; the word that `withFetchWord` places is the command's own. -/
theorem stepRunsDecodedCommand : Obligations.StepRunsDecodedCommand := by
  refine ⟨fun s w i rest hr hp hw _ => ?_, fun s i _ => ?_⟩
  · rw [step_cmdWrite hr hp, commandWrite_of_ok _ hw]
  · rw [State.withFetchWord, ofNat_toNat_mod, step_cmdWrite (w := encode i) (rest := s.pending) rfl rfl,
      commandWrite_of_ok _ (decode_encode i)]
    rfl

end Sys2Proof.Machine
end

section
/-! SUPPORT. The arithmetic primitives by their values (spec/40_fixed_point_primitives.md): the rounding of the two
products, the root as the library's `Nat.sqrt`, the phase as `REF_PHASE` itself, the two directions of the wrapping
difference. -/

namespace Sys2Proof.Machine

/-! ### The rounded products (R103, R104) -/

/-- R103: `sf_apply` is within half of `x * v / 65536`, the upper half included. -/
theorem sfApply_round (v : Half) (x : Int) :
    2 * (x * v.toNat) - 65536 < 2 * 65536 * sfApply v x ∧ 2 * 65536 * sfApply v x ≤ 2 * (x * v.toNat) + 65536 := by
  rw [sfApply_eq]
  omega

/-- R103: `sf_apply` grows with the exact product. -/
theorem sfApply_le_sfApply {u v : Half} {x y : Int} (h : x * (v.toNat : Int) ≤ y * (u.toNat : Int)) :
    sfApply v x ≤ sfApply u y := by
  rw [sfApply_eq, sfApply_eq]
  omega

theorem sfApply_bounds_of_nonneg (v : Half) (x : Int) (hx : 0 ≤ x) : 0 ≤ sfApply v x ∧ sfApply v x ≤ x := by
  have hlo : 0 ≤ x * (v.toNat : Int) := by positivity
  have hhi : x * (v.toNat : Int) ≤ x * 65536 := Int.mul_le_mul_of_nonneg_left (by omega) hx
  have := sfApply_round v x
  omega

theorem sfApply_bounds_of_nonpos (v : Half) (x : Int) (hx : x ≤ 0) : x ≤ sfApply v x ∧ sfApply v x ≤ 0 := by
  have hlo : x * 65536 ≤ x * (v.toNat : Int) := Int.mul_le_mul_of_nonpos_left hx (by omega)
  have hhi : x * (v.toNat : Int) ≤ 0 := Int.mul_nonpos_of_nonpos_of_nonneg hx (by positivity)
  have := sfApply_round v x
  omega

theorem abs_sfApply_le (v : Half) (x : Int) : |sfApply v x| ≤ |x| := by
  obtain hx | hx := le_total 0 x
  · obtain ⟨hlo, hhi⟩ := sfApply_bounds_of_nonneg v x hx
    rwa [abs_of_nonneg hlo, abs_of_nonneg hx]
  · obtain ⟨hlo, hhi⟩ := sfApply_bounds_of_nonpos v x hx
    rw [abs_of_nonpos hhi, abs_of_nonpos hx]
    exact neg_le_neg hlo

/-- R103: the highest factor falls short of 1 by one part in 65536, so `x` is kept while that part of it rounds
away. -/
theorem sfApply_highest (x : Int) : sfApply 0xFFFF x = x + (32768 - x) / 65536 := by
  have hmax : (0xFFFF : Half).toNat = 65535 := rfl
  rw [sfApply_eq, hmax]
  omega

/-- R104: the Q15 product is within half of `a * b / 32768`, the upper half included. -/
theorem qmul_round (a b : Int) :
    2 * (a * b) - 32768 < 2 * 32768 * qmul a b ∧ 2 * 32768 * qmul a b ≤ 2 * (a * b) + 32768 := by
  rw [qmul_eq]
  omega

theorem abs_mul_le_of_twiddle (a : Int) (b : Half) (hlo : -32767 ≤ a) (hhi : a ≤ 32767) :
    |a * b.toInt| ≤ 32767 * 32768 := by
  have ha : |a| ≤ 32767 := abs_le.2 ⟨hlo, hhi⟩
  have hb : |b.toInt| ≤ 32768 := abs_le.2 ⟨b.le_toInt, b.toInt_lt.le⟩
  rw [abs_mul]
  exact mul_le_mul ha hb (abs_nonneg _) (by norm_num)

/-! ### The squared magnitude and its root (R105, R106) -/

theorem sqmag_cast (re im : Int) : (sqmag re im : Int) = re * re + im * im :=
  Int.toNat_of_nonneg (add_nonneg (mul_self_nonneg re) (mul_self_nonneg im))

/-- The loop's other half (`isqrtBits_sq_le` is the first): a bit it leaves out would exceed the root. -/
theorem isqrtBits_lt_succ_sq (n bits root : Nat) (h : n < (root + 2 ^ bits) * (root + 2 ^ bits)) :
    n < (isqrtBits n bits root + 1) * (isqrtBits n bits root + 1) := by
  induction bits generalizing root with
  | zero => exact h
  | succ bits ih =>
    simp only [isqrtBits]
    split
    · refine ih _ ?_
      rwa [add_assoc, ← two_mul, ← pow_succ']
    · exact ih _ (by omega)

/-- R106: on its domain `isqrt` is the library's floor of the square root. -/
theorem isqrt_eq_sqrt (n : Nat) (h : n ≤ 2 ^ 32 - 1) : isqrt n = n.sqrt :=
  Nat.eq_sqrt.2 ⟨isqrt_sq_le n, isqrtBits_lt_succ_sq n 16 0 (by omega)⟩

theorem isqrt_mono {a b : Nat} (hab : a ≤ b) (hb : b ≤ 2 ^ 32 - 1) : isqrt a ≤ isqrt b := by
  rw [isqrt_eq_sqrt a (hab.trans hb), isqrt_eq_sqrt b hb]
  exact Nat.sqrt_le_sqrt hab

/-- The root of the highest squared magnitude (R105). -/
theorem isqrt_two_pow_31 : isqrt (2 ^ 31) = 46340 := by
  rw [isqrt_eq_sqrt _ (by norm_num)]
  exact (Nat.eq_sqrt.2 (by norm_num)).symm

theorem isqrt_sqmag_le (re im : Half) : isqrt (sqmag re.toInt im.toInt) ≤ 46340 :=
  isqrt_two_pow_31 ▸ isqrt_mono (sqmag_le re im) (by norm_num)

/-! ### The reference phase (R107, R108) -/

theorem refPhase_lt (re im : Int) : refPhase re im < 65536 := by
  unfold refPhase
  split
  · norm_num
  · exact Nat.mod_lt _ (by norm_num)

/-- R107, R108: `REF_PHASE` fits in the 16 bits of a phase, so nothing of it is lost. -/
theorem phaseOf_reference_toNat (re im : Half) : (phaseOf .reference re im).toNat = refPhase re.toInt im.toInt :=
  Nat.mod_eq_of_lt (refPhase_lt _ _)

/-! ### The wrapping difference (R109, R110) -/

theorem isFuture_eq_true_iff (a b : Instant) : isFuture a b = true ↔ (tdiff a b).toNat < 2 ^ 31 := decide_eq_true_iff

theorem isFuture_eq_false_iff (a b : Instant) : isFuture a b = false ↔ 2 ^ 31 ≤ (tdiff a b).toNat := by
  rw [isFuture, decide_eq_false_iff_not, not_lt]

/-- The way back completes the way forward to a full turn of the counter. -/
theorem tdiff_toNat_swap (a b : Instant) : (tdiff b a).toNat = (2 ^ 32 - (tdiff a b).toNat) % 2 ^ 32 := by
  have := a.isLt
  have := b.isLt
  rw [tdiff_toNat, tdiff_toNat]
  omega

theorem tdiff_toNat_eq_zero_iff (a b : Instant) : (tdiff a b).toNat = 0 ↔ a = b := by
  rw [← BitVec.toNat_inj, tdiff_toNat]
  have := a.isLt
  have := b.isLt
  omega

end Sys2Proof.Machine
end

section
/-! Family 40_fixed_point_primitives.md: what each arithmetic primitive gives. -/

namespace Sys2Proof.Machine

/-- Settles O24: the remainder modulo 65536, moved by half the range. -/
theorem wrap16IsTheCongruentValue : Obligations.Wrap16IsTheCongruentValue := by
  refine ⟨fun v => ?_, fun v hlo hhi => ?_, rfl, rfl⟩
  all_goals
    simp only [wrap16]
    omega

/-- Settles O25: the rounding bound fixes the value, and both monotonicities are those of the exact product. -/
theorem sfApplyRoundsAndShrinks : Obligations.SfApplyRoundsAndShrinks := by
  intro v x
  refine ⟨sfApply_round v x, ?_, ?_, abs_sfApply_le v x, fun hlo hhi => ?_, rfl, fun y hxy => ?_,
    fun u hx hvu => ?_⟩
  · simp [sfApply_eq]
  · simp [sfApply_eq]
  · rw [sfApply_highest]
    omega
  · exact sfApply_le_sfApply (Int.mul_le_mul_of_nonneg_right hxy (by positivity))
  · exact sfApply_le_sfApply (Int.mul_le_mul_of_nonneg_left (by exact_mod_cast hvu) hx)

/-- Settles O26: the product is at most `32767 * 32768` in magnitude, which rounds to at most 32767. -/
theorem qmulNeedsNoNarrowing : Obligations.QmulNeedsNoNarrowing := by
  intro a b hlo hhi
  have hround := qmul_round a b.toInt
  obtain ⟨hmin, hmax⟩ := abs_le.1 (abs_mul_le_of_twiddle a b hlo hhi)
  exact ⟨by omega, by omega, hround⟩

/-- Settles O27: the root through `isqrt_eq_sqrt`, the phase through `phaseOf_reference_toNat`. -/
theorem isqrtIsFloorOfRoot : Obligations.IsqrtIsFloorOfRoot := by
  refine ⟨fun n hn => Nat.eq_sqrt.1 (isqrt_eq_sqrt n hn), fun a b => isqrt_mono,
    fun re im => ⟨sqmag_cast _ _, sqmag_le re im, isqrt_sqmag_le re im⟩, isqrt_two_pow_31, fun re im => ?_⟩
  have hzero : ∀ x : Half, x.toInt = 0 ↔ x = 0 := fun x => by rw [← BitVec.toInt_inj]; rfl
  simp only [phaseOf_reference_toNat, refPhase, hzero]

/-- Settles O28: the difference as a number, once in each direction. -/
theorem wrappingDifference : Obligations.WrappingDifference := by
  intro a b
  have hlt := (tdiff a b).isLt
  have hswap := tdiff_toNat_swap a b
  refine ⟨?_, add_sub_cancel a b, isFuture_eq_true_iff a b, ?_, ?_, Nat.le_sub_one_of_lt (effOffset_lt a b), ?_, ?_⟩
  · rw [tdiff_toNat]
    omega
  · rw [isFuture_eq_true_iff, (tdiff_toNat_eq_zero_iff a a).2 rfl]
    norm_num
  · simp only [effOffset, isFuture_eq_true_iff]
  · rw [isFuture_eq_false_iff, isFuture_eq_false_iff]
    omega
  · rw [isFuture_eq_true_iff, isFuture_eq_true_iff, ← tdiff_toNat_eq_zero_iff]
    omega

/-- Settles O29: one outcome of `narrow` for each case. -/
theorem narrowFollowsThePolicy : Obligations.NarrowFollowsThePolicy := by
  intro mode v lo hi hb
  refine ⟨fun hlo hhi => narrow_of_fits mode v lo hi ⟨hlo, hhi⟩, fun hout hmode => ?_, fun hout hmode => ?_,
    fun hout hmode => ?_⟩
  · rw [hmode, narrow_fault v lo hi (by omega)]
  · rw [hmode, narrow_saturate v lo hi (by omega), if_pos hout]
  · rw [hmode, narrow_saturate v lo hi (by omega), if_neg (by omega)]

end Sys2Proof.Machine
end

section
/-! SUPPORT. The FFT by its parts (spec/41_fft.md): bit reversal bit by bit, the words of a buffer after one butterfly,
a stage as one pass over its butterflies, and the buffers between the stages. -/

namespace Sys2Proof.Machine

/-! ### Bit reversal (R121) -/

theorem bitrev_lt (bits i : Nat) : bitrev bits i < 2 ^ bits := by
  induction bits generalizing i with
  | zero => exact Nat.one_pos
  | succ n ih =>
    have htail := ih (i / 2)
    obtain hbit | hbit := Nat.mod_two_eq_zero_or_one i
    all_goals
      simp only [bitrev, hbit, pow_succ]
      omega

/-- Bit `k` of the reversed index is bit `bits - 1 - k` of the index, and there is none from `bits` on. -/
theorem testBit_bitrev (bits i k : Nat) :
    (bitrev bits i).testBit k = (decide (k < bits) && i.testBit (bits - 1 - k)) := by
  induction bits generalizing i with
  | zero => simp [bitrev]
  | succ n ih =>
    rw [bitrev, mul_comm, Nat.testBit_two_pow_mul_add _ (bitrev_lt n _)]
    obtain hk | rfl | hk := lt_trichotomy k n
    · have hpos : n + 1 - 1 - k = n - 1 - k + 1 := by omega
      rw [if_pos hk, ih, hpos, Nat.testBit_succ, decide_eq_true hk, decide_eq_true (hk.trans n.lt_succ_self)]
    · simp [Nat.testBit_zero]
    · have hzero : (i % 2).testBit (k - n) = false :=
        Nat.testBit_lt_two_pow ((Nat.mod_lt i two_pos).trans_le (Nat.le_self_pow (by omega) 2))
      rw [if_neg (by omega), hzero, decide_eq_false (by omega), Bool.false_and]

/-- Reading the bits backwards twice restores the index (R121). -/
theorem bitrev_bitrev (bits i : Nat) (h : i < 2 ^ bits) : bitrev bits (bitrev bits i) = i := by
  refine Nat.eq_of_testBit_eq fun k => ?_
  rw [testBit_bitrev, testBit_bitrev]
  obtain hk | hk := lt_or_ge k bits
  · rw [decide_eq_true hk, decide_eq_true (show bits - 1 - k < bits by omega), Bool.true_and, Bool.true_and,
      show bits - 1 - (bits - 1 - k) = k by omega]
  · rw [decide_eq_false (not_lt.2 hk), Bool.false_and,
      Nat.testBit_lt_two_pow (h.trans_le (Nat.pow_le_pow_right two_pos hk))]

/-! ### The words of a buffer (R122, spec/20_memory.md R68) -/

theorem binAt_eq_getElem (b : List Bin) (i : Nat) (h : i < b.length) : binAt b i = b[i] := List.getD_eq_getElem b _ h

theorem binAt_set_self (b : List Bin) (i : Nat) (x : Bin) (h : i < b.length) : binAt (b.set i x) i = x := by
  rw [binAt_eq_getElem _ _ (by rwa [List.length_set]), List.getElem_set_self]

theorem binAt_set_of_ne (b : List Bin) (i j : Nat) (x : Bin) (h : j ≠ i) : binAt (b.set i x) j = binAt b j := by
  rw [binAt, binAt, List.getD_eq_getElem?_getD, List.getElem?_set_ne h.symm, List.getD_eq_getElem?_getD]

theorem binAt_loadBuf (s : State) (i : Nat) (h : i < s.cfg.nfft) : binAt s.loadBuf i = s.bin i := by
  rw [binAt_eq_getElem _ _ (by rwa [State.loadBuf_length]), State.loadBuf_getElem s i h]

@[simp] theorem bitReversed_length (c : Config) (b : List Bin) : (bitReversed c b).length = c.nfft := by
  rw [bitReversed, List.length_map, List.length_range]

/-- R122: word `i` after the permutation is word `bitrev(i)` before it. -/
theorem binAt_bitReversed (c : Config) (b : List Bin) (i : Nat) (h : i < c.nfft) :
    binAt (bitReversed c b) i = binAt b (bitrev c.nlog2 i) := by
  rw [binAt_eq_getElem _ _ (by rwa [bitReversed_length])]
  simp only [bitReversed, List.getElem_map, List.getElem_range]

/-! ### One butterfly (R124) -/

theorem binAt_butterfly_upper (w : Twiddle) (i k : Nat) (b : List Bin) (h : i < b.length) :
    binAt (butterfly w i k b) i = butterflyUpper w (binAt b i) (binAt b k) :=
  binAt_set_self _ i _ (by rwa [List.length_set])

theorem binAt_butterfly_lower (w : Twiddle) (i k : Nat) (b : List Bin) (h : k < b.length) (hne : k ≠ i) :
    binAt (butterfly w i k b) k = butterflyLower w (binAt b i) (binAt b k) := by
  rw [butterfly, binAt_set_of_ne _ i k _ hne, binAt_set_self b k _ h]

/-- A butterfly touches its two words only. -/
theorem binAt_butterfly_of_ne (w : Twiddle) (i k j : Nat) (b : List Bin) (hi : j ≠ i) (hk : j ≠ k) :
    binAt (butterfly w i k b) j = binAt b j := by
  rw [butterfly, binAt_set_of_ne _ i j _ hi, binAt_set_of_ne b k j _ hk]

/-- The stored half is the floored half, reduced by `wrap16`: the 16 bits lose nothing of it. -/
theorem halved_toInt (v : Int) : (halved v).toInt = wrap16 (v / 2) := by
  have hhalf : v >>> (1 : Nat) = v / 2 := by rw [Int.shiftRight_eq_div_pow]; rfl
  rw [halved, hhalf, BitVec.toInt_ofInt]
  simp only [wrap16, Int.bmod_def]
  omega

/-! ### A stage as one pass over its butterflies (R125) -/

/-- The upper word of butterfly `p = (m, t)` of stage `s`: position `m` in block `t`. -/
def upperIndex (s : Nat) (p : Nat × Nat) : Nat := p.1 + p.2 * 2 ^ (s + 1)

/-- The lower word of butterfly `p` of stage `s`, half a block above the upper one. -/
def lowerIndex (s : Nat) (p : Nat × Nat) : Nat := upperIndex s p + 2 ^ s

/-- Butterfly `p = (m, t)` of stage `s`, on a buffer. -/
def stageButterfly (c : Config) (s : Nat) (b : List Bin) (p : Nat × Nat) : List Bin :=
  butterfly (twiddle c s p.1) (upperIndex s p) (lowerIndex s p) b

/-- The butterflies of stage `s` in the order of R125, each as its position and its block. -/
def stagePairs (c : Config) (s : Nat) : List (Nat × Nat) := List.range (2 ^ s) ×ˢ List.range (c.nfft / 2 ^ (s + 1))

theorem stage_eq_foldl (c : Config) (b : List Bin) (s : Nat) :
    stage c b s = (stagePairs c s).foldl (stageButterfly c s) b := by
  have hpairs : stagePairs c s =
      (List.range (2 ^ s)).flatMap fun m => (List.range (c.nfft / 2 ^ (s + 1))).map (Prod.mk m) := rfl
  rw [hpairs, List.foldl_flatMap]
  simp only [List.foldl_map]
  rfl

theorem stagePairs_nodup (c : Config) (s : Nat) : (stagePairs c s).Nodup := List.nodup_range.product List.nodup_range

theorem mem_stagePairs (c : Config) (s : Nat) (p : Nat × Nat) :
    p ∈ stagePairs c s ↔ p.1 < 2 ^ s ∧ p.2 < c.nfft / 2 ^ (s + 1) := by
  obtain ⟨m, t⟩ := p
  rw [stagePairs, List.mem_product, List.mem_range, List.mem_range]

theorem lowerIndex_ne_upperIndex (s : Nat) (p : Nat × Nat) : lowerIndex s p ≠ upperIndex s p :=
  (Nat.lt_add_of_pos_right (Nat.two_pow_pos s)).ne'

/-- Both words of a butterfly lie in the buffer. -/
theorem lowerIndex_lt_nfft {c : Config} {s : Nat} {p : Nat × Nat} (h : p ∈ stagePairs c s) :
    lowerIndex s p < c.nfft := by
  obtain ⟨hm, ht⟩ := (mem_stagePairs c s p).1 h
  have hblocks : (p.2 + 1) * 2 ^ (s + 1) ≤ c.nfft :=
    (Nat.mul_le_mul_right _ ht).trans (Nat.div_mul_le_self c.nfft (2 ^ (s + 1)))
  rw [add_mul, one_mul, pow_succ] at hblocks
  rw [lowerIndex, upperIndex, pow_succ]
  omega

/-- The two words of butterfly `p` of stage `s`. -/
def StageTouches (s : Nat) (p : Nat × Nat) (j : Nat) : Prop := j = upperIndex s p ∨ j = lowerIndex s p

/-- A word tells the butterfly it is in: its block and its position within a half block. -/
theorem StageTouches.eq_div_mod {s : Nat} {p : Nat × Nat} {j : Nat} (h : StageTouches s p j) (hm : p.1 < 2 ^ s) :
    p = (j % 2 ^ s, j / 2 ^ (s + 1)) := by
  obtain ⟨m, t⟩ := p
  have hpos := Nat.two_pow_pos s
  have hdiv : ∀ r, r < 2 ^ (s + 1) → (r + t * 2 ^ (s + 1)) / 2 ^ (s + 1) = t := fun r hr => by
    rw [Nat.add_mul_div_right _ _ (Nat.two_pow_pos _), Nat.div_eq_of_lt hr, zero_add]
  have hmod : ∀ q, (m + q * 2 ^ s) % 2 ^ s = m := fun q => by rw [Nat.add_mul_mod_self_right, Nat.mod_eq_of_lt hm]
  have hstep : 2 ^ (s + 1) = 2 ^ s + 2 ^ s := by rw [pow_succ, mul_two]
  obtain rfl | rfl := h
  · have hup : upperIndex s (m, t) = m + 2 * t * 2 ^ s := by rw [upperIndex, pow_succ]; ring
    exact Prod.ext (hup ▸ (hmod _).symm) (hdiv m (by omega)).symm
  · have hlow : lowerIndex s (m, t) = m + (2 * t + 1) * 2 ^ s := by rw [lowerIndex, upperIndex, pow_succ]; ring
    have hlow' : lowerIndex s (m, t) = m + 2 ^ s + t * 2 ^ (s + 1) := by rw [lowerIndex, upperIndex]; ring
    exact Prod.ext (hlow ▸ (hmod _).symm) (hlow' ▸ (hdiv _ (by omega)).symm)

/-- The butterflies of a stage touch disjoint pairs of words. -/
theorem StageTouches.unique {c : Config} {s : Nat} {p q : Nat × Nat} {j : Nat} (hp : p ∈ stagePairs c s)
    (hq : q ∈ stagePairs c s) (hpj : StageTouches s p j) (hqj : StageTouches s q j) : p = q := by
  obtain ⟨hpm, -⟩ := (mem_stagePairs c s p).1 hp
  obtain ⟨hqm, -⟩ := (mem_stagePairs c s q).1 hq
  rw [hpj.eq_div_mod hpm, hqj.eq_div_mod hqm]

@[simp] theorem stageButterfly_length (c : Config) (s : Nat) (b : List Bin) (p : Nat × Nat) :
    (stageButterfly c s b p).length = b.length := butterfly_length _ _ _ _

theorem binAt_stageButterfly_of_untouched (c : Config) (s : Nat) (b : List Bin) (p : Nat × Nat) (j : Nat)
    (h : ¬ StageTouches s p j) : binAt (stageButterfly c s b p) j = binAt b j := by
  obtain ⟨hup, hlow⟩ := not_or.1 h
  exact binAt_butterfly_of_ne _ _ _ _ _ hup hlow

/-- A word that none of a run of butterflies touches is kept. -/
theorem binAt_foldl_of_untouched (c : Config) (s : Nat) (l : List (Nat × Nat)) (b : List Bin) (j : Nat)
    (h : ∀ p ∈ l, ¬ StageTouches s p j) : binAt (l.foldl (stageButterfly c s) b) j = binAt b j := by
  induction l generalizing b with
  | nil => rfl
  | cons p l ih =>
    obtain ⟨hp, hl⟩ := List.forall_mem_cons.1 h
    rw [List.foldl_cons, ih _ hl, binAt_stageButterfly_of_untouched c s b p j hp]

/-- In a run of butterflies of a stage without repetition each reads its two words as they were before the run: the ones
before it in the run touch neither, and the ones after it keep what it wrote. -/
theorem binAt_foldl_of_mem (c : Config) (s : Nat) (l : List (Nat × Nat)) (b : List Bin) (p : Nat × Nat)
    (hl : l.Nodup) (hsub : ∀ q ∈ l, q ∈ stagePairs c s) (hp : p ∈ l) (hb : b.length = c.nfft) :
    binAt (l.foldl (stageButterfly c s) b) (upperIndex s p) =
        butterflyUpper (twiddle c s p.1) (binAt b (upperIndex s p)) (binAt b (lowerIndex s p)) ∧
      binAt (l.foldl (stageButterfly c s) b) (lowerIndex s p) =
        butterflyLower (twiddle c s p.1) (binAt b (upperIndex s p)) (binAt b (lowerIndex s p)) := by
  have hother : ∀ q ∈ l, q ≠ p → ∀ j, StageTouches s p j → ¬ StageTouches s q j :=
    fun q hq hne j hpj hqj => hne (StageTouches.unique (hsub q hq) (hsub p hp) hqj hpj)
  induction l generalizing b with
  | nil => exact absurd hp List.not_mem_nil
  | cons q l ih =>
    obtain ⟨hql, hl⟩ := List.nodup_cons.1 hl
    obtain ⟨hq, hrest⟩ := List.forall_mem_cons.1 hother
    rw [List.foldl_cons]
    obtain rfl | hpl := List.mem_cons.1 hp
    · have hlow : lowerIndex s p < b.length := hb ▸ lowerIndex_lt_nfft (hsub p hp)
      have hup : upperIndex s p < b.length := (Nat.le_add_right _ _).trans_lt hlow
      have hkept : ∀ j, StageTouches s p j → ∀ r ∈ l, ¬ StageTouches s r j := fun j hj r hr =>
        hrest r hr (ne_of_mem_of_not_mem hr hql) j hj
      rw [binAt_foldl_of_untouched c s l _ _ (hkept _ (.inl rfl)),
        binAt_foldl_of_untouched c s l _ _ (hkept _ (.inr rfl))]
      exact ⟨binAt_butterfly_upper _ _ _ b hup, binAt_butterfly_lower _ _ _ b hlow (lowerIndex_ne_upperIndex s p)⟩
    · have hqp : q ≠ p := fun h => hql (h ▸ hpl)
      have hsame : ∀ j, StageTouches s p j → binAt (stageButterfly c s b q) j = binAt b j := fun j hj =>
        binAt_stageButterfly_of_untouched c s b q j (hq hqp j hj)
      have hstage := ih (stageButterfly c s b q) hl (fun r hr => hsub r (.tail _ hr)) hpl
        ((stageButterfly_length c s b q).trans hb) hrest
      rwa [hsame _ (.inl rfl), hsame _ (.inr rfl)] at hstage

/-! ### Twiddle indices (R123) -/

/-- The twiddle index of every stage and position is in the first half of the period. -/
theorem twiddleIndex_lt (c : Config) (s m : Nat) (hs : s < c.nlog2) (hm : m < 2 ^ s) :
    m * (c.nfft / 2 ^ (s + 1)) < c.nfft / 2 := by
  obtain ⟨r, hr⟩ := Nat.exists_eq_add_of_lt hs
  have hstride : c.nfft / 2 ^ (s + 1) = 2 ^ r := by
    rw [Config.nfft, Nat.pow_div hs two_pos]
    congr 1
    omega
  have hhalf : c.nfft / 2 = 2 ^ s * 2 ^ r := by rw [Config.nfft, hr, pow_succ, pow_add, Nat.mul_div_cancel _ two_pos]
  rw [hstride, hhalf]
  exact Nat.mul_lt_mul_of_pos_right hm (Nat.two_pow_pos r)

/-- A buffer has at least four words, so a quarter of the period is a whole number of table entries (R8). -/
theorem nfft_eq_four_mul (c : Config) (h : 2 ≤ c.nlog2) : ∃ q, 0 < q ∧ c.nfft = 4 * q :=
  ⟨2 ^ (c.nlog2 - 2), Nat.two_pow_pos _, by rw [Config.nfft, ← Nat.pow_add 2 2, Nat.add_sub_cancel' h]⟩

theorem sineAt_eq_getElem (c : Config) (i : Nat) (h : i < c.sine.length) : sineAt c i = c.sine[i].toInt :=
  congrArg BitVec.toInt (List.getD_eq_getElem c.sine _ h)

/-! ### The whole transform (R125) -/

/-- The buffer before stage `k`: bit reversal, then stages 0 to `k - 1`. -/
def bufBeforeStage (c : Config) (b : List Bin) (k : Nat) : List Bin := (List.range k).foldl (stage c) (bitReversed c b)

theorem bufBeforeStage_succ (c : Config) (b : List Bin) (k : Nat) :
    bufBeforeStage c b (k + 1) = stage c (bufBeforeStage c b k) k := by
  rw [bufBeforeStage, List.range_succ, List.foldl_append]
  rfl

theorem bufBeforeStage_length (c : Config) (b : List Bin) (k : Nat) : (bufBeforeStage c b k).length = c.nfft := by
  induction k with
  | zero => exact bitReversed_length c b
  | succ k ih => rw [bufBeforeStage_succ, stage_length, ih]

/-- With no stage left the transform is done. -/
theorem bufBeforeStage_nlog2 (c : Config) (b : List Bin) : bufBeforeStage c b c.nlog2 = fftOf c b := rfl

/-- Outside the stopped state FFT stores the transform of `BUF` in `BUF`, with `ERR = OK` (R120). -/
theorem exec_fft (s : State) (hf : s.status.fault = false) :
    exec .fft s = .next ((s.setErr .ok).storeBuf (fftOf s.cfg s.loadBuf)) :=
  exec_running .fft s hf

theorem loadBuf_storeBuf_fftOf (s : State) (e : ErrCode) :
    ((s.setErr e).storeBuf (fftOf s.cfg s.loadBuf)).loadBuf = fftOf s.cfg s.loadBuf :=
  State.loadBuf_storeBuf _ _ (fftOf_length s.cfg s.loadBuf)

theorem bin_storeBuf_fftOf (s : State) (e : ErrCode) (i : Nat) (h : i < s.cfg.nfft) :
    ((s.setErr e).storeBuf (fftOf s.cfg s.loadBuf)).bin i = binAt (fftOf s.cfg s.loadBuf) i := by
  have hlen : i < (fftOf s.cfg s.loadBuf).length := by rwa [fftOf_length]
  rw [State.bin_storeBuf _ _ i hlen, binAt_eq_getElem _ i hlen]

/-! ### The transform of zeros (R128) -/

/-- A buffer of `n` zero words. -/
def zeroBuf (n : Nat) : List Bin := List.replicate n { re := 0, im := 0 }

theorem binAt_zeroBuf (n i : Nat) : binAt (zeroBuf n) i = { re := 0, im := 0 } := by
  obtain h | h := lt_or_ge i n
  · exact List.getD_replicate _ h
  · exact List.getD_eq_default _ _ (by rwa [zeroBuf, List.length_replicate])

/-- `qmul(w, 0) = 0` and `(0 + 0) >> 1 = 0`: a butterfly of two zero words leaves both zero. -/
theorem butterfly_outputs_zero (w : Twiddle) :
    butterflyUpper w { re := 0, im := 0 } { re := 0, im := 0 } = { re := 0, im := 0 } ∧
      butterflyLower w { re := 0, im := 0 } { re := 0, im := 0 } = { re := 0, im := 0 } := by
  have hmul : ∀ a : Int, qmul a 0 = 0 := fun a => by rw [qmul_eq, mul_zero]; rfl
  have hhalf : halved 0 = 0 := rfl
  simp [butterflyUpper, butterflyLower, rotatedRe, rotatedIm, hmul, hhalf]

theorem butterfly_zeroBuf (w : Twiddle) (i k n : Nat) : butterfly w i k (zeroBuf n) = zeroBuf n := by
  obtain ⟨hup, hlow⟩ := butterfly_outputs_zero w
  rw [butterfly, binAt_zeroBuf, binAt_zeroBuf, hup, hlow, zeroBuf, List.set_replicate_self, List.set_replicate_self]

theorem stage_zeroBuf (c : Config) (s n : Nat) : stage c (zeroBuf n) s = zeroBuf n := by
  rw [stage_eq_foldl]
  exact List.foldl_fixed' (fun p => butterfly_zeroBuf _ _ _ n) _

theorem bitReversed_zeroBuf (c : Config) : bitReversed c (zeroBuf c.nfft) = zeroBuf c.nfft := by
  refine List.eq_replicate_iff.2 ⟨bitReversed_length c _, fun x hx => ?_⟩
  obtain ⟨i, -, rfl⟩ := List.mem_map.1 hx
  exact binAt_zeroBuf _ _

theorem fftOf_zeroBuf (c : Config) : fftOf c (zeroBuf c.nfft) = zeroBuf c.nfft := by
  rw [fftOf, bitReversed_zeroBuf]
  exact List.foldl_fixed' (fun s => stage_zeroBuf c s c.nfft) _

theorem loadBuf_eq_zeroBuf (s : State) (h : ∀ i, i < s.cfg.nfft → s.bin i = { re := 0, im := 0 }) :
    s.loadBuf = zeroBuf s.cfg.nfft := by
  refine List.eq_replicate_iff.2 ⟨s.loadBuf_length, fun x hx => ?_⟩
  obtain ⟨i, hi, rfl⟩ := List.mem_map.1 hx
  exact h i (List.mem_range.1 hi)

end Sys2Proof.Machine
end

section
/-! Family 41_fft.md: bit reversal, twiddle factors, one stage, and the whole transform. -/

namespace Sys2Proof.Machine

/-- Settles O31: bit `bits - 1 - b` of the reversed index is bit `b`, and the involution turns the permutation round. -/
theorem bitReversalSwapsPairs : Obligations.BitReversalSwapsPairs := by
  refine ⟨fun bits i hi => ⟨bitrev_lt bits i, bitrev_bitrev bits i hi, fun b hb => ?_⟩,
    fun c b _ => ⟨bitReversed_length c b, fun i hi => ⟨binAt_bitReversed c b i hi, ?_⟩⟩⟩
  · rw [testBit_bitrev, decide_eq_true (by omega), Bool.true_and, show bits - 1 - (bits - 1 - b) = b by omega]
  · rw [binAt_bitReversed c b _ (bitrev_lt c.nlog2 i), bitrev_bitrev c.nlog2 i hi]

/-- Settles O32: the index is below half the period and the table three quarters of it long. -/
theorem twiddlesStayInTheTable : Obligations.TwiddlesStayInTheTable := by
  intro c hc
  obtain ⟨⟨hlog, -⟩, -, -, -, hsine, -⟩ := Config_wellFormed_parts c hc
  obtain ⟨q, hq, hnfft⟩ := nfft_eq_four_mul c hlog
  refine ⟨fun s m hs hm => ?_, ?_⟩
  · have hj := twiddleIndex_lt c s m hs hm
    have hre : m * (c.nfft / 2 ^ (s + 1)) + c.nfft / 4 < c.sine.length := by omega
    have him : m * (c.nfft / 2 ^ (s + 1)) < c.sine.length := by omega
    exact ⟨hj, ⟨hre, sineAt_eq_getElem c _ hre⟩, him, congrArg Neg.neg (sineAt_eq_getElem c _ him)⟩
  · have hstride : c.nfft / 2 ^ (c.nlog2 - 1 + 1) = 1 := by
      rw [Nat.sub_add_cancel (by omega)]
      exact Nat.div_self (Nat.two_pow_pos _)
    have hhalf : c.nfft = 2 * 2 ^ (c.nlog2 - 1) := by rw [Config.nfft, mul_pow_sub_one (by omega)]
    rw [hstride]
    omega

/-- Settles O33: the butterfly is in the stage's one pass, where `binAt_foldl_of_mem` gives both of its words, and
`halved_toInt` gives their components. -/
theorem stageComputesItsButterflies : Obligations.StageComputesItsButterflies := by
  intro c b s m t hb _ hm ht i k wr wi q v tr ti
  have hmem : (m, t) ∈ stagePairs c s := (mem_stagePairs c s (m, t)).2 ⟨hm, ht⟩
  obtain ⟨hup, hlow⟩ := binAt_foldl_of_mem c s _ b (m, t) (stagePairs_nodup c s) (fun _ h => h) hmem hb
  rw [← stage_eq_foldl] at hup hlow
  refine ⟨lowerIndex_lt_nfft hmem, hup, hlow, ?_, ?_, ?_, ?_, binAt_eq_getElem b⟩
  · exact (congrArg (fun x : Bin => x.re.toInt) hup).trans (halved_toInt _)
  · exact (congrArg (fun x : Bin => x.im.toInt) hup).trans (halved_toInt _)
  · exact (congrArg (fun x : Bin => x.re.toInt) hlow).trans (halved_toInt _)
  · exact (congrArg (fun x : Bin => x.im.toInt) hlow).trans (halved_toInt _)

/-- Settles O30: the chain is the buffer before each stage, the last one what the command stores. -/
theorem fftTransformsBuf : Obligations.FftTransformsBuf := by
  intro s hf
  have hload := loadBuf_storeBuf_fftOf s .ok
  have hlast := bufBeforeStage_nlog2 s.cfg s.loadBuf
  refine ⟨_, exec_fft s hf, rfl, hload,
    ⟨bufBeforeStage s.cfg s.loadBuf, fun k _ => bufBeforeStage_length _ _ k, fun i hi => ?_,
      fun k _ => bufBeforeStage_succ _ _ k, hload.trans hlast.symm, fun i hi => ?_⟩, fun a ha => ?_⟩
  · exact (binAt_bitReversed _ _ i hi).trans (binAt_loadBuf s _ (bitrev_lt _ i))
  · rw [hlast, bin_storeBuf_fftOf s .ok i hi]
  · exact State.bufByte_storeBuf_of_outside _ _ a (by rwa [fftOf_length])

/-- Settles O34: the buffer read is all zero, and so is its transform. -/
theorem fftOfZeroIsZero : Obligations.FftOfZeroIsZero := by
  intro s hf hzero
  refine ⟨_, exec_fft s hf, fun i hi => ?_⟩
  rw [bin_storeBuf_fftOf s .ok i hi, loadBuf_eq_zeroBuf s hzero, fftOf_zeroBuf, binAt_zeroBuf]

end Sys2Proof.Machine
end

section
/-! SUPPORT. WINDOW by its parts (spec/42_window.md): the pre-shifted sample, its scaling, one word, the whole buffer,
the two outcomes of the command, and the window constant. -/

namespace Sys2Proof.Machine

/-! ### The pre-shifted sample (R142) -/

/-- The exact pre-shifted sample fits signed 16 bits. -/
def PreShiftFits (c : Config) (x : Int) : Prop := -32768 ≤ x * 2 ^ c.preshift ∧ x * 2 ^ c.preshift ≤ 32767

/-- The pre-shifted sample, clamped to signed 16 bits. -/
def clampedPreShift (c : Config) (x : Int) : Int := max (-32768) (min 32767 (x * 2 ^ c.preshift))

theorem clampedPreShift_bounds (c : Config) (x : Int) : -32768 ≤ clampedPreShift c x ∧ clampedPreShift c x ≤ 32767 := by
  simp only [clampedPreShift]
  omega

/-- A narrowing that raises no fault clamps (R112). -/
theorem narrow_eq_clamp (mode : OvfMode) (v lo hi : Int) (hb : lo ≤ hi) (h : mode = .saturate ∨ (lo ≤ v ∧ v ≤ hi)) :
    narrow mode v lo hi = .ok (max lo (min hi v)) := by
  by_cases hfit : lo ≤ v ∧ v ≤ hi
  · rw [narrow_of_fits mode v lo hi hfit, min_eq_right hfit.2, max_eq_right hfit.1]
  · rw [h.resolve_right hfit, narrow_saturate v lo hi hfit]
    congr 1
    split <;> omega

theorem preShift_eq_clamped (c : Config) (x : Int) (h : c.ovfMode = .saturate ∨ PreShiftFits c x) :
    preShift c x = .ok (clampedPreShift c x) :=
  narrow_eq_clamp _ _ _ _ (by norm_num) h

theorem preShift_fault (c : Config) (x : Int) (hmode : c.ovfMode = .fault) (h : ¬ PreShiftFits c x) :
    preShift c x = .error .arith := by
  rw [preShift, hmode]
  exact narrow_fault _ _ _ h

/-! ### The scaled sample (R143, R144) -/

theorem windowScale_eq (c : Config) (i : Nat) (x : Int) :
    windowScale c i x = if c.windowKind = .rect then x else sfApply (windowAt c i) x := by
  unfold windowScale
  cases c.windowKind <;> rfl

/-- Scaling shrinks, so a scaled 16-bit sample needs no narrowing. -/
theorem windowScale_bounds (c : Config) (i : Nat) (x : Int) (hlo : -32768 ≤ x) (hhi : x ≤ 32767) :
    -32768 ≤ windowScale c i x ∧ windowScale c i x ≤ 32767 := by
  rw [windowScale_eq]
  split
  · exact ⟨hlo, hhi⟩
  · obtain hx | hx := le_total 0 x
    · have := sfApply_bounds_of_nonneg (windowAt c i) x hx
      omega
    · have := sfApply_bounds_of_nonpos (windowAt c i) x hx
      omega

theorem windowAt_eq_getElem (c : Config) (i : Nat) (h : i < c.window.length) : windowAt c i = c.window[i] :=
  List.getD_eq_getElem c.window _ h

/-! ### One word (R146) -/

/-- Word `i` as WINDOW leaves it when it completes. -/
def windowedBin (c : Config) (i : Nat) (b : Bin) : Bin :=
  { re := BitVec.ofInt 16 (windowScale c i (clampedPreShift c b.re.toInt)), im := 0 }

/-- The scaled sample is stored without loss. -/
theorem windowedBin_re_toInt (c : Config) (i : Nat) (b : Bin) :
    (windowedBin c i b).re.toInt = windowScale c i (clampedPreShift c b.re.toInt) := by
  obtain ⟨hlo, hhi⟩ := clampedPreShift_bounds c b.re.toInt
  obtain ⟨hslo, hshi⟩ := windowScale_bounds c i _ hlo hhi
  exact BitVec.toInt_ofInt_eq_self (by norm_num) (by omega) (by omega)

theorem windowWord_eq_windowedBin (c : Config) (i : Nat) (b : Bin)
    (h : c.ovfMode = .saturate ∨ PreShiftFits c b.re.toInt) : windowWord c i b = .ok (windowedBin c i b) := by
  simp only [windowWord, preShift_eq_clamped c _ h, windowedBin]

theorem windowWord_fault (c : Config) (i : Nat) (b : Bin) (hmode : c.ovfMode = .fault)
    (h : ¬ PreShiftFits c b.re.toInt) : windowWord c i b = .error .arith := by
  simp only [windowWord, preShift_fault c _ hmode h]

/-! ### The whole buffer (R146) -/

/-- The buffer as WINDOW leaves it when it completes. -/
def windowedBuf (c : Config) (b : List Bin) : List Bin := b.mapIdx (windowedBin c)

@[simp] theorem windowedBuf_length (c : Config) (b : List Bin) : (windowedBuf c b).length = b.length :=
  List.length_mapIdx

theorem windowOf_eq_windowedBuf (c : Config) (b : List Bin)
    (h : c.ovfMode = .saturate ∨ ∀ x ∈ b, PreShiftFits c x.re.toInt) : windowOf c b = .ok (windowedBuf c b) := by
  rw [windowedBuf, List.mapIdx_eq_zipIdx_map]
  exact mapOrFault_of_ok _ _ _ fun p hp =>
    windowWord_eq_windowedBin c p.2 p.1 (h.imp_right fun hfit => hfit p.1 (List.fst_mem_of_mem_zipIdx hp))

/-- One sample that does not fit makes the buffer's conversion fault (R142). -/
theorem windowOf_fault (c : Config) (b : List Bin) (i : Nat) (hi : i < b.length) (hmode : c.ovfMode = .fault)
    (h : ¬ PreShiftFits c b[i].re.toInt) : windowOf c b = .error .arith := by
  cases hw : windowOf c b with
  | error code => rw [(windowOf_error c b code hw).1]
  | ok r =>
    obtain ⟨hlen, hword⟩ := mapOrFault_ok _ _ _ hw
    have hz : i < b.zipIdx.length := by rwa [List.length_zipIdx]
    have hok := hword i hz (hlen ▸ hz)
    rw [List.getElem_zipIdx, windowWord_fault c _ _ hmode h] at hok
    cases hok

/-! ### The command (R140, R234) -/

/-- Outside the stopped state WINDOW that raises no fault stores the windowed buffer, with `ERR = OK`. -/
theorem exec_window_completes (s : State) (hf : s.status.fault = false)
    (h : windowOf s.cfg s.loadBuf = .ok (windowedBuf s.cfg s.loadBuf)) :
    exec .window s = .next ((s.setErr .ok).storeBuf (windowedBuf s.cfg s.loadBuf)) := by
  have hbody : bodyOf .window (s.setErr .ok) = (s.setErr .ok).storeBuf (windowedBuf s.cfg s.loadBuf) := by
    have hw : windowOf (s.setErr .ok).cfg (s.setErr .ok).loadBuf = .ok (windowedBuf s.cfg s.loadBuf) := h
    simp only [bodyOf, windowBody, hw]
  rw [exec_running .window s hf, hbody]

/-- Outside the stopped state WINDOW that raises a fault enters it. -/
theorem exec_window_faults (s : State) (hf : s.status.fault = false) (code : FaultCode)
    (h : windowOf s.cfg s.loadBuf = .error code) :
    exec .window s = .next ((s.setErr .ok).faultEntry .window code) := by
  have hbody : bodyOf .window (s.setErr .ok) = (s.setErr .ok).faultEntry .window code := by
    have hw : windowOf (s.setErr .ok).cfg (s.setErr .ok).loadBuf = .error code := h
    simp only [bodyOf, windowBody, hw]
  rw [exec_running .window s hf, hbody]

theorem bin_storeBuf_windowedBuf (s : State) (e : ErrCode) (i : Nat) (h : i < s.cfg.nfft) :
    ((s.setErr e).storeBuf (windowedBuf s.cfg s.loadBuf)).bin i = windowedBin s.cfg i (s.bin i) := by
  rw [State.bin_storeBuf _ _ i (by simpa using h)]
  simp only [windowedBuf, List.getElem_mapIdx, State.loadBuf_getElem s i h]

/-- The samples of the loaded buffer are the words of `BUF`. -/
theorem forall_mem_loadBuf (s : State) (P : Bin → Prop) (h : ∀ i, i < s.cfg.nfft → P (s.bin i)) :
    ∀ x ∈ s.loadBuf, P x := by
  intro x hx
  obtain ⟨i, hi, rfl⟩ := List.mem_map.1 hx
  exact h i (List.mem_range.1 hi)

/-! ### The window constant (R148) -/

/-- The average of 16-bit coefficients fits 16 bits. -/
theorem sum_toNat_div_length_lt (w : List Half) : (w.map BitVec.toNat).sum / w.length < 65536 := by
  have hsum : (w.map BitVec.toNat).sum ≤ w.length * 65535 := by
    have hle := List.sum_le_card_nsmul (w.map BitVec.toNat) 65535 fun x hx => by
      obtain ⟨v, -, rfl⟩ := List.mem_map.1 hx
      exact Nat.le_of_lt_succ v.isLt
    rwa [List.length_map, smul_eq_mul] at hle
  exact Nat.lt_succ_of_le (Nat.div_le_of_le_mul hsum)

theorem winAmp_of_rect (c : Config) (h : c.windowKind = .rect) : winAmp c = 0xFFFF := by
  simp only [winAmp, h]

theorem winAmp_of_ne_rect (c : Config) (h : c.windowKind ≠ .rect) :
    winAmp c = BitVec.ofNat 16 ((c.window.map BitVec.toNat).sum / c.nfft) := by
  unfold winAmp
  cases hk : c.windowKind with
  | rect => exact absurd hk h
  | hamming | hann | blackman => rfl

theorem readLoc_winAmp_toNat (s : State) : (s.readLoc .winAmp).toNat = (winAmp s.cfg).toNat :=
  BitVec.toNat_setWidth_of_le (by norm_num)

end Sys2Proof.Machine
end

section
/-! Family 42_window.md: what WINDOW leaves in `BUF`, its trap, and the window constant. -/

namespace Sys2Proof.Machine

/-- Settles O35: no word faults, so `BUF` becomes `windowedBuf`, read back word by word. -/
theorem windowScalesEverySample : Obligations.WindowScalesEverySample := by
  intro s hf hfit
  have hwin : windowOf s.cfg s.loadBuf = .ok (windowedBuf s.cfg s.loadBuf) :=
    windowOf_eq_windowedBuf _ _ (hfit.imp_right (forall_mem_loadBuf s fun b => PreShiftFits s.cfg b.re.toInt))
  refine ⟨_, exec_window_completes s hf hwin, rfl, fun i hi => ?_, fun a ha => ?_⟩
  · rw [bin_storeBuf_windowedBuf s .ok i hi]
    refine ⟨(windowedBin_re_toInt _ _ _).trans (windowScale_eq _ _ _), rfl, fun hc => ?_⟩
    obtain ⟨-, -, -, -, -, hwindow, -⟩ := Config_wellFormed_parts s.cfg hc
    have hlt : i < s.cfg.window.length := hwindow.symm ▸ hi
    exact ⟨hlt, windowAt_eq_getElem s.cfg i hlt⟩
  · exact State.bufByte_storeBuf_of_outside _ _ a (by rwa [windowedBuf_length, State.loadBuf_length])

/-- Settles O36: the sample faults the whole conversion, and fault entry for WINDOW frees `BUF` only. -/
theorem windowOverflowFaults : Obligations.WindowOverflowFaults := by
  intro s i hf hmode hi hout
  have hlen : i < s.loadBuf.length := by rwa [State.loadBuf_length]
  have hnofit : ¬ PreShiftFits s.cfg s.loadBuf[i].re.toInt := by
    rw [State.loadBuf_getElem s i hi, PreShiftFits]
    omega
  exact ⟨_, exec_window_faults s hf .arith (windowOf_fault s.cfg s.loadBuf i hlen hmode hnofit), rfl⟩

/-- Settles O17: a coefficient for every word, so the average is over the table's length and fits 16 bits. -/
theorem winAmpIsAverage : Obligations.WinAmpIsAverage := by
  intro s hc
  obtain ⟨-, -, -, -, -, hwindow, -⟩ := Config_wellFormed_parts s.cfg hc
  rw [readLoc_winAmp_toNat]
  refine ⟨fun hrect => by rw [winAmp_of_rect s.cfg hrect]; rfl, fun hne => ?_⟩
  rw [winAmp_of_ne_rect s.cfg hne, BitVec.toNat_ofNat]
  exact Nat.mod_eq_of_lt (hwindow ▸ sum_toNat_div_length_lt s.cfg.window)

end Sys2Proof.Machine
end

section
/-! SUPPORT. The ridge scan by its result (spec/43_peak_detector.md R152 to R154): the climb and the descent of one
turn, the local maxima as a list, and the scan as that list cut off by the capacity. -/

namespace Sys2Proof.Machine

/-! ### The two walks of a turn (R152) -/

/-- A walk over the bins below `n`, from `i` to `t`: on while `R` relates a bin to the next one, and no further. -/
structure WalksTo (R : Nat → Nat → Prop) (n i t : Nat) : Prop where
  le : i ≤ t
  lt : t < n
  on : ∀ j, i ≤ j → j < t → R j (j + 1)
  stop : t + 1 < n → ¬ R t (t + 1)

theorem WalksTo.here {R : Nat → Nat → Prop} {n i : Nat} (hi : i < n) (h : ¬ (i + 1 < n ∧ R i (i + 1))) :
    WalksTo R n i i where
  le := le_rfl
  lt := hi
  on := fun j hlo hhi => absurd hhi (by omega)
  stop := fun hn hR => h ⟨hn, hR⟩

theorem WalksTo.step {R : Nat → Nat → Prop} {n i t : Nat} (hR : R i (i + 1)) (h : WalksTo R n (i + 1) t) :
    WalksTo R n i t where
  le := Nat.le_of_succ_le h.le
  lt := h.lt
  on := fun j hlo hhi => by
    obtain rfl | hlt := Nat.eq_or_lt_of_le hlo
    · exact hR
    · exact h.on j hlt hhi
  stop := h.stop

theorem ascend_walksTo (c : Config) (sq : List Nat) (fuel i : Nat) (hi : i < c.nbins) (hfuel : c.nbins ≤ i + fuel + 1) :
    WalksTo (fun a b => sqAt sq b > sqAt sq a) c.nbins i (ascend c sq fuel i) := by
  induction fuel generalizing i with
  | zero => exact .here hi fun h => by omega
  | succ fuel ih =>
    rw [ascend]
    split
    · rename_i h
      exact .step h.2 (ih (i + 1) h.1 (by omega))
    · rename_i h
      exact .here hi h

theorem descend_walksTo (c : Config) (sq : List Nat) (fuel i : Nat) (hi : i < c.nbins)
    (hfuel : c.nbins ≤ i + fuel + 1) :
    WalksTo (fun a b => sqAt sq b ≤ sqAt sq a) c.nbins i (descend c sq fuel i) := by
  induction fuel generalizing i with
  | zero => exact .here hi fun h => by omega
  | succ fuel ih =>
    rw [descend]
    split
    · rename_i h
      exact .step h.2 (ih (i + 1) h.1 (by omega))
    · rename_i h
      exact .here hi h

/-! ### The local maxima (R152, R154) -/

/-- Bin `i` is higher than the bin before, or the first one scanned, and not lower than the bin after, or the last. -/
def isLocalMax (c : Config) (sq : List Nat) (i : Nat) : Bool :=
  decide (1 ≤ i) && (decide (i = 1) || decide (sqAt sq (i - 1) < sqAt sq i)) &&
    (decide (i + 1 ≥ c.nbins) || decide (sqAt sq (i + 1) ≤ sqAt sq i))

theorem isLocalMax_iff (c : Config) (sq : List Nat) (i : Nat) :
    isLocalMax c sq i = true ↔ 1 ≤ i ∧ (i = 1 ∨ sqAt sq (i - 1) < sqAt sq i) ∧
      (c.nbins ≤ i + 1 ∨ sqAt sq (i + 1) ≤ sqAt sq i) := by
  simp [isLocalMax, and_assoc]

theorem not_isLocalMax_zero (c : Config) (sq : List Nat) : ¬ isLocalMax c sq 0 := by
  simp [isLocalMax_iff]

/-- A bin below its successor is no maximum. -/
theorem not_isLocalMax_of_lt_next {c : Config} {sq : List Nat} {i : Nat} (hn : i + 1 < c.nbins)
    (h : sqAt sq i < sqAt sq (i + 1)) : ¬ isLocalMax c sq i := by
  rw [isLocalMax_iff]
  omega

/-- A bin that is not above its predecessor is no maximum, unless it is bin 1. -/
theorem not_isLocalMax_succ_of_le {c : Config} {sq : List Nat} {i : Nat} (hi : 1 ≤ i)
    (h : sqAt sq (i + 1) ≤ sqAt sq i) : ¬ isLocalMax c sq (i + 1) := by
  rw [isLocalMax_iff, Nat.add_sub_cancel]
  omega

/-- The local maxima from bin `i` on, in increasing order. -/
def maximaFrom (c : Config) (sq : List Nat) (i : Nat) : List Nat :=
  (List.range' i (c.nbins - i)).filter (isLocalMax c sq)

theorem mem_maximaFrom {c : Config} {sq : List Nat} {i b : Nat} (hi : i ≤ c.nbins) :
    b ∈ maximaFrom c sq i ↔ (i ≤ b ∧ b < c.nbins) ∧ isLocalMax c sq b := by
  rw [maximaFrom, List.mem_filter, List.mem_range'_1, Nat.add_sub_cancel' hi]

theorem maximaFrom_past_end (c : Config) (sq : List Nat) (i : Nat) (h : c.nbins ≤ i) : maximaFrom c sq i = [] := by
  rw [maximaFrom, Nat.sub_eq_zero_of_le h]
  rfl

theorem maximaFrom_of_isLocalMax {c : Config} {sq : List Nat} {i : Nat} (hi : i < c.nbins) (h : isLocalMax c sq i) :
    maximaFrom c sq i = i :: maximaFrom c sq (i + 1) := by
  rw [maximaFrom, show c.nbins - i = c.nbins - (i + 1) + 1 by omega, List.range'_succ, List.filter_cons_of_pos h]
  rfl

theorem maximaFrom_of_not_isLocalMax {c : Config} {sq : List Nat} {i : Nat} (h : ¬ isLocalMax c sq i) :
    maximaFrom c sq i = maximaFrom c sq (i + 1) := by
  obtain hi | hi := Nat.lt_or_ge i c.nbins
  · rw [maximaFrom, show c.nbins - i = c.nbins - (i + 1) + 1 by omega, List.range'_succ, List.filter_cons_of_neg h]
    rfl
  · rw [maximaFrom_past_end c sq i hi, maximaFrom_past_end c sq (i + 1) (by omega)]

/-- Bins that are no maxima can be passed over. -/
theorem maximaFrom_skip {c : Config} {sq : List Nat} {i k : Nat} (hik : i ≤ k)
    (h : ∀ j, i ≤ j → j < k → ¬ isLocalMax c sq j) : maximaFrom c sq i = maximaFrom c sq k := by
  induction k, hik using Nat.le_induction with
  | base => rfl
  | succ k hik ih =>
    rw [ih fun j hlo hhi => h j hlo (by omega), maximaFrom_of_not_isLocalMax (h k hik (by omega))]

/-- The maxima of the statement, over all bins, are those from bin 1 on: bin 0 is never one. -/
theorem filter_range_isLocalMax (c : Config) (sq : List Nat) :
    (List.range c.nbins).filter (isLocalMax c sq) = maximaFrom c sq 1 := by
  rw [← maximaFrom_of_not_isLocalMax (not_isLocalMax_zero c sq), maximaFrom, List.range_eq_range', Nat.sub_zero]

/-- R154 (b): of two maxima, the later one is at least two bins on, since it is higher than the bin before it. -/
theorem maximaFrom_pairwise (c : Config) (sq : List Nat) (i : Nat) :
    (maximaFrom c sq i).Pairwise fun a b => a + 2 ≤ b := by
  have hlt : (maximaFrom c sq i).Pairwise (· < ·) := List.Pairwise.filter _ List.pairwise_lt_range'
  refine hlt.imp_of_mem fun {a b} ha hb hab => ?_
  obtain ⟨hbin, hmaxb⟩ := List.mem_filter.1 hb
  obtain ⟨hpos, -, hafter⟩ := (isLocalMax_iff c sq a).1 (List.mem_filter.1 ha).2
  obtain ⟨-, hbefore, -⟩ := (isLocalMax_iff c sq b).1 hmaxb
  have hbn : b < c.nbins := by
    rw [List.mem_range'_1] at hbin
    omega
  by_contra hgap
  obtain rfl : b = a + 1 := by omega
  rw [Nat.add_sub_cancel] at hbefore
  omega

/-- A list with gaps of at least 2 within a range takes up at most every other place of it. -/
theorem two_mul_length_le_of_gaps (l : List Nat) (lo hi : Nat) (hgap : l.Pairwise fun a b => a + 2 ≤ b)
    (hlo : ∀ x ∈ l, lo ≤ x) (hhi : ∀ x ∈ l, x < hi) : 2 * l.length ≤ hi - lo + 1 := by
  induction l generalizing lo with
  | nil => exact Nat.zero_le _
  | cons a l ih =>
    obtain ⟨ha, hl⟩ := List.pairwise_cons.1 hgap
    have hlen := ih (a + 2) hl ha fun x hx => hhi x (List.mem_cons_of_mem a hx)
    have halo := hlo a List.mem_cons_self
    have hahi := hhi a List.mem_cons_self
    rw [List.length_cons]
    cases l with
    | nil => simp; omega
    | cons b l =>
      have hb := ha b List.mem_cons_self
      have hbhi := hhi b (by simp)
      omega

/-- R154 (c). -/
theorem two_mul_length_maximaFrom_le (c : Config) (sq : List Nat) (hn : 1 ≤ c.nbins) :
    2 * (maximaFrom c sq 1).length ≤ c.nbins := by
  have hlen := two_mul_length_le_of_gaps (maximaFrom c sq 1) 1 c.nbins (maximaFrom_pairwise c sq 1)
    (fun x hx => ((mem_maximaFrom hn).1 hx).1.1) (fun x hx => ((mem_maximaFrom hn).1 hx).1.2)
  omega

/-! ### The scan (R152, R153) -/

/-- Where a turn of the scan starts: at bin 1, or at the trough that ended the turn before. -/
def ScanStart (c : Config) (sq : List Nat) (i : Nat) : Prop :=
  i = 1 ∨ (1 ≤ i ∧ i + 1 < c.nbins ∧ sqAt sq i < sqAt sq (i + 1))

/-- One turn of the scan passes over exactly one maximum: its top. -/
theorem maximaFrom_turn {c : Config} {sq : List Nat} {i top trough : Nat} (hi : ScanStart c sq i)
    (hup : WalksTo (fun a b => sqAt sq b > sqAt sq a) c.nbins i top)
    (hdown : WalksTo (fun a b => sqAt sq b ≤ sqAt sq a) c.nbins top trough) :
    maximaFrom c sq i = top :: maximaFrom c sq (trough + 1) := by
  have hpos : 1 ≤ i := hi.elim (fun h => h.ge) fun h => h.1
  have hrise : ∀ j, i ≤ j → j < top → ¬ isLocalMax c sq j := fun j hlo hhi =>
    not_isLocalMax_of_lt_next (lt_of_le_of_lt hhi hup.lt) (hup.on j hlo hhi)
  have hfall : ∀ j, top + 1 ≤ j → j < trough + 1 → ¬ isLocalMax c sq j := by
    intro j hlo hhi
    obtain ⟨k, rfl⟩ : ∃ k, j = k + 1 := ⟨j - 1, by omega⟩
    exact not_isLocalMax_succ_of_le (hpos.trans (hup.le.trans (by omega))) (hdown.on k (by omega) (by omega))
  have htop : isLocalMax c sq top := by
    have hafter : c.nbins ≤ top + 1 ∨ sqAt sq (top + 1) ≤ sqAt sq top := by
      have := hup.stop
      omega
    refine (isLocalMax_iff c sq top).2 ⟨hpos.trans hup.le, ?_, hafter⟩
    obtain heq | hlt := Nat.eq_or_lt_of_le hup.le
    · subst heq
      exact hi.imp_right fun h => by omega
    · have := hup.on (top - 1) (by omega) (by omega)
      rw [Nat.sub_add_cancel (by omega)] at this
      exact .inr this
  rw [maximaFrom_skip hup.le hrise, maximaFrom_of_isLocalMax hup.lt htop,
    maximaFrom_skip (Nat.succ_le_succ hdown.le) hfall]

/-- R152, R153: from a start, the scan finds the maxima when there is room for all of them. -/
theorem scanFrom_eq (c : Config) (sq : List Nat) (fuel room i : Nat) (hi : ScanStart c sq i) (hin : i < c.nbins)
    (hfuel : c.nbins ≤ i + fuel) :
    scanFrom c sq fuel room i =
      if (maximaFrom c sq i).length ≤ room then .ok (maximaFrom c sq i) else .error .capacity := by
  induction fuel generalizing room i with
  | zero => omega
  | succ fuel ih =>
    have hup := ascend_walksTo c sq c.nbins i hin (by omega)
    have hdown := descend_walksTo c sq c.nbins _ hup.lt (by omega)
    have hturn := maximaFrom_turn hi hup hdown
    rw [scanFrom]
    generalize ascend c sq c.nbins i = top at *
    generalize descend c sq c.nbins top = trough at *
    rw [hturn, List.length_cons]
    obtain rfl | hroom := Nat.eq_zero_or_pos room
    · simp
    simp only [hroom.ne', if_false]
    by_cases hend : c.nbins ≤ trough + 1
    · rw [if_pos hend, maximaFrom_past_end c sq _ hend, List.length_nil, if_pos (by omega)]
    · have hnext : sqAt sq trough < sqAt sq (trough + 1) := by
        have := hdown.stop
        omega
      have hgrow : i < trough := by
        obtain heq | hlt := Nat.eq_or_lt_of_le (hup.le.trans hdown.le)
        · have hstop := hup.stop
          obtain rfl : top = trough := le_antisymm hdown.le (heq ▸ hup.le)
          omega
        · exact hlt
      have hstart : ScanStart c sq trough := .inr ⟨by omega, by omega, hnext⟩
      rw [if_neg hend, ih (room - 1) trough hstart hdown.lt (by omega),
        maximaFrom_of_not_isLocalMax (not_isLocalMax_of_lt_next (by omega) hnext)]
      by_cases hfit : (maximaFrom c sq (trough + 1)).length ≤ room - 1
      · rw [if_pos hfit, if_pos (by omega)]
      · rw [if_neg hfit, if_neg (by omega)]

/-- A well-formed configuration analyses at least two bins (spec/00_scope.md R8). -/
theorem Config_two_le_nbins (c : Config) (h : c.wellFormed = true) : 2 ≤ c.nbins := by
  obtain ⟨⟨hlog, -⟩, -⟩ := Config_wellFormed_parts c h
  obtain ⟨q, hq, hnfft⟩ := nfft_eq_four_mul c hlog
  rw [Config.nbins]
  omega

/-- R152, R153: the scan from bin 1 finds the local maxima, or runs out of capacity. -/
theorem ridges_eq (c : Config) (sq : List Nat) (hn : 2 ≤ c.nbins) :
    ridges c sq = if (maximaFrom c sq 1).length ≤ c.ridgeCap then .ok (maximaFrom c sq 1) else .error .capacity :=
  scanFrom_eq c sq c.nbins c.ridgeCap 1 (.inl rfl) hn (by omega)

theorem eq_maximaFrom_of_ridges_ok {c : Config} {sq rs : List Nat} (hn : 2 ≤ c.nbins) (h : ridges c sq = .ok rs) :
    rs = maximaFrom c sq 1 := by
  rw [ridges_eq c sq hn] at h
  split at h
  · exact (Except.ok.inj h).symm
  · cases h

theorem mem_ridges_bounds {c : Config} {sq rs : List Nat} (hn : 2 ≤ c.nbins) (h : ridges c sq = .ok rs) {b : Nat}
    (hb : b ∈ rs) : 1 ≤ b ∧ b < c.nbins := by
  rw [eq_maximaFrom_of_ridges_ok hn h, mem_maximaFrom (by omega)] at hb
  exact hb.1

/-- R153, R154: the default capacity is never exceeded. -/
theorem ridges_eq_of_defaultRidgeCap (c : Config) (sq : List Nat) (hn : 2 ≤ c.nbins)
    (hcap : c.defaultRidgeCap ≤ c.ridgeCap) : ridges c sq = .ok (maximaFrom c sq 1) := by
  have hlen := two_mul_length_maximaFrom_le c sq (by omega)
  have hhalf : c.nbins / 2 ≤ c.defaultRidgeCap := le_max_right _ _
  rw [ridges_eq c sq hn, if_pos (by omega)]

/-- R154 (a). -/
theorem maximaFrom_one_ne_nil (c : Config) (sq : List Nat) (hn : 2 ≤ c.nbins) : maximaFrom c sq 1 ≠ [] := by
  have hup := ascend_walksTo c sq c.nbins 1 hn (by omega)
  have hdown := descend_walksTo c sq c.nbins _ hup.lt (by omega)
  rw [maximaFrom_turn (.inl rfl) hup hdown]
  exact List.cons_ne_nil _ _

end Sys2Proof.Machine
end

section
/-! SUPPORT. The selection loop (spec/43_peak_detector.md R151, R155 to R159): the squared magnitudes, the relative
threshold, the order in which ridges are picked, and a run of the loop as a relation. -/

namespace Sys2Proof.Machine

/-! ### The squared magnitudes (R151) -/

theorem sqAt_squaredMags (c : Config) (bins : List Bin) (i : Nat) (hi : i < c.nbins) :
    sqAt (squaredMags c bins) i = sqmag (binAt bins i).re.toInt (binAt bins i).im.toInt := by
  simp only [sqAt, squaredMags, binAt, List.getD_eq_getElem?_getD, List.getElem?_map, List.getElem?_take_of_lt hi]
  cases bins[i]? with
  | none => rfl
  | some x => rfl

theorem nbins_le_nfft (c : Config) : c.nbins ≤ c.nfft := Nat.div_le_self _ _

theorem squaredMags_loadBuf_length (s : State) : (squaredMags s.cfg s.loadBuf).length = s.cfg.nbins := by
  rw [squaredMags, List.length_map, List.length_take, State.loadBuf_length]
  exact min_eq_left (nbins_le_nfft s.cfg)

theorem sqAt_squaredMags_loadBuf (s : State) (i : Nat) (hi : i < s.cfg.nbins) :
    sqAt (squaredMags s.cfg s.loadBuf) i = sqmag (s.bin i).re.toInt (s.bin i).im.toInt := by
  rw [sqAt_squaredMags _ _ i hi, binAt_loadBuf s i (hi.trans_le (nbins_le_nfft s.cfg))]

/-- R106: on squared magnitudes the root is monotone. -/
theorem isqrt_sqAt_mono {c : Config} {bins : List Bin} {a b : Nat}
    (h : sqAt (squaredMags c bins) a ≤ sqAt (squaredMags c bins) b) :
    isqrt (sqAt (squaredMags c bins) a) ≤ isqrt (sqAt (squaredMags c bins) b) :=
  isqrt_mono h ((sqAt_squaredMags_le c bins b).trans (by norm_num))

/-- R158 compares squares; so do the roots compare. -/
theorem le_isqrt_sqAt_iff (c : Config) (bins : List Bin) (m b : Nat) :
    m ≤ isqrt (sqAt (squaredMags c bins) b) ↔ m * m ≤ sqAt (squaredMags c bins) b := by
  rw [isqrt_eq_sqrt _ ((sqAt_squaredMags_le c bins b).trans (by norm_num)), Nat.le_sqrt]

/-! ### The relative threshold (R159) -/

theorem relativeThreshold_mono (c : Config) (thresh : Half) {m n : Nat} (h : m ≤ n) :
    relativeThreshold c thresh m ≤ relativeThreshold c thresh n :=
  Int.add_le_add_left (sfApply_le_sfApply (Int.mul_le_mul_of_nonneg_right (by omega) (by positivity))) _

/-- A magnitude at or above the noise floor is at or above its own threshold, and so is every higher one. -/
theorem relativeThreshold_le {c : Config} {m n : Nat} (thresh : Half) (hfloor : c.noiseFloor.toNat ≤ n) (h : m ≤ n) :
    relativeThreshold c thresh m ≤ n := by
  refine (relativeThreshold_mono c thresh h).trans ?_
  have hle := sfApply_bounds_of_nonneg thresh ((n : Int) - c.noiseFloor.toNat) (by omega)
  rw [relativeThreshold]
  omega

/-! ### The order of the picks (R156) -/

/-- Ridge `a` is picked before ridge `b`: it is higher, or as high and earlier. -/
def Outranks (sq : List Nat) (a b : Nat) : Prop := sqAt sq b < sqAt sq a ∨ (sqAt sq b = sqAt sq a ∧ a < b)

theorem Outranks.trans {sq : List Nat} {a b d : Nat} (hab : Outranks sq a b) (hbd : Outranks sq b d) :
    Outranks sq a d := by
  unfold Outranks at *
  omega

theorem Outranks.sqAt_le {sq : List Nat} {a b : Nat} (h : Outranks sq a b) : sqAt sq b ≤ sqAt sq a := by
  unfold Outranks at h
  omega

theorem Outranks.ne {sq : List Nat} {a b : Nat} (h : Outranks sq a b) : a ≠ b := by
  rintro rfl
  unfold Outranks at h
  omega

theorem higherRidge_eq_or (sq : List Nat) (a x : Nat) : higherRidge sq a x = a ∨ higherRidge sq a x = x := by
  unfold higherRidge
  split
  · exact .inr rfl
  · exact .inl rfl

/-- Of two ridges in increasing order, the higher one outranks the other. -/
theorem higherRidge_outranks (sq : List Nat) {a x y : Nat} (h : a < x) (hy : y = a ∨ y = x)
    (hne : y ≠ higherRidge sq a x) : Outranks sq (higherRidge sq a x) y := by
  unfold higherRidge at hne ⊢
  by_cases hhigher : sqAt sq x > sqAt sq a
  · rw [if_pos hhigher] at hne ⊢
    obtain rfl := hy.resolve_right hne
    exact .inl hhigher
  · rw [if_neg hhigher] at hne ⊢
    obtain rfl := hy.resolve_left hne
    unfold Outranks
    omega

theorem foldl_higherRidge_outranks (sq rest : List Nat) (a : Nat) (h : (a :: rest).Pairwise (· < ·)) :
    ∀ x ∈ a :: rest, x ≠ rest.foldl (higherRidge sq) a → Outranks sq (rest.foldl (higherRidge sq) a) x := by
  induction rest generalizing a with
  | nil => exact fun x hx hne => absurd (List.mem_singleton.1 hx) hne
  | cons y rest ih =>
    intro x hx hne
    rw [List.foldl_cons] at hne ⊢
    obtain ⟨ha, hy⟩ := List.pairwise_cons.1 h
    obtain ⟨hyrest, hrest⟩ := List.pairwise_cons.1 hy
    have hwinner := higherRidge_eq_or sq a y
    have hloser := fun z => higherRidge_outranks sq (y := z) (ha y List.mem_cons_self)
    generalize higherRidge sq a y = w at *
    have hw : ∀ z ∈ rest, w < z := by
      obtain rfl | rfl := hwinner
      · exact fun z hz => ha z (List.mem_cons_of_mem y hz)
      · exact hyrest
    have hfinal := ih w (List.pairwise_cons.2 ⟨hw, hrest⟩)
    by_cases hx' : x ∈ w :: rest
    · exact hfinal x hx' hne
    · rw [List.mem_cons, not_or] at hx'
      have hout : Outranks sq w x := by
        obtain rfl | hx := List.mem_cons.1 hx
        · exact hloser x (.inl rfl) hx'.1
        · exact hloser x (.inr ((List.mem_cons.1 hx).resolve_right hx'.2)) hx'.1
      by_cases hself : w = rest.foldl (higherRidge sq) w
      · exact hself ▸ hout
      · exact (hfinal w List.mem_cons_self hself).trans hout

/-- R156: of ridges in increasing order, the one picked outranks every other one. -/
theorem pickRidge_outranks {sq left : List Nat} {b : Nat} (hleft : left.Pairwise (· < ·))
    (h : pickRidge sq left = some b) : ∀ x ∈ left, x ≠ b → Outranks sq b x := by
  cases left with
  | nil => cases h
  | cons a rest =>
    obtain rfl := Option.some.inj h
    exact foldl_higherRidge_outranks sq rest a hleft

/-! ### A run of the selection loop (R155) -/

/-- A picked ridge passes the noise floor (R158) and, after the first survivor, the relative threshold (R159). -/
def Survives (c : Config) (thresh : Half) (sq : List Nat) (maxMag : Option Nat) (b : Nat) : Prop :=
  c.noiseFloor.toNat * c.noiseFloor.toNat ≤ sqAt sq b ∧ belowThreshold c thresh maxMag (isqrt (sqAt sq b)) = false

/-- The magnitude of the first survivor once ridge `b` has survived. -/
def firstSurvivor (sq : List Nat) (maxMag : Option Nat) (b : Nat) : Option Nat :=
  some (maxMag.getD (isqrt (sqAt sq b)))

/-- The runs of the selection loop that end without a fault, by the ridges they store with their frequencies: the
unconsumed ridges, the free places and the magnitude of the first survivor are those of `selectPeaks`. -/
inductive Selects (c : Config) (thresh : Half) (sq : List Nat) :
    List Nat → Nat → Option Nat → List (Nat × Frequency) → Prop
  | full (left : List Nat) (maxMag : Option Nat) : Selects c thresh sq left 0 maxMag []
  | exhausted (room : Nat) (maxMag : Option Nat) : Selects c thresh sq [] room maxMag []
  | low {left : List Nat} {room b : Nat} {maxMag : Option Nat} {stored : List (Nat × Frequency)}
      (hpick : pickRidge sq left = some b) (hlow : b ≤ c.minBin)
      (hrest : Selects c thresh sq (left.erase b) room maxMag stored) : Selects c thresh sq left room maxMag stored
  | culled {left : List Nat} {room b : Nat} {maxMag : Option Nat} (hpick : pickRidge sq left = some b)
      (hmin : c.minBin < b) (hcull : ¬ Survives c thresh sq maxMag b) : Selects c thresh sq left room maxMag []
  | rejected {left : List Nat} {room b : Nat} {maxMag : Option Nat} {stored : List (Nat × Frequency)}
      (hpick : pickRidge sq left = some b) (hmin : c.minBin < b) (hsurv : Survives c thresh sq maxMag b)
      (href : refine c sq b = .ok none)
      (hrest : Selects c thresh sq (left.erase b) room (firstSurvivor sq maxMag b) stored) :
      Selects c thresh sq left room maxMag stored
  | stored {left : List Nat} {room b : Nat} {maxMag : Option Nat} {f : Frequency} {stored : List (Nat × Frequency)}
      (hpick : pickRidge sq left = some b) (hmin : c.minBin < b) (hsurv : Survives c thresh sq maxMag b)
      (href : refine c sq b = .ok (some f))
      (hrest : Selects c thresh sq (left.erase b) room (firstSurvivor sq maxMag b) stored) :
      Selects c thresh sq left (room + 1) maxMag ((b, f) :: stored)

theorem pickRidge_eq_none_iff (sq left : List Nat) : pickRidge sq left = none ↔ left = [] := by
  cases left <;> simp [pickRidge]

theorem length_erase_pickRidge {sq left : List Nat} {b : Nat} (h : pickRidge sq left = some b) :
    (left.erase b).length + 1 = left.length := by
  obtain ⟨hmem, -⟩ := pickRidge_some sq left b h
  rw [List.length_erase_of_mem hmem, Nat.sub_add_cancel (List.length_pos_of_mem hmem)]

/-- What `selectPeaks` answers is the records of a run. -/
theorem selectPeaks_ok_selects (c : Config) (thresh : Half) (bins : List Bin) (sq : List Nat) (turns : Nat)
    (left : List Nat) (room : Nat) (maxMag : Option Nat) (ps : List PeakEntry) (hturns : left.length ≤ turns)
    (h : selectPeaks c thresh bins sq turns left room maxMag = .ok ps) :
    ∃ l, Selects c thresh sq left room maxMag l ∧ ps = l.map fun p => peakOf c bins sq p.1 p.2 := by
  induction turns generalizing left room maxMag ps with
  | zero =>
    obtain rfl := List.eq_nil_of_length_eq_zero (Nat.le_zero.1 hturns)
    cases h
    exact ⟨[], .exhausted _ _, rfl⟩
  | succ n ih =>
    rw [selectPeaks] at h
    split at h
    · rename_i hroom
      cases h
      exact ⟨[], hroom ▸ .full _ _, rfl⟩
    rename_i hroom
    split at h
    · rename_i hnone
      obtain rfl := (pickRidge_eq_none_iff sq left).1 hnone
      cases h
      exact ⟨[], .exhausted _ _, rfl⟩
    rename_i b hpick
    have hlen : (left.erase b).length ≤ n := by
      have := length_erase_pickRidge hpick
      omega
    split at h
    · obtain ⟨l, hl, rfl⟩ := ih _ _ _ _ hlen h
      exact ⟨l, .low hpick ‹_› hl, rfl⟩
    rename_i hmin
    split at h
    · rename_i hfloor
      cases h
      exact ⟨[], .culled hpick (by omega) fun hs => absurd hs.1 (by omega), rfl⟩
    split at h
    · rename_i hbelow
      cases h
      exact ⟨[], .culled hpick (by omega) fun hs => absurd (hs.2.symm.trans hbelow) Bool.false_ne_true, rfl⟩
    rename_i hfloor hbelow
    have hsurv : Survives c thresh sq maxMag b := ⟨by omega, Bool.eq_false_iff.2 hbelow⟩
    split at h
    · cases h
    · rename_i href
      obtain ⟨l, hl, rfl⟩ := ih _ _ _ _ hlen h
      exact ⟨l, .rejected hpick (by omega) hsurv href hl, rfl⟩
    · rename_i f href
      split at h
      · cases h
      · rename_i rest hrest
        cases h
        obtain ⟨l, hl, rfl⟩ := ih _ _ _ _ hlen hrest
        obtain ⟨r, rfl⟩ := Nat.exists_eq_succ_of_ne_zero hroom
        exact ⟨(b, f) :: l, .stored hpick (by omega) hsurv href hl, rfl⟩

/-- A fault of the loop is the fault of a ridge that reaches the refinement. -/
theorem selectPeaks_error_mem (c : Config) (thresh : Half) (bins : List Bin) (sq : List Nat) (turns : Nat)
    (left : List Nat) (room : Nat) (maxMag : Option Nat) (code : FaultCode)
    (h : selectPeaks c thresh bins sq turns left room maxMag = .error code) :
    ∃ b ∈ left, c.noiseFloor.toNat * c.noiseFloor.toNat ≤ sqAt sq b ∧ refine c sq b = .error code := by
  induction turns generalizing left room maxMag with
  | zero => cases h
  | succ n ih =>
    have hrec : ∀ b room maxMag, selectPeaks c thresh bins sq n (left.erase b) room maxMag = .error code →
        ∃ b ∈ left, c.noiseFloor.toNat * c.noiseFloor.toNat ≤ sqAt sq b ∧ refine c sq b = .error code := by
      intro b room maxMag h
      obtain ⟨x, hx, hfault⟩ := ih _ _ _ h
      exact ⟨x, List.mem_of_mem_erase hx, hfault⟩
    rw [selectPeaks] at h
    split at h
    · cases h
    split at h
    · cases h
    rename_i b hpick
    split at h
    · exact hrec _ _ _ h
    split at h
    · cases h
    split at h
    · cases h
    split at h
    · rename_i href
      cases h
      exact ⟨b, (pickRidge_some sq left b hpick).1, by omega, href⟩
    · exact hrec _ _ _ h
    · split at h
      · cases h
        exact hrec _ _ _ ‹_›
      · cases h

end Sys2Proof.Machine
end

section
/-! SUPPORT. What `find_peaks` stores (spec/43_peak_detector.md R155 to R160): the invariant of the selection loop, and
the stored ridges as the storable ones in the order of the picks. -/

namespace Sys2Proof.Machine

/-! ### What a run stores (R156 to R159) -/

/-- A ridge above `MIN_BIN` that passes the noise floor and the thresholds of all the ridges `rs` above `MIN_BIN`. -/
def Storable (c : Config) (thresh : Half) (sq rs : List Nat) (b : Nat) : Prop :=
  c.minBin < b ∧ c.noiseFloor.toNat * c.noiseFloor.toNat ≤ sqAt sq b ∧
    ∀ x ∈ rs, c.minBin < x → relativeThreshold c thresh (isqrt (sqAt sq x)) ≤ isqrt (sqAt sq b)

/-- What holds of the loop at every turn, `rs` being the ridges it started with: nothing above `MIN_BIN` is consumed
before the first survivor, and the first survivor is the highest ridge above `MIN_BIN`. -/
structure LoopInv (c : Config) (sq rs left : List Nat) (maxMag : Option Nat) : Prop where
  increasing : left.Pairwise (· < ·)
  subset : ∀ x ∈ left, x ∈ rs
  unconsumed : maxMag = none → ∀ x ∈ rs, c.minBin < x → x ∈ left
  first : ∀ top ∈ maxMag, (∃ y ∈ rs, c.minBin < y ∧ isqrt (sqAt sq y) = top) ∧
    ∀ x ∈ rs, c.minBin < x → isqrt (sqAt sq x) ≤ top

section Loop

variable {c : Config} {thresh : Half} {bins : List Bin} {rs left : List Nat} {room b : Nat} {maxMag : Option Nat}
  {stored : List (Nat × Frequency)}

theorem LoopInv.start {sq : List Nat} (h : rs.Pairwise (· < ·)) : LoopInv c sq rs rs none where
  increasing := h
  subset := fun _ hx => hx
  unconsumed := fun _ _ hx _ => hx
  first := fun _ htop => absurd htop (Option.not_mem_none _)

/-- Consuming a ridge at or below `MIN_BIN`. -/
theorem LoopInv.low {sq : List Nat} (h : LoopInv c sq rs left maxMag) (hlow : b ≤ c.minBin) :
    LoopInv c sq rs (left.erase b) maxMag where
  increasing := h.increasing.sublist List.erase_sublist
  subset := fun x hx => h.subset x (List.mem_of_mem_erase hx)
  unconsumed := fun hnone x hx hmin => (List.mem_erase_of_ne (by omega)).2 (h.unconsumed hnone x hx hmin)
  first := h.first

/-- No ridge above `MIN_BIN` is higher than the first survivor. -/
theorem LoopInv.isqrt_le_firstSurvivor (h : LoopInv c (squaredMags c bins) rs left maxMag)
    (hpick : pickRidge (squaredMags c bins) left = some b) :
    ∀ x ∈ rs, c.minBin < x →
      isqrt (sqAt (squaredMags c bins) x) ≤ maxMag.getD (isqrt (sqAt (squaredMags c bins) b)) := by
  intro x hx hmin
  cases maxMag with
  | none => exact isqrt_sqAt_mono ((pickRidge_some _ _ _ hpick).2 x (h.unconsumed rfl x hx hmin))
  | some top => exact (h.first top rfl).2 x hx hmin

/-- Consuming a ridge that survives. -/
theorem LoopInv.survivor (h : LoopInv c (squaredMags c bins) rs left maxMag)
    (hpick : pickRidge (squaredMags c bins) left = some b) (hmin : c.minBin < b) :
    LoopInv c (squaredMags c bins) rs (left.erase b) (firstSurvivor (squaredMags c bins) maxMag b) where
  increasing := h.increasing.sublist List.erase_sublist
  subset := fun x hx => h.subset x (List.mem_of_mem_erase hx)
  unconsumed := fun hnone => absurd hnone (Option.some_ne_none _)
  first := by
    intro top htop
    obtain rfl := Option.some.inj htop
    refine ⟨?_, h.isqrt_le_firstSurvivor hpick⟩
    cases hmax : maxMag with
    | none => exact ⟨b, h.subset b (pickRidge_some _ _ _ hpick).1, hmin, rfl⟩
    | some top => exact (h.first top hmax).1

/-- R158, R159: the loop's test of a picked ridge against the first survivor is the test against every ridge. -/
theorem LoopInv.survives_iff (h : LoopInv c (squaredMags c bins) rs left maxMag)
    (hpick : pickRidge (squaredMags c bins) left = some b) (hmin : c.minBin < b) :
    Survives c thresh (squaredMags c bins) maxMag b ↔ Storable c thresh (squaredMags c bins) rs b := by
  have hmax := h.isqrt_le_firstSurvivor hpick
  cases hm : maxMag with
  | none =>
    refine ⟨fun ⟨hfloor, _⟩ => ⟨hmin, hfloor, fun x hx hxmin => ?_⟩, fun ⟨_, hfloor, _⟩ => ⟨hfloor, rfl⟩⟩
    rw [hm] at hmax
    exact relativeThreshold_le thresh ((le_isqrt_sqAt_iff c bins _ b).2 hfloor) (hmax x hx hxmin)
  | some top =>
    have hbelow : belowThreshold c thresh (some top) (isqrt (sqAt (squaredMags c bins) b)) = false ↔
        relativeThreshold c thresh top ≤ isqrt (sqAt (squaredMags c bins) b) := by
      simp [belowThreshold]
    obtain ⟨⟨y, hy, hymin, rfl⟩, -⟩ := h.first top hm
    rw [hm] at hmax
    rw [Survives, hbelow]
    exact ⟨fun ⟨hfloor, hthr⟩ => ⟨hmin, hfloor, fun x hx hxmin =>
        (relativeThreshold_mono c thresh (hmax x hx hxmin)).trans hthr⟩,
      fun ⟨_, hfloor, hall⟩ => ⟨hfloor, hall y hy hymin⟩⟩

/-- Above `MIN_BIN`, a ridge as high as a storable one is storable. -/
theorem Storable.of_sqAt_le {a : Nat} (h : Storable c thresh (squaredMags c bins) rs a) (hmin : c.minBin < b)
    (hle : sqAt (squaredMags c bins) a ≤ sqAt (squaredMags c bins) b) :
    Storable c thresh (squaredMags c bins) rs b := by
  obtain ⟨-, hfloor, hall⟩ := h
  exact ⟨hmin, hfloor.trans hle, fun x hx hxmin =>
    (hall x hx hxmin).trans (Int.ofNat_le.2 (isqrt_sqAt_mono hle))⟩

/-- R157 to R160: what is stored is an unconsumed storable ridge with the frequency accepted for it. -/
theorem Selects.stored_storable (hsel : Selects c thresh (squaredMags c bins) left room maxMag stored)
    (hinv : LoopInv c (squaredMags c bins) rs left maxMag) :
    ∀ p ∈ stored, p.1 ∈ left ∧ Storable c thresh (squaredMags c bins) rs p.1 ∧
      refine c (squaredMags c bins) p.1 = .ok (some p.2) := by
  induction hsel with
  | full | exhausted | culled => exact fun _ hp => absurd hp List.not_mem_nil
  | low _ hlow _ ih =>
    intro p hp
    obtain ⟨hmem, hrest⟩ := ih (hinv.low hlow) p hp
    exact ⟨List.mem_of_mem_erase hmem, hrest⟩
  | rejected hpick hmin _ _ _ ih =>
    intro p hp
    obtain ⟨hmem, hrest⟩ := ih (hinv.survivor hpick hmin) p hp
    exact ⟨List.mem_of_mem_erase hmem, hrest⟩
  | stored hpick hmin hsurv href _ ih =>
    intro p hp
    obtain rfl | hp := List.mem_cons.1 hp
    · exact ⟨(pickRidge_some _ _ _ hpick).1, (hinv.survives_iff hpick hmin).1 hsurv, href⟩
    · obtain ⟨hmem, hrest⟩ := ih (hinv.survivor hpick hmin) p hp
      exact ⟨List.mem_of_mem_erase hmem, hrest⟩

/-- R156: the ridges are stored in the order of the picks. -/
theorem Selects.stored_pairwise (hsel : Selects c thresh (squaredMags c bins) left room maxMag stored)
    (hinv : LoopInv c (squaredMags c bins) rs left maxMag) :
    (stored.map Prod.fst).Pairwise (Outranks (squaredMags c bins)) := by
  induction hsel with
  | full | exhausted | culled => exact List.Pairwise.nil
  | low _ hlow _ ih => exact ih (hinv.low hlow)
  | rejected hpick hmin _ _ _ ih => exact ih (hinv.survivor hpick hmin)
  | @stored left _ _ _ _ _ hpick hmin _ _ hrest ih =>
    have hnext := hinv.survivor hpick hmin
    refine List.pairwise_cons.2 ⟨fun x hx => ?_, ih hnext⟩
    obtain ⟨p, hp, rfl⟩ := List.mem_map.1 hx
    obtain ⟨hmem, -⟩ := hrest.stored_storable hnext p hp
    have hnodup : left.Nodup := hinv.increasing.imp Nat.ne_of_lt
    obtain ⟨hne, hleft⟩ := hnodup.mem_erase_iff.1 hmem
    exact pickRidge_outranks hinv.increasing hpick _ hleft hne

/-- R155: an unconsumed storable ridge with an accepted frequency is left out only where the places run out, and then
every stored ridge outranks it. -/
theorem Selects.stored_complete (hsel : Selects c thresh (squaredMags c bins) left room maxMag stored)
    (hinv : LoopInv c (squaredMags c bins) rs left maxMag) (x : Nat) (hx : x ∈ left)
    (hstor : Storable c thresh (squaredMags c bins) rs x)
    (hacc : ∃ f, refine c (squaredMags c bins) x = .ok (some f)) (hout : x ∉ stored.map Prod.fst) :
    stored.length = room ∧ ∀ p ∈ stored, Outranks (squaredMags c bins) p.1 x := by
  induction hsel with
  | full => exact ⟨rfl, fun _ hp => absurd hp List.not_mem_nil⟩
  | exhausted => exact absurd hx List.not_mem_nil
  | low _ hlow _ ih =>
    have hne : x ≠ _ := (hlow.trans_lt hstor.1).ne'
    exact ih (hinv.low hlow) ((List.mem_erase_of_ne hne).2 hx) hout
  | culled hpick hmin hcull =>
    have hle := (pickRidge_some _ _ _ hpick).2 x hx
    exact absurd ((hinv.survives_iff hpick hmin).2 (hstor.of_sqAt_le hmin hle)) hcull
  | rejected hpick hmin _ href _ ih =>
    obtain ⟨f, hf⟩ := hacc
    have hne : x ≠ _ := fun h => by
      rw [h, href] at hf
      cases hf
    exact ih (hinv.survivor hpick hmin) ((List.mem_erase_of_ne hne).2 hx) hout
  | stored hpick hmin _ _ _ ih =>
    rw [List.map_cons, List.mem_cons, not_or] at hout
    obtain ⟨hne, hout⟩ := hout
    obtain ⟨hlen, hall⟩ := ih (hinv.survivor hpick hmin) ((List.mem_erase_of_ne hne).2 hx) hout
    refine ⟨by rw [List.length_cons, hlen], fun p hp => ?_⟩
    obtain rfl | hp := List.mem_cons.1 hp
    · exact pickRidge_outranks hinv.increasing hpick x hx hne
    · exact hall p hp

end Loop

/-! ### `find_peaks` (R155) -/

/-- What a run of `find_peaks` without a fault is: the ridges found, and a run of the selection loop over them. -/
theorem findPeaks_ok_selects {c : Config} {thresh : Half} {bins : List Bin} {ps : List PeakEntry} (hn : 2 ≤ c.nbins)
    (h : findPeaks c thresh bins = .ok ps) :
    ∃ rs stored, ridges c (squaredMags c bins) = .ok rs ∧ LoopInv c (squaredMags c bins) rs rs none ∧
      Selects c thresh (squaredMags c bins) rs c.maxPeaks none stored ∧
      ps = stored.map fun p => peakOf c bins (squaredMags c bins) p.1 p.2 := by
  simp only [findPeaks] at h
  split at h
  · cases h
  · rename_i rs hrs
    obtain ⟨stored, hsel, hps⟩ := selectPeaks_ok_selects c thresh bins _ _ _ _ _ _ le_rfl h
    have hinc : rs.Pairwise (· < ·) := by
      rw [eq_maximaFrom_of_ridges_ok hn hrs]
      exact (maximaFrom_pairwise c _ 1).imp fun hgap => by omega
    exact ⟨rs, stored, hrs, .start hinc, hsel, hps⟩

theorem peakOf_mag_toNat (c : Config) (bins : List Bin) (b : Nat) (f : Frequency) :
    (peakOf c bins (squaredMags c bins) b f).mag.toNat = isqrt (sqAt (squaredMags c bins) b) := by
  have hle : isqrt (sqAt (squaredMags c bins) b) ≤ 46340 :=
    isqrt_two_pow_31 ▸ isqrt_mono (sqAt_squaredMags_le c bins b) (by norm_num)
  rw [peakOf, BitVec.toNat_ofNat]
  exact Nat.mod_eq_of_lt (by omega)

/-- R158: the record of a storable ridge is not below the noise floor. -/
theorem Storable.noiseFloor_le_mag {c : Config} {thresh : Half} {bins : List Bin} {rs : List Nat} {b : Nat}
    (h : Storable c thresh (squaredMags c bins) rs b) (f : Frequency) :
    c.noiseFloor.toNat ≤ (peakOf c bins (squaredMags c bins) b f).mag.toNat := by
  obtain ⟨-, hfloor, -⟩ := h
  rw [peakOf_mag_toNat]
  exact (le_isqrt_sqAt_iff c bins _ b).2 hfloor

end Sys2Proof.Machine
end

section
/-! SUPPORT. PEAKS as a command (spec/43_peak_detector.md R150, R155, R161): the range of the refined frequency, when
`find_peaks` raises no fault, the two outcomes of the command, and spectra of one bin. -/

namespace Sys2Proof.Machine

/-! ### The refined frequency (spec/44_peak_interpolator.md R172, R174, R175) -/

theorem direction_bounds (l r : Nat) : -1 ≤ direction l r ∧ direction l r ≤ 1 := by
  unfold direction
  split
  · omega
  · split <;> omega

/-- R174: the adjustment is at most one bin's width in either direction. -/
theorem adjustedFreq_bounds (c : Config) (sq : List Nat) (b : Nat) :
    ((b : Int) - 1) * c.freqPerBin.toNat ≤ adjustedFreq c sq b ∧
      adjustedFreq c sq b ≤ ((b : Int) + 1) * c.freqPerBin.toNat := by
  simp only [adjustedFreq, adjustment]
  obtain ⟨hlo, hhi⟩ := sfApply_bounds_of_nonneg
    (halfFraction (leftMag sq b) (centreMag sq b) (rightMag c sq b)) (c.freqPerBin.toNat : Int) (by positivity)
  obtain ⟨hdlo, hdhi⟩ := direction_bounds (leftMag sq b) (rightMag c sq b)
  rw [sub_mul, add_mul, one_mul]
  constructor <;> nlinarith

/-- R175: a multiplier of at most 1 lowers a frequency. -/
theorem nightcore_bounds {c : Config} {f : Int} (hden : 1 ≤ c.ncDen.toNat) (hle : c.ncNum.toNat ≤ c.ncDen.toNat)
    (hf : 0 ≤ f) : 0 ≤ nightcore c f ∧ nightcore c f ≤ f := by
  have hmul : f * c.ncNum.toNat ≤ f * c.ncDen.toNat := Int.mul_le_mul_of_nonneg_left (by omega) hf
  have hpos : 0 ≤ f * (c.ncNum.toNat : Int) := by positivity
  refine ⟨Int.ediv_nonneg (by omega) (by omega), ?_⟩
  rw [nightcore, ← Int.lt_add_one_iff]
  apply Int.ediv_lt_of_lt_mul (by omega)
  rw [add_mul, one_mul]
  omega

/-- R10, R12: the whole analysed range of a well-formed configuration fits 32 bits, so a bin's frequency with its
adjustment needs no narrowing. -/
theorem adjustedFreq_fits {c : Config} (hc : c.wellFormed = true) (sq : List Nat) {b : Nat} (hb : 1 ≤ b)
    (hbn : b < c.nbins) : 0 ≤ adjustedFreq c sq b ∧ adjustedFreq c sq b ≤ 2 ^ 32 - 1 := by
  obtain ⟨-, -, -, -, -, -, -, ⟨-, hrange⟩, -⟩ := Config_wellFormed_parts c hc
  obtain ⟨hlo, hhi⟩ := adjustedFreq_bounds c sq b
  have htop : ((b : Int) + 1) * c.freqPerBin.toNat ≤ c.nbins * c.freqPerBin.toNat :=
    Int.mul_le_mul_of_nonneg_right (by omega) (by positivity)
  have hbottom : 0 ≤ ((b : Int) - 1) * c.freqPerBin.toNat := mul_nonneg (by omega) (by positivity)
  rw [← Int.natCast_mul] at htop
  omega

/-- R175: with a multiplier of at most 1, or saturation, a ridge's refinement raises no fault. -/
theorem refine_ne_error {c : Config} (hc : c.wellFormed = true) (sq : List Nat) {b : Nat} (hb : 1 ≤ b)
    (hbn : b < c.nbins) (hmul : c.ovfMode = .saturate ∨ c.ncNum.toNat ≤ c.ncDen.toNat) (code : FaultCode) :
    refine c sq b ≠ .error code := by
  intro h
  obtain ⟨-, -, -, -, -, -, -, -, -, ⟨-, hden⟩, -⟩ := Config_wellFormed_parts c hc
  rw [refine] at h
  split at h
  · rename_i hn
    obtain ⟨-, hmode, hout⟩ := narrow_error _ _ _ _ _ hn
    obtain hsat | hle := hmul
    · cases hmode.symm.trans hsat
    · obtain ⟨hlo, hhi⟩ := adjustedFreq_fits hc sq hb hbn
      obtain ⟨hnlo, hnhi⟩ := nightcore_bounds hden hle hlo
      exact hout ⟨hnlo, hnhi.trans hhi⟩
  · split at h <;> cases h

/-- R172, R174: between two neighbours of the same magnitude a ridge has its bin's nominal frequency. -/
theorem adjustedFreq_of_leftMag_eq_rightMag {c : Config} {sq : List Nat} {b : Nat}
    (h : leftMag sq b = rightMag c sq b) : adjustedFreq c sq b = b * c.freqPerBin.toNat := by
  simp [adjustedFreq, direction, h]

/-- R175: the multiplier off. -/
theorem nightcore_off {c : Config} (hnum : c.ncNum = 1) (hden : c.ncDen = 1) (f : Int) : nightcore c f = f := by
  have hone : ((1 : Half).toNat : Int) = 1 := rfl
  rw [nightcore, hnum, hden, hone]
  omega

/-- R176: with the multiplier off, the nominal frequency of a ridge above bin 0 is accepted up to `MAX_FREQ`. -/
theorem refine_nominal {c : Config} (hc : c.wellFormed = true) {sq : List Nat} {b : Nat} (hb : 1 ≤ b)
    (hbn : b < c.nbins) (hnum : c.ncNum = 1) (hden : c.ncDen = 1) (hmax : b * c.freqPerBin.toNat ≤ c.maxFreq.toNat)
    (heq : leftMag sq b = rightMag c sq b) :
    refine c sq b = .ok (some (BitVec.ofNat 32 (b * c.freqPerBin.toNat))) := by
  obtain ⟨-, -, -, -, -, -, -, ⟨hfreq, -⟩, -⟩ := Config_wellFormed_parts c hc
  have hpos : 1 ≤ b * c.freqPerBin.toNat := Nat.mul_le_mul hb hfreq
  obtain ⟨hlo, hhi⟩ := adjustedFreq_fits hc sq hb hbn
  rw [adjustedFreq_of_leftMag_eq_rightMag heq] at hlo hhi
  rw [refine, adjustedFreq_of_leftMag_eq_rightMag heq, nightcore_off hnum hden, narrow_of_fits _ _ _ _ ⟨hlo, hhi⟩,
    ← Int.natCast_mul]
  simp only [BitVec.ofInt_natCast]
  rw [if_neg (by omega)]

/-! ### The command (R150, R155, R234) -/

/-- `find_peaks` when the ridge list is not full. -/
theorem findPeaks_of_ridges_ok {c : Config} {thresh : Half} {bins : List Bin} {rs : List Nat}
    (h : ridges c (squaredMags c bins) = .ok rs) :
    findPeaks c thresh bins = selectPeaks c thresh bins (squaredMags c bins) rs.length rs c.maxPeaks none := by
  simp only [findPeaks, h]

/-- `find_peaks` when it is full (R153). -/
theorem findPeaks_of_ridges_error {c : Config} {thresh : Half} {bins : List Bin} {code : FaultCode}
    (h : ridges c (squaredMags c bins) = .error code) : findPeaks c thresh bins = .error code := by
  simp only [findPeaks, h]

/-- With the default capacity `find_peaks` can only fault in the refinement of a ridge at or above the noise floor. -/
theorem findPeaks_ok_of_refine {c : Config} (hc : c.wellFormed = true) (hcap : c.defaultRidgeCap ≤ c.ridgeCap)
    (thresh : Half) (bins : List Bin)
    (h : ∀ b code, 1 ≤ b → b < c.nbins → c.noiseFloor.toNat * c.noiseFloor.toNat ≤ sqAt (squaredMags c bins) b →
      refine c (squaredMags c bins) b ≠ .error code) : ∃ ps, findPeaks c thresh bins = .ok ps := by
  have hn := Config_two_le_nbins c hc
  have hrs := ridges_eq_of_defaultRidgeCap c (squaredMags c bins) hn hcap
  rw [findPeaks_of_ridges_ok hrs]
  generalize hres : selectPeaks c thresh bins (squaredMags c bins) _ _ c.maxPeaks none = result
  cases result with
  | ok ps => exact ⟨ps, rfl⟩
  | error code =>
    obtain ⟨b, hb, hfloor, hfault⟩ := selectPeaks_error_mem _ _ _ _ _ _ _ _ _ hres
    obtain ⟨hlo, hhi⟩ := mem_ridges_bounds hn hrs hb
    exact absurd hfault (h b code hlo hhi hfloor)

/-- Outside the stopped state PEAKS that raises no fault stores its peaks, with `ERR = OK`. -/
theorem exec_peaks_completes (s : State) (hf : s.status.fault = false) (ps : List PeakEntry)
    (h : findPeaks s.cfg s.thresh s.loadBuf = .ok ps) :
    exec .peaks s =
      .next { s.setErr .ok with peak := overlay ps s.peak, peakCount := BitVec.ofNat 6 ps.length } := by
  have hfind : findPeaks (s.setErr .ok).cfg (s.setErr .ok).amplitudeThreshold (s.setErr .ok).loadBuf = .ok ps := h
  rw [exec_running .peaks s hf]
  simp only [bodyOf, peaksBody, hfind, State.setErr_peak]

/-- Outside the stopped state PEAKS that raises a fault enters it. -/
theorem exec_peaks_faults (s : State) (hf : s.status.fault = false) (code : FaultCode)
    (h : findPeaks s.cfg s.thresh s.loadBuf = .error code) :
    exec .peaks s = .next ((s.setErr .ok).faultEntry .peaks code) := by
  have hfind : findPeaks (s.setErr .ok).cfg (s.setErr .ok).amplitudeThreshold (s.setErr .ok).loadBuf = .error code := h
  rw [exec_running .peaks s hf]
  simp only [bodyOf, peaksBody, hfind]

/-- R29: the number of peaks found fits `PEAK_COUNT`. -/
theorem peakCount_of_findPeaks_ok {c : Config} (hc : c.wellFormed = true) {thresh : Half} {bins : List Bin}
    {ps : List PeakEntry} (h : findPeaks c thresh bins = .ok ps) :
    (BitVec.ofNat 6 ps.length).toNat = ps.length ∧ ps.length ≤ c.maxPeaks := by
  obtain ⟨-, -, ⟨-, hmax⟩, -⟩ := Config_wellFormed_parts c hc
  have hlen := (findPeaks_ok c thresh bins ps h).1
  rw [BitVec.toNat_ofNat]
  exact ⟨Nat.mod_eq_of_lt (by omega), hlen⟩

/-! ### Spectra of one bin (R161) -/

/-- The squared magnitudes are 0 but for those of bin `b`, which lies inside the spectrum and is not below the noise
floor, itself above 0. -/
structure OneBin (c : Config) (sq : List Nat) (b : Nat) : Prop where
  inside : 1 ≤ b ∧ b + 1 < c.nbins
  floorPos : 1 ≤ c.noiseFloor.toNat
  floor : c.noiseFloor.toNat * c.noiseFloor.toNat ≤ sqAt sq b
  zero : ∀ i, i < c.nbins → i ≠ b → sqAt sq i = 0

theorem OneBin.isLocalMax {c : Config} {sq : List Nat} {b : Nat} (h : OneBin c sq b) : isLocalMax c sq b := by
  obtain ⟨hlo, hhi⟩ := h.inside
  have hpos := (Nat.mul_pos h.floorPos h.floorPos).trans_le h.floor
  rw [isLocalMax_iff, h.zero (b - 1) (by omega) (by omega), h.zero (b + 1) hhi (by omega)]
  exact ⟨hlo, .inr hpos, .inr (Nat.zero_le _)⟩

/-- Both neighbours of the bin are 0, so it has its nominal frequency. -/
theorem OneBin.leftMag_eq_rightMag {c : Config} {sq : List Nat} {b : Nat} (h : OneBin c sq b) :
    leftMag sq b = rightMag c sq b := by
  obtain ⟨hlo, hhi⟩ := h.inside
  rw [leftMag, rightMag, if_pos hlo, if_pos hhi, h.zero (b - 1) (by omega) (by omega), h.zero (b + 1) hhi (by omega)]

/-- No other bin reaches the noise floor. -/
theorem OneBin.eq_of_floor_le {c : Config} {sq : List Nat} {b x : Nat} (h : OneBin c sq b) (hx : x < c.nbins)
    (hle : c.noiseFloor.toNat * c.noiseFloor.toNat ≤ sqAt sq x) : x = b := by
  by_contra hne
  rw [h.zero x hx hne] at hle
  exact absurd (Nat.mul_pos h.floorPos h.floorPos) (not_lt.2 hle)

/-- No ridge's threshold exceeds the magnitude of the bin, the highest. -/
theorem OneBin.storable {c : Config} {thresh : Half} {bins : List Bin} {rs : List Nat} {b : Nat}
    (h : OneBin c (squaredMags c bins) b) (hmin : c.minBin < b) (hrs : ∀ x ∈ rs, x < c.nbins) :
    Storable c thresh (squaredMags c bins) rs b := by
  refine ⟨hmin, h.floor, fun x hx _ => relativeThreshold_le thresh ((le_isqrt_sqAt_iff c bins _ b).2 h.floor) ?_⟩
  obtain rfl | hne := eq_or_ne x b
  · exact le_rfl
  · exact isqrt_sqAt_mono ((h.zero x (hrs x hx) hne).trans_le (Nat.zero_le _))

/-- R161: the one bin above the noise floor is the one peak, at its nominal frequency. -/
theorem findPeaks_oneBin {c : Config} {thresh : Half} {bins : List Bin} {b : Nat} {ps : List PeakEntry}
    (hc : c.wellFormed = true) (h : OneBin c (squaredMags c bins) b) (hmin : c.minBin < b)
    (href : refine c (squaredMags c bins) b = .ok (some (BitVec.ofNat 32 (b * c.freqPerBin.toNat))))
    (hps : findPeaks c thresh bins = .ok ps) :
    ps = [peakOf c bins (squaredMags c bins) b (BitVec.ofNat 32 (b * c.freqPerBin.toNat))] := by
  have hn := Config_two_le_nbins c hc
  obtain ⟨-, -, ⟨hroom, -⟩, -⟩ := Config_wellFormed_parts c hc
  obtain ⟨rs, stored, hrs, hinv, hsel, rfl⟩ := findPeaks_ok_selects hn hps
  have honly : ∀ p ∈ stored, p = (b, BitVec.ofNat 32 (b * c.freqPerBin.toNat)) := fun p hp => by
    obtain ⟨hmem, ⟨-, hpfloor, -⟩, hacc⟩ := hsel.stored_storable hinv p hp
    have hpb := h.eq_of_floor_le (mem_ridges_bounds hn hrs hmem).2 hpfloor
    rw [hpb, href] at hacc
    exact Prod.ext hpb (Option.some.inj (Except.ok.inj hacc)).symm
  have horder := hsel.stored_pairwise hinv
  cases stored with
  | nil =>
    have hb : b ∈ rs := by
      rw [eq_maximaFrom_of_ridges_ok hn hrs, mem_maximaFrom (by omega)]
      exact ⟨⟨h.inside.1, by have := h.inside.2; omega⟩, h.isLocalMax⟩
    obtain ⟨hfull, -⟩ := hsel.stored_complete hinv b hb
      (h.storable hmin fun x hx => (mem_ridges_bounds hn hrs hx).2) ⟨_, href⟩ List.not_mem_nil
    exact absurd hfull (by rw [List.length_nil]; omega)
  | cons p rest =>
    obtain rfl := honly p List.mem_cons_self
    cases rest with
    | nil => rfl
    | cons q rest =>
      obtain rfl := honly q (by simp)
      exact absurd rfl ((List.pairwise_cons.1 horder).1 b (by simp)).ne

end Sys2Proof.Machine
end

section
/-! Family 43_peak_detector.md: what PEAKS stores, when it completes and when it faults, the ridge list, the stored
peaks. -/

namespace Sys2Proof.Machine

/-- Settles O37: the table is overlaid with what is found, which is at most `MAX_PEAKS` long. -/
theorem peaksStoresWhatItFinds : Obligations.PeaksStoresWhatItFinds := by
  intro s ps hf hc ⟨hpeak, _, _⟩ hps
  obtain ⟨hcount, hlen⟩ := peakCount_of_findPeaks_ok hc hps
  exact ⟨binAt_loadBuf s, squaredMags_loadBuf_length s, sqAt_squaredMags_loadBuf s, _,
    exec_peaks_completes s hf ps hps, rfl, hcount, hlen, (overlay_length _ _ (hpeak ▸ hlen)).trans hpeak,
    fun k => overlay_getD ps s.peak k _⟩

/-- Settles O38: neither the scan nor any refinement can fault. -/
theorem peaksCompletesByDefault : Obligations.PeaksCompletesByDefault := by
  intro s hf hc hcap hmul
  obtain ⟨ps, hps⟩ := findPeaks_ok_of_refine hc hcap s.thresh s.loadBuf
    fun b code hlo hhi _ => refine_ne_error hc _ hlo hhi hmul code
  obtain ⟨hcount, hlen⟩ := peakCount_of_findPeaks_ok hc hps
  exact ⟨_, exec_peaks_completes s hf ps hps, rfl, hcount.le.trans hlen⟩

/-- Settles O39: the default scan finds the local maxima, too many for the scan with this capacity; fault entry for
PEAKS frees the PEAK table and its count only. -/
theorem tooManyRidgesFault : Obligations.TooManyRidgesFault := by
  intro s rs hf hc hrs hmore
  have hn := Config_two_le_nbins s.cfg hc
  have hmax : rs = maximaFrom s.cfg (squaredMags s.cfg s.loadBuf) 1 :=
    eq_maximaFrom_of_ridges_ok (c := { s.cfg with ridgeCap := s.cfg.defaultRidgeCap }) hn hrs
  have hfault : ridges s.cfg (squaredMags s.cfg s.loadBuf) = .error .capacity := by
    rw [ridges_eq _ _ hn, ← hmax, if_neg (by omega)]
  exact ⟨_, exec_peaks_faults s hf .capacity (findPeaks_of_ridges_error hfault), rfl⟩

/-- Settles O40: the statement's list is `maximaFrom`, and `ridges_eq` gives the scan by it. -/
theorem ridgesAreTheLocalMaxima : Obligations.RidgesAreTheLocalMaxima := by
  intro c sq hc maxima
  have hn := Config_two_le_nbins c hc
  have hmax : maxima = maximaFrom c sq 1 := filter_range_isLocalMax c sq
  rw [hmax]
  refine ⟨fun i hi => List.getD_eq_getElem sq _ hi, fun hfit => ?_, fun hmore => ?_,
    ridges_eq_of_defaultRidgeCap c sq hn⟩
  · rw [ridges_eq c sq hn, if_pos hfit]
  · rw [ridges_eq c sq hn, if_neg (by omega)]

/-- Settles O41: what the scan finds are the local maxima, of which no two are neighbours. -/
theorem ridgeListProperties : Obligations.RidgeListProperties := by
  intro c sq rs hc h
  have hn := Config_two_le_nbins c hc
  have hbounds : ∀ r ∈ rs, 1 ≤ r ∧ r ≤ c.nbins - 1 := fun r hr => by
    obtain ⟨hlo, hhi⟩ := mem_ridges_bounds hn h hr
    exact ⟨hlo, Nat.le_sub_one_of_lt hhi⟩
  obtain rfl := eq_maximaFrom_of_ridges_ok hn h
  exact ⟨maximaFrom_one_ne_nil c sq hn, hbounds, maximaFrom_pairwise c sq 1,
    two_mul_length_maximaFrom_le c sq (by omega)⟩

/-- Settles O42: the run of the loop gives the stored ridges, `Storable` being the statement's floor and thresholds. -/
theorem storedPeaksAreOrderedAndCulled : Obligations.StoredPeaksAreOrderedAndCulled := by
  intro c thresh bins ps hc h sq magnitude threshold before
  have hn := Config_two_le_nbins c hc
  obtain ⟨rs, stored, hrs, hinv, hsel, rfl⟩ := findPeaks_ok_selects hn h
  have hmag : ∀ b ∈ rs, magnitude b = isqrt (sqAt sq b) := fun b hb =>
    congrArg isqrt (sqAt_squaredMags c bins b (mem_ridges_bounds hn hrs hb).2).symm
  have hstored := hsel.stored_storable hinv
  have horder := hsel.stored_pairwise hinv
  refine ⟨?_, fun e he => ?_, fun first hfirst e he => ?_, rs, stored.map Prod.fst, hrs, horder, ?_,
    fun b hb hmin hfloor hthr hacc hout => ?_⟩
  · refine List.pairwise_map.2 ((List.pairwise_map.1 horder).imp fun {p q} hout => ?_)
    rw [peakOf_mag_toNat, peakOf_mag_toNat]
    exact isqrt_sqAt_mono hout.sqAt_le
  · obtain ⟨p, hp, rfl⟩ := List.mem_map.1 he
    obtain ⟨-, hstor, hacc⟩ := hstored p hp
    obtain ⟨hlo, hhi, hmax⟩ := peakOf_bounded c bins p.1 p.2 hacc
    exact ⟨hstor.noiseFloor_le_mag p.2, hmax, hlo, hhi⟩
  · obtain ⟨q, hq, rfl⟩ := List.mem_map.1 (List.mem_of_mem_head? hfirst)
    obtain ⟨p, hp, rfl⟩ := List.mem_map.1 (List.mem_of_mem_tail he)
    obtain ⟨-, ⟨-, -, hthr⟩, -⟩ := hstored p hp
    obtain ⟨hmem, ⟨hmin, -, -⟩, -⟩ := hstored q hq
    rw [peakOf_mag_toNat, peakOf_mag_toNat]
    exact hthr q.1 hmem hmin
  · rw [List.forall₂_map_left_iff, List.forall₂_map_right_iff, List.forall₂_same]
    intro p hp
    obtain ⟨hmem, ⟨hmin, -, hthr⟩, hacc⟩ := hstored p hp
    refine ⟨hmem, hmin, hacc, ?_, rfl, fun x hx hxmin => ?_⟩
    · rw [peakOf_mag_toNat, hmag p.1 hmem]
    · rw [peakOf_mag_toNat, hmag x hx]
      exact hthr x hx hxmin
  · have hstor : Storable c thresh sq rs b := by
      refine ⟨hmin, (le_isqrt_sqAt_iff c bins _ b).1 (hmag b hb ▸ hfloor), fun x hx hxmin => ?_⟩
      rw [← hmag x hx, ← hmag b hb]
      exact hthr x hx hxmin
    obtain ⟨hlen, hall⟩ := hsel.stored_complete hinv b hb hstor hacc hout
    refine ⟨by rw [List.length_map, hlen], fun a ha => ?_⟩
    obtain ⟨p, hp, rfl⟩ := List.mem_map.1 ha
    exact hall p hp

/-- Settles O43: no ridge reaches the refinement or the table, since both need the noise floor. -/
theorem allBelowFloorYieldsNoPeak : Obligations.AllBelowFloorYieldsNoPeak := by
  intro s hf hc hcap hbelow
  have hlow : ∀ b, b < s.cfg.nbins →
      ¬ s.cfg.noiseFloor.toNat * s.cfg.noiseFloor.toNat ≤ sqAt (squaredMags s.cfg s.loadBuf) b := fun b hb => by
    rw [sqAt_squaredMags_loadBuf s b hb]
    exact not_le.2 (hbelow b hb)
  obtain ⟨ps, hps⟩ := findPeaks_ok_of_refine hc hcap s.thresh s.loadBuf
    fun b code _ hhi hfloor => absurd hfloor (hlow b hhi)
  have hn := Config_two_le_nbins s.cfg hc
  obtain ⟨rs, stored, hrs, hinv, hsel, rfl⟩ := findPeaks_ok_selects hn hps
  obtain rfl : stored = [] := List.eq_nil_iff_forall_not_mem.2 fun p hp => by
    obtain ⟨hmem, ⟨-, hfloor, -⟩, -⟩ := hsel.stored_storable hinv p hp
    exact hlow p.1 (mem_ridges_bounds hn hrs hmem).2 hfloor
  exact exec_peaks_completes s hf [] hps

/-- Settles O44: nothing can fault with the multiplier off, and the one peak is stored in entry 0. -/
theorem oneBinYieldsOnePeak : Obligations.OneBinYieldsOnePeak := by
  intro s b hf hc _ hcap hnum hden hfloor hmin hlast hmax hzero hbfloor
  have hb : b < s.cfg.nbins := by omega
  have hone : OneBin s.cfg (squaredMags s.cfg s.loadBuf) b := by
    rw [← sqAt_squaredMags_loadBuf s b hb] at hbfloor
    refine ⟨⟨by omega, hlast⟩, hfloor, hbfloor, fun i hi hne => ?_⟩
    rw [sqAt_squaredMags_loadBuf s i hi, hzero i hi hne]
    rfl
  have hmul : s.cfg.ncNum.toNat ≤ s.cfg.ncDen.toNat := by rw [hnum, hden]
  obtain ⟨ps, hps⟩ := findPeaks_ok_of_refine hc hcap s.thresh s.loadBuf
    fun x code hlo hhi _ => refine_ne_error hc _ hlo hhi (.inr hmul) code
  have href := refine_nominal hc hone.inside.1 hb hnum hden hmax hone.leftMag_eq_rightMag
  have hpeak := findPeaks_oneBin hc hone hmin href hps
  refine ⟨_, exec_peaks_completes s hf ps hps, ?_, ?_⟩
  · rw [hpeak]
    rfl
  · have hbin : s.loadBuf.getD b { re := 0, im := 0 } = s.bin b := binAt_loadBuf s b (hb.trans_le (nbins_le_nfft s.cfg))
    rw [hpeak, State.peakAt, overlay_getD, List.length_singleton, if_pos Nat.one_pos, List.getD_cons_zero, peakOf, hbin,
      sqAt_squaredMags_loadBuf s b hb]

end Sys2Proof.Machine
end

section
/-! SUPPORT. The refinement of a ridge by its values (spec/44_peak_interpolator.md R172 to R176): the adjustment in
either direction, its bound of half a bin, the outcomes of the narrowing, and when `find_peaks` reaches a ridge whose
refinement faults. -/

namespace Sys2Proof.Machine

/-! ### The adjustment (R172 to R174) -/

theorem largeExcess_eq (l r : Nat) : largeExcess l r = max l r - min l r := by
  unfold largeExcess
  split
  · omega
  · split <;> omega

/-- R173: the fraction fits in the 16 bits of a Scaling Factor, so nothing of it is lost. -/
theorem halfFraction_toNat (l m r : Nat) :
    (halfFraction l m r).toNat = min 65535 ((max l r - min l r) * 2 ^ 16 / (m - min l r + 1)) / 2 := by
  rw [halfFraction, largeExcess_eq, centreExcess, BitVec.toNat_ofNat]
  exact Nat.mod_eq_of_lt (by omega)

/-- R173: less than half of a bin. -/
theorem halfFraction_toNat_lt (l m r : Nat) : (halfFraction l m r).toNat < 32768 := by
  rw [halfFraction_toNat]
  omega

theorem adjustment_eq (c : Config) (l m r : Nat) :
    adjustment c l m r = ((c.freqPerBin.toNat * (halfFraction l m r).toNat + 32768) / 65536 : Nat) := by
  rw [adjustment, sfApply_eq]
  norm_cast

/-- R174: half of a bin's width is not exceeded, the rounding included. -/
theorem two_mul_adjustment_le {c : Config} (hfreq : 1 ≤ c.freqPerBin.toNat) (l m r : Nat) :
    2 * adjustment c l m r ≤ c.freqPerBin.toNat := by
  have hhalf := halfFraction_toNat_lt l m r
  have hmul : c.freqPerBin.toNat * (halfFraction l m r).toNat ≤ c.freqPerBin.toNat * 32767 :=
    Nat.mul_le_mul_left _ (by omega)
  rw [adjustment_eq]
  omega

/-- R172, R174: towards a larger right neighbour. -/
theorem adjustedFreq_of_leftMag_lt_rightMag {c : Config} {sq : List Nat} {b : Nat}
    (h : leftMag sq b < rightMag c sq b) :
    adjustedFreq c sq b =
      b * c.freqPerBin.toNat + adjustment c (leftMag sq b) (centreMag sq b) (rightMag c sq b) := by
  simp only [adjustedFreq, direction, gt_iff_lt, if_pos h, one_mul]

/-- R172, R174: towards a larger left neighbour. -/
theorem adjustedFreq_of_rightMag_lt_leftMag {c : Config} {sq : List Nat} {b : Nat}
    (h : rightMag c sq b < leftMag sq b) :
    adjustedFreq c sq b =
      b * c.freqPerBin.toNat - adjustment c (leftMag sq b) (centreMag sq b) (rightMag c sq b) := by
  simp only [adjustedFreq, direction, gt_iff_lt, if_neg h.not_gt, if_pos h, neg_one_mul, ← sub_eq_add_neg]

/-- R174: a refined frequency before the multiplier is within half a bin of the nominal one. -/
theorem two_mul_abs_adjustedFreq_sub_le {c : Config} (hfreq : 1 ≤ c.freqPerBin.toNat) (sq : List Nat) (b : Nat) :
    2 * |adjustedFreq c sq b - b * c.freqPerBin.toNat| ≤ c.freqPerBin.toNat := by
  have hle := two_mul_adjustment_le hfreq (leftMag sq b) (centreMag sq b) (rightMag c sq b)
  have hpos : |adjustment c (leftMag sq b) (centreMag sq b) (rightMag c sq b)| = adjustment c _ _ _ :=
    abs_of_nonneg (by rw [adjustment_eq]; exact Int.natCast_nonneg _)
  obtain hlt | heq | hgt := lt_trichotomy (leftMag sq b) (rightMag c sq b)
  · rwa [adjustedFreq_of_leftMag_lt_rightMag hlt, add_sub_cancel_left, hpos]
  · rw [adjustedFreq_of_leftMag_eq_rightMag heq, sub_self, abs_zero]
    omega
  · rwa [adjustedFreq_of_rightMag_lt_leftMag hgt, sub_sub_cancel_left, abs_neg, hpos]

/-- Half a bin below its nominal frequency a ridge above bin 0 is still above 0. -/
theorem one_le_adjustedFreq {c : Config} (hfreq : 1 ≤ c.freqPerBin.toNat) (sq : List Nat) {b : Nat} (hb : 1 ≤ b) :
    1 ≤ adjustedFreq c sq b := by
  have hnear := two_mul_abs_adjustedFreq_sub_le hfreq sq b
  have hbelow := neg_abs_le (adjustedFreq c sq b - b * c.freqPerBin.toNat)
  have hnominal : c.freqPerBin.toNat ≤ b * c.freqPerBin.toNat := Nat.le_mul_of_pos_left _ hb
  rw [← Int.natCast_mul] at hnear hbelow
  omega

/-! ### The multiplier and the tests (R175, R176) -/

theorem nightcore_nonneg (c : Config) {f : Int} (hf : 0 ≤ f) : 0 ≤ nightcore c f := by
  unfold nightcore
  positivity

/-- R112: a value not below the range that raises no fault is cut at the upper bound. -/
theorem narrow_eq_min {mode : OvfMode} {v lo hi : Int} (hlo : lo ≤ v) (h : v ≤ hi ∨ mode = .saturate) :
    narrow mode v lo hi = .ok (min v hi) := by
  by_cases hhi : v ≤ hi
  · rw [narrow_of_fits _ _ _ _ ⟨hlo, hhi⟩, min_eq_left hhi]
  · obtain rfl := h.resolve_left hhi
    rw [narrow_saturate _ _ _ fun hfit => hhi hfit.2, if_neg hlo.not_gt, min_eq_right (not_le.1 hhi).le]

/-- R175: a frequency above 32 bits faults with `OVF_MODE = FAULT`. -/
theorem refine_of_nightcore_gt {c : Config} {sq : List Nat} {b : Nat} (hmode : c.ovfMode = .fault)
    (h : 2 ^ 32 - 1 < nightcore c (adjustedFreq c sq b)) : refine c sq b = .error .arith := by
  rw [refine, hmode, narrow_fault _ _ _ fun hfit => absurd hfit.2 (not_le.2 h)]

/-- R176: the narrowed frequency is rejected. -/
theorem refine_of_rejected {c : Config} {sq : List Nat} {b : Nat} {g : Int}
    (hn : narrow c.ovfMode (nightcore c (adjustedFreq c sq b)) 0 (2 ^ 32 - 1) = .ok g)
    (h : g = 0 ∨ c.maxFreq.toNat < g) : refine c sq b = .ok none := by
  simp only [refine, hn, gt_iff_lt, if_pos h]

/-- R176: the narrowed frequency is accepted as it is. -/
theorem refine_of_accepted {c : Config} {sq : List Nat} {b : Nat} {g : Int}
    (hn : narrow c.ovfMode (nightcore c (adjustedFreq c sq b)) 0 (2 ^ 32 - 1) = .ok g)
    (hzero : g ≠ 0) (hmax : g ≤ c.maxFreq.toNat) :
    ∃ f, refine c sq b = .ok (some f) ∧ (f.toNat : Int) = g := by
  obtain ⟨hlo, hhi⟩ := narrow_bounds _ _ _ _ _ (by norm_num) hn
  refine ⟨BitVec.ofInt 32 g, ?_, ?_⟩
  · simp only [refine, hn, gt_iff_lt, if_neg (not_or.2 ⟨hzero, hmax.not_gt⟩)]
  · rw [BitVec.toNat_ofInt]
    omega

theorem ne_of_refine_error_of_refine_ok {c : Config} {sq : List Nat} {a b : Nat} {code : FaultCode}
    {f : Option Frequency} (ha : refine c sq a = .error code) (hb : refine c sq b = .ok f) : a ≠ b := by
  rintro rfl
  cases ha.symm.trans hb

/-! ### The selection up to a ridge whose refinement faults (spec/43_peak_detector.md R155) -/

/-- The ridges of `left` above `MIN_BIN` that may be picked before ridge `b`: as high as it or higher. -/
def rivals (c : Config) (sq : List Nat) (b : Nat) (left : List Nat) : List Nat :=
  left.filter fun x => decide (x ≠ b ∧ c.minBin < x ∧ sqAt sq b ≤ sqAt sq x)

theorem mem_rivals_iff {c : Config} {sq left : List Nat} {b x : Nat} :
    x ∈ rivals c sq b left ↔ x ∈ left ∧ x ≠ b ∧ c.minBin < x ∧ sqAt sq b ≤ sqAt sq x := by
  rw [rivals, List.mem_filter, decide_eq_true_iff]

theorem rivals_erase (c : Config) (sq left : List Nat) (b x : Nat) :
    rivals c sq b (left.erase x) = (rivals c sq b left).erase x :=
  List.erase_filter.symm

theorem length_rivals_erase_le (c : Config) (sq left : List Nat) (b x : Nat) :
    (rivals c sq b (left.erase x)).length ≤ (rivals c sq b left).length := by
  rw [rivals_erase]
  exact List.length_erase_le

/-- A run without a fault fills its places with rivals of a storable ridge whose refinement faults. -/
theorem Selects.room_le_length_rivals {c : Config} {thresh : Half} {bins : List Bin} {rs left : List Nat} {room b : Nat}
    {maxMag : Option Nat} {stored : List (Nat × Frequency)} {code : FaultCode}
    (hsel : Selects c thresh (squaredMags c bins) left room maxMag stored)
    (hinv : LoopInv c (squaredMags c bins) rs left maxMag) (hb : b ∈ left)
    (hstor : Storable c thresh (squaredMags c bins) rs b) (hfault : refine c (squaredMags c bins) b = .error code) :
    room ≤ (rivals c (squaredMags c bins) b left).length := by
  induction hsel with
  | full => exact Nat.zero_le _
  | exhausted => exact absurd hb List.not_mem_nil
  | low _ hlow _ ih =>
    have hne : b ≠ _ := (hlow.trans_lt hstor.1).ne'
    exact (ih (hinv.low hlow) ((List.mem_erase_of_ne hne).2 hb)).trans (length_rivals_erase_le ..)
  | culled hpick hmin hcull =>
    have hle := (pickRidge_some _ _ _ hpick).2 b hb
    exact absurd ((hinv.survives_iff hpick hmin).2 (hstor.of_sqAt_le hmin hle)) hcull
  | rejected hpick hmin _ href _ ih =>
    have hne := ne_of_refine_error_of_refine_ok hfault href
    exact (ih (hinv.survivor hpick hmin) ((List.mem_erase_of_ne hne).2 hb)).trans (length_rivals_erase_le ..)
  | stored hpick hmin _ href _ ih =>
    have hne := ne_of_refine_error_of_refine_ok hfault href
    have hrest := ih (hinv.survivor hpick hmin) ((List.mem_erase_of_ne hne).2 hb)
    obtain ⟨hmem, hhighest⟩ := pickRidge_some _ _ _ hpick
    have hrival := mem_rivals_iff.2 ⟨hmem, hne.symm, hmin, hhighest b hb⟩
    rw [rivals_erase, List.length_erase_of_mem hrival] at hrest
    have := List.length_pos_of_mem hrival
    omega

/-- R155, R175: a storable ridge whose refinement faults, with fewer rivals than there are places, makes `find_peaks`
raise `ARITH`. -/
theorem findPeaks_arith {c : Config} {thresh : Half} {bins : List Bin} {rs : List Nat} {b : Nat}
    (hc : c.wellFormed = true) (hrs : ridges c (squaredMags c bins) = .ok rs) (hb : b ∈ rs)
    (hstor : Storable c thresh (squaredMags c bins) rs b)
    (hrivals : (rivals c (squaredMags c bins) b rs).length < c.maxPeaks)
    (hfault : refine c (squaredMags c bins) b = .error .arith) : findPeaks c thresh bins = .error .arith := by
  cases hres : findPeaks c thresh bins with
  | ok ps =>
    obtain ⟨rs', stored, hrs', hinv, hsel, -⟩ := findPeaks_ok_selects (Config_two_le_nbins c hc) hres
    obtain rfl := Except.ok.inj (hrs.symm.trans hrs')
    exact absurd (hsel.room_le_length_rivals hinv hb hstor hfault) (not_le.2 hrivals)
  | error code =>
    rw [findPeaks_of_ridges_ok hrs] at hres
    rw [(selectPeaks_error _ _ _ _ _ _ _ _ _ hres).1]

/-! ### Spectra of one bin (spec/43_peak_detector.md R161) -/

/-- `BUF` with one bin that is not 0. -/
theorem oneBin_of_bins {s : State} {b : Nat} (hfloorPos : 1 ≤ s.cfg.noiseFloor.toNat) (hmin : s.cfg.minBin < b)
    (hlast : b + 1 < s.cfg.nbins) (hzero : ∀ i, i < s.cfg.nbins → i ≠ b → s.bin i = { re := 0, im := 0 })
    (hfloor : s.cfg.noiseFloor.toNat * s.cfg.noiseFloor.toNat ≤ sqmag (s.bin b).re.toInt (s.bin b).im.toInt) :
    OneBin s.cfg (squaredMags s.cfg s.loadBuf) b where
  inside := ⟨by omega, hlast⟩
  floorPos := hfloorPos
  floor := by rwa [sqAt_squaredMags_loadBuf s b (by omega)]
  zero := fun i hi hne => by
    rw [sqAt_squaredMags_loadBuf s i hi, hzero i hi hne]
    rfl

theorem OneBin.rivals_eq_nil {c : Config} {sq rs : List Nat} {b : Nat} (h : OneBin c sq b)
    (hrs : ∀ x ∈ rs, x < c.nbins) : rivals c sq b rs = [] :=
  List.eq_nil_iff_forall_not_mem.2 fun x hx => by
    obtain ⟨hmem, hne, -, hle⟩ := mem_rivals_iff.1 hx
    exact hne (h.eq_of_floor_le (hrs x hmem) (h.floor.trans hle))

theorem OneBin.mem_ridges {c : Config} {sq rs : List Nat} {b : Nat} (h : OneBin c sq b) (hn : 2 ≤ c.nbins)
    (hrs : ridges c sq = .ok rs) : b ∈ rs := by
  obtain ⟨hlo, hhi⟩ := h.inside
  rw [eq_maximaFrom_of_ridges_ok hn hrs, mem_maximaFrom (by omega)]
  exact ⟨⟨hlo, by omega⟩, h.isLocalMax⟩

end Sys2Proof.Machine
end

section
/-! Family 44_peak_interpolator.md: the fault of a refined frequency above 32 bits, and the refinement by value. -/

namespace Sys2Proof.Machine

/-- Settles O45: the selection reaches the ridge, whose refinement faults; a single bin has no rival. -/
theorem peaksFrequencyFaults : Obligations.PeaksFrequencyFaults := by
  constructor
  · intro s rs b hf hc hmode sq hrs hb hmin hfloor hthr hrivals hexceeds
    have hfind : findPeaks s.cfg s.thresh s.loadBuf = .error .arith :=
      findPeaks_arith hc hrs hb ⟨hmin, hfloor, hthr⟩ hrivals (refine_of_nightcore_gt hmode hexceeds)
    exact ⟨_, exec_peaks_faults s hf .arith hfind, rfl⟩
  · intro s b hf hc hmode hcap hfloorPos hmin hlast hexceeds hzero hfloor
    have hn := Config_two_le_nbins s.cfg hc
    obtain ⟨-, -, ⟨hroom, -⟩, -⟩ := Config_wellFormed_parts s.cfg hc
    have hone := oneBin_of_bins hfloorPos hmin hlast hzero hfloor
    have hrs := ridges_eq_of_defaultRidgeCap s.cfg (squaredMags s.cfg s.loadBuf) hn hcap
    have hinside := fun x hx => (mem_ridges_bounds hn hrs (b := x) hx).2
    have hrefine : refine s.cfg (squaredMags s.cfg s.loadBuf) b = .error .arith := by
      refine refine_of_nightcore_gt hmode ?_
      rw [adjustedFreq_of_leftMag_eq_rightMag hone.leftMag_eq_rightMag]
      zify at hexceeds
      exact hexceeds
    have hfind : findPeaks s.cfg s.thresh s.loadBuf = .error .arith :=
      findPeaks_arith hc hrs (hone.mem_ridges hn hrs) (hone.storable hmin hinside)
        (by rwa [hone.rivals_eq_nil hinside]) hrefine
    exact ⟨_, exec_peaks_faults s hf .arith hfind, rfl⟩

/-- Settles O46: above bin 0 the statement's neighbours are `leftMag` and `rightMag`, its `f1` is `nightcore`. -/
theorem refinementWithinHalfABin : Obligations.RefinementWithinHalfABin := by
  intro c sq b hc hb hbn m l r small half adj
  obtain ⟨-, -, -, -, -, -, -, ⟨hfreq, -⟩, -⟩ := Config_wellFormed_parts c hc
  have hl : leftMag sq b = l := if_pos hb
  have hr : rightMag c sq b = r := rfl
  have hadj : adjustment c (leftMag sq b) (centreMag sq b) (rightMag c sq b) = adj := by
    rw [adjustment_eq, halfFraction_toNat, hl, hr]
    rfl
  obtain ⟨-, hfits⟩ := adjustedFreq_fits hc sq hb hbn
  have hpos := one_le_adjustedFreq hfreq sq hb
  have hnonneg : 0 ≤ nightcore c (adjustedFreq c sq b) := nightcore_nonneg c (by omega)
  refine ⟨fun hlt => ?_, fun hlt => ?_, fun heq => ?_, ?_,
    two_mul_abs_adjustedFreq_sub_le hfreq sq b, hpos, hfits, hnonneg,
    fun hexceeds hmode => refine_of_nightcore_gt hmode hexceeds, fun hfit => ?_⟩
  · rw [adjustedFreq_of_leftMag_lt_rightMag (hl.trans_lt (hlt.trans_eq hr.symm)), hadj]
  · rw [adjustedFreq_of_rightMag_lt_leftMag (hr.trans_lt (hlt.trans_eq hl.symm)), hadj]
  · exact adjustedFreq_of_leftMag_eq_rightMag (hl.trans (heq.trans hr.symm))
  · have hhalf := two_mul_adjustment_le hfreq (leftMag sq b) (centreMag sq b) (rightMag c sq b)
    rw [hadj] at hhalf
    exact_mod_cast hhalf
  · have hnarrow := narrow_eq_min hnonneg hfit
    exact ⟨refine_of_rejected hnarrow, refine_of_accepted hnarrow⟩

end Sys2Proof.Machine
end

section
/-! SUPPORT. SCHED and ADJUST by their parts (spec/45_pulse_scheduler.md R190 to R196): the first entries of a table
mapped into another, the period of a frequency, one pulse of the template, and the outcomes of the two commands. -/

namespace Sys2Proof.Machine

/-! ### The first entries of a table (R190) -/

/-- The first `n` entries of a table, entry by entry. -/
theorem take_eq_map_range {α : Type} (l : List α) {n : Nat} (d : α) (hn : n ≤ l.length) :
    l.take n = (List.range n).map fun k => l.getD k d := by
  refine List.ext_getElem (by simpa using hn) fun k hk hk' => ?_
  simp only [List.getElem_take, List.getElem_map, List.getElem_range]
  exact List.getElem_eq_getD d

/-- What holds of the first `n` entries of a table. -/
theorem forall_mem_take_iff {α : Type} {l : List α} {n : Nat} (d : α) (hn : n ≤ l.length) (P : α → Prop) :
    (∀ a ∈ l.take n, P a) ↔ ∀ k, k < n → P (l.getD k d) := by
  rw [take_eq_map_range l d hn, List.forall_mem_map]
  simp only [List.mem_range]

/-- Entry `k` of a table whose first `n` entries come from those of another. -/
theorem overlay_map_take_getD {α β : Type} (f : α → β) (l : List α) (old : List β) {n : Nat} (k : Nat) (d : α) (d' : β)
    (hn : n ≤ l.length) :
    (overlay ((l.take n).map f) old).getD k d' = if k < n then f (l.getD k d) else old.getD k d' := by
  rw [overlay_getD, List.length_map, List.length_take, min_eq_left hn]
  refine ite_congr rfl (fun hk => ?_) fun _ => rfl
  rw [List.getD_eq_getElem _ _ (by simpa [hn] using hk), List.getElem_map, List.getElem_take, List.getD_eq_getElem]

/-- A table overlaid with its own first entries is unchanged. -/
theorem overlay_take_self {α : Type} (l : List α) (n : Nat) : overlay (l.take n) l = l := by
  obtain hn | hn := le_total n l.length
  · rw [overlay, List.length_take_of_le hn, List.take_append_drop]
  · rw [overlay, List.take_of_length_le hn, List.drop_length, List.append_nil]

/-! ### The period of a frequency (R191) -/

/-- The period before the narrowing. -/
def rawPeriod (c : Config) (f : Frequency) : Nat := (c.periodNum.toNat + f.toNat / 2) / f.toNat

/-- The period of a frequency fits 1 to `PERIOD_MAX`. -/
def PeriodFits (c : Config) (f : Frequency) : Prop := 1 ≤ rawPeriod c f ∧ rawPeriod c f ≤ c.periodMax

/-- The period of a frequency, clamped to 1 to `PERIOD_MAX`. -/
def clampedPeriod (c : Config) (f : Frequency) : Nat := max 1 (min c.periodMax (rawPeriod c f))

theorem clampedPeriod_bounds {c : Config} (hc : c.wellFormed = true) (f : Frequency) :
    1 ≤ clampedPeriod c f ∧ clampedPeriod c f ≤ 2 ^ 30 := by
  obtain ⟨-, -, -, -, -, -, -, -, -, -, -, hmin, hmax⟩ := Config_wellFormed_parts c hc
  simp only [clampedPeriod]
  omega

theorem toPeriod_eq_clampedPeriod {c : Config} (hc : c.wellFormed = true) {f : Frequency}
    (h : c.ovfMode = .saturate ∨ PeriodFits c f) : toPeriod c f = .ok (clampedPeriod c f : Int) := by
  obtain ⟨-, -, -, -, -, -, -, -, -, -, -, hmin, -⟩ := Config_wellFormed_parts c hc
  have hfit : PeriodFits c f → 1 ≤ (rawPeriod c f : Int) ∧ (rawPeriod c f : Int) ≤ c.periodMax := by
    rintro ⟨hlo, hhi⟩
    omega
  rw [toPeriod, ← rawPeriod, narrow_eq_clamp _ _ _ _ (by omega) (h.imp_right hfit), clampedPeriod]
  push_cast
  rfl

theorem toPeriod_fault {c : Config} {f : Frequency} (hmode : c.ovfMode = .fault) (h : ¬ PeriodFits c f) :
    toPeriod c f = .error .arith := by
  have hout : ¬ (1 ≤ (rawPeriod c f : Int) ∧ (rawPeriod c f : Int) ≤ c.periodMax) := fun hfit =>
    h ⟨by omega, by omega⟩
  rw [toPeriod, hmode]
  exact narrow_fault _ _ _ hout

/-! ### One pulse of the template (R192, R193) -/

/-- The pulse SCHED makes of a peak when it completes. -/
def stagedPulse (c : Config) (e : PeakEntry) : StageEntry :=
  { period := BitVec.ofInt 32 (clampedPeriod c e.freq)
    offset := BitVec.ofInt 32 (sfApply e.phase (clampedPeriod c e.freq)) }

/-- A Duration keeps an exact value from 0 to `PERIOD_MAX`. -/
theorem toNat_ofInt_duration {v : Int} (hlo : 0 ≤ v) (hhi : v ≤ 2 ^ 30) : ((BitVec.ofInt 32 v).toNat : Int) = v := by
  rw [BitVec.toNat_ofInt]
  omega

theorem stagedPulse_period_toNat {c : Config} (hc : c.wellFormed = true) (e : PeakEntry) :
    (stagedPulse c e).period.toNat = clampedPeriod c e.freq := by
  have ⟨_, hhi⟩ := clampedPeriod_bounds hc e.freq
  have hper : ((stagedPulse c e).period.toNat : Int) = clampedPeriod c e.freq :=
    toNat_ofInt_duration (by omega) (by omega)
  exact_mod_cast hper

/-- The phase delay is stored without loss and does not exceed the period. -/
theorem stagedPulse_offset_toNat {c : Config} (hc : c.wellFormed = true) (e : PeakEntry) :
    ((stagedPulse c e).offset.toNat : Int) = sfApply e.phase (clampedPeriod c e.freq) ∧
      (stagedPulse c e).offset.toNat ≤ clampedPeriod c e.freq := by
  have ⟨_, hhi⟩ := clampedPeriod_bounds hc e.freq
  have ⟨hd0, hd1⟩ := sfApply_bounds_of_nonneg e.phase (clampedPeriod c e.freq) (by omega)
  have hoff : ((stagedPulse c e).offset.toNat : Int) = sfApply e.phase (clampedPeriod c e.freq) :=
    toNat_ofInt_duration hd0 (by omega)
  exact ⟨hoff, by omega⟩

theorem stageOf_eq_stagedPulse {c : Config} (hc : c.wellFormed = true) {e : PeakEntry}
    (h : c.ovfMode = .saturate ∨ PeriodFits c e.freq) : stageOf c e = .ok (stagedPulse c e) := by
  simp only [stageOf, toPeriod_eq_clampedPeriod hc h, phaseDelay, stagedPulse]

theorem stageOf_fault {c : Config} {e : PeakEntry} (hmode : c.ovfMode = .fault) (h : ¬ PeriodFits c e.freq) :
    stageOf c e = .error .arith := by
  simp only [stageOf, toPeriod_fault hmode h]

/-- One peak whose period does not fit makes the template's conversion fault. -/
theorem schedulePulses_fault {c : Config} {ps : List PeakEntry} {e : PeakEntry} (he : e ∈ ps)
    (hmode : c.ovfMode = .fault) (h : ¬ PeriodFits c e.freq) : schedulePulses c ps = .error .arith := by
  cases hs : schedulePulses c ps with
  | error code => rw [(schedulePulses_error c ps code hs).1]
  | ok es =>
    obtain ⟨hlen, hall⟩ := mapOrFault_ok _ _ _ hs
    obtain ⟨i, hi, rfl⟩ := List.mem_iff_getElem.1 he
    have hok := hall i hi (hlen ▸ hi)
    rw [stageOf_fault hmode h] at hok
    cases hok

/-! ### The two commands (R193, R195) -/

/-- Outside the stopped state SCHED that raises no fault stores the template, with `ERR = OK`. -/
theorem exec_sched_completes {s : State} (hf : s.status.fault = false) {es : List StageEntry}
    (h : schedulePulses s.cfg (s.peak.take s.peakCount.toNat) = .ok es) :
    exec .sched s = .next { s.setErr .ok with stage := overlay es s.stage, stageCount := s.peakCount } := by
  have hes : schedulePulses (s.setErr .ok).cfg ((s.setErr .ok).peak.take (s.setErr .ok).peakCount.toNat) = .ok es := h
  rw [exec_running .sched s hf]
  simp only [bodyOf, schedBody, hes]
  rfl

/-- Outside the stopped state SCHED that raises a fault enters it. -/
theorem exec_sched_faults {s : State} (hf : s.status.fault = false) {code : FaultCode}
    (h : schedulePulses s.cfg (s.peak.take s.peakCount.toNat) = .error code) :
    exec .sched s = .next ((s.setErr .ok).faultEntry .sched code) := by
  have herr : schedulePulses (s.setErr .ok).cfg ((s.setErr .ok).peak.take (s.setErr .ok).peakCount.toNat) =
    .error code := h
  rw [exec_running .sched s hf]
  simp only [bodyOf, schedBody, herr]

/-- Outside the stopped state ADJUST anchors the template into the live table. -/
theorem exec_adjust {s : State} (hf : s.status.fault = false) :
    exec .adjust s = .next { s.setErr .ok with
      live := overlay ((s.stage.take s.stageCount.toNat).map (anchored s.arg0)) s.live
      liveCount := s.stageCount } :=
  exec_running .adjust s hf

end Sys2Proof.Machine
end

section
/-! Family 45_pulse_scheduler.md: the template SCHED builds, its trap, and the live table ADJUST makes of it. -/

namespace Sys2Proof.Machine

/-- Settles O47: no peak faults, so the template is each peak's `stagedPulse`. -/
theorem schedBuildsTheTemplate : Obligations.SchedBuildsTheTemplate := by
  intro s hf hc ⟨hpeak, _, _⟩ ⟨hcount, _⟩ hfit
  have hlen : s.peakCount.toNat ≤ s.peak.length := hpeak ▸ hcount
  have hpulses : schedulePulses s.cfg (s.peak.take s.peakCount.toNat) =
      .ok ((s.peak.take s.peakCount.toNat).map (stagedPulse s.cfg)) := by
    refine mapOrFault_of_ok _ _ _ fun e he => stageOf_eq_stagedPulse hc ?_
    exact hfit.imp_right fun hall => (forall_mem_take_iff _ hlen fun e => PeriodFits s.cfg e.freq).2 hall e he
  have hstage := fun k => overlay_map_take_getD (stagedPulse s.cfg) s.peak s.stage k
    { freq := 0, mag := 0, phase := 0 } { period := 0, offset := 0 } hlen
  refine ⟨_, exec_sched_completes hf hpulses, rfl, fun k hk => ?_, fun k hk => ?_⟩
  · have hentry := (hstage k).trans (if_pos hk)
    simp only [State.stageAt, hentry]
    exact ⟨stagedPulse_period_toNat hc _, stagedPulse_offset_toNat hc _⟩
  · exact (hstage k).trans (if_neg hk.not_gt)

/-- Settles O48: the peak faults the whole conversion, and fault entry for SCHED frees the STAGE table only. -/
theorem schedPeriodFaults : Obligations.SchedPeriodFaults := by
  intro s k hf hmode ⟨hpeak, _, _⟩ ⟨hcount, _⟩ hk hout
  have hlt : k < s.peak.length := by omega
  have hmem : s.peakAt k ∈ s.peak.take s.peakCount.toNat := by
    rw [State.peakAt_eq_getElem s k hlt]
    exact List.mem_take_iff_getElem.2 ⟨k, by omega, rfl⟩
  have hnofit : ¬ PeriodFits s.cfg (s.peakAt k).freq := by
    simp only [PeriodFits, rawPeriod]
    omega
  exact ⟨_, exec_sched_faults hf (schedulePulses_fault hmem hmode hnofit), rfl⟩

/-- Settles O49: the template's entries, each anchored, over the old live table. -/
theorem adjustAnchorsTheTemplate : Obligations.AdjustAnchorsTheTemplate := by
  intro s hf ⟨_, hstage, _⟩ hcount
  have hlive := fun k => overlay_map_take_getD (anchored s.arg0) s.stage s.live k
    { period := 0, offset := 0 } { period := 0, next := 0 } (hstage ▸ hcount)
  exact ⟨_, exec_adjust hf, rfl, fun k hk => (hlive k).trans (if_pos hk),
    fun k hk => (hlive k).trans (if_neg hk.not_gt)⟩

end Sys2Proof.Machine
end

section
/-! SUPPORT. CONSUME by its parts (spec/45_pulse_scheduler.md R197 to R200): the pulses of the live table by index, the
advance of one pulse, the holdoff of the highest match, and the two outcomes of the command. -/

namespace Sys2Proof.Machine

/-! ### The live pulses by index (R35, R197) -/

/-- The live pulses in index order. -/
theorem State.livePulses_eq_map_range {s : State} (hn : s.liveCount.toNat ≤ s.live.length) :
    s.livePulses = (List.range s.liveCount.toNat).map s.liveAt :=
  take_eq_map_range s.live _ hn

theorem State.liveAt_mem_livePulses {s : State} {k : Nat} (hn : s.liveCount.toNat ≤ s.live.length)
    (hk : k < s.liveCount.toNat) : s.liveAt k ∈ s.livePulses := by
  rw [State.livePulses_eq_map_range hn]
  exact List.mem_map_of_mem (List.mem_range.2 hk)

/-- Entry `k` of the live table after each pulse is changed in its place. -/
theorem State.overlay_livePulses_getD {s : State} (f : LiveEntry → LiveEntry) (k : Nat)
    (hn : s.liveCount.toNat ≤ s.live.length) :
    (overlay (s.livePulses.map f) s.live).getD k { period := 0, next := 0 } =
      if k < s.liveCount.toNat then f (s.liveAt k) else s.liveAt k :=
  overlay_map_take_getD f s.live s.live k _ _ hn

theorem mem_matching_iff {t : Instant} {es : List LiveEntry} {e : LiveEntry} :
    e ∈ matching t es ↔ e ∈ es ∧ e.next = t := by
  simp [matching]

theorem matching_eq_nil_iff {t : Instant} {es : List LiveEntry} :
    matching t es = [] ↔ ∀ e ∈ es, e.next ≠ t := by
  simp [matching]

/-- The number of pulses due at an instant. -/
theorem State.length_matching {s : State} (t : Instant) (hn : s.liveCount.toNat ≤ s.live.length) :
    (matching t s.livePulses).length =
      ((List.range s.liveCount.toNat).filter fun k => (s.liveAt k).next = t).length := by
  rw [State.livePulses_eq_map_range hn, matching, List.filter_map, List.length_map]
  rfl

/-- `LIVE_COUNT` has 6 bits, so `RES0` counts the matches without loss. -/
theorem State.length_matching_lt (s : State) (t : Instant) : (matching t s.livePulses).length < 64 := by
  have hle : (matching t s.livePulses).length ≤ s.livePulses.length := List.length_filter_le _ _
  have htake : s.livePulses.length ≤ s.liveCount.toNat := List.length_take_le _ _
  omega

/-! ### The advance and the holdoff (R198, R199) -/

/-- A pulse of positive period is not due at the same instant again once it has advanced. -/
theorem advancedIf_next_ne (t : Instant) {e : LiveEntry} (hp : 1 ≤ e.period.toNat) : (advancedIf t e).next ≠ t := by
  simp only [advancedIf]
  split
  · have hpos : e.period ≠ 0 := fun h => by simp [h] at hp
    simpa using hpos
  · assumption

/-- The match of the highest index leaves its holdoff, whatever stood there and whatever matched before it. -/
theorem holdoffOfMatches_last (c : Config) (t old : Instant) {pre post : List LiveEntry} {e : LiveEntry}
    (he : e.next = t) (hpost : ∀ x ∈ post, x.next ≠ t) :
    holdoffOfMatches c t old (matching t (pre ++ e :: post)) = holdoffAfter c t e.period := by
  have hnone : matching t post = [] := matching_eq_nil_iff.2 hpost
  have hsplit : matching t (pre ++ e :: post) = matching t pre ++ [e] := by
    rw [matching, List.filter_append, List.filter_cons_of_pos (by simpa using he), ← matching, ← matching, hnone]
  rw [hsplit, holdoffOfMatches, List.foldl_append, List.foldl_cons, List.foldl_nil]

/-- R199 for the live table: `j` is the highest index whose pulse is due at `t`. -/
theorem State.holdoffOfMatches_livePulses {s : State} {j : Nat} (t old : Instant)
    (hn : s.liveCount.toNat ≤ s.live.length) (hj : j < s.liveCount.toNat) (he : (s.liveAt j).next = t)
    (hlast : ∀ k, j < k → k < s.liveCount.toNat → (s.liveAt k).next ≠ t) :
    holdoffOfMatches s.cfg t old (matching t s.livePulses) = holdoffAfter s.cfg t (s.liveAt j).period := by
  obtain ⟨m, hm⟩ := Nat.exists_eq_add_of_lt hj
  have hrange : List.range s.liveCount.toNat = List.range j ++ j :: (List.range m).map (j + 1 + ·) := by
    rw [show s.liveCount.toNat = j + 1 + m by omega, List.range_add, List.range_succ, List.append_assoc,
      List.singleton_append]
  rw [State.livePulses_eq_map_range hn, hrange, List.map_append, List.map_cons]
  refine holdoffOfMatches_last s.cfg t old he fun x hx => ?_
  simp only [List.map_map, List.mem_map, List.mem_range] at hx
  obtain ⟨i, hi, rfl⟩ := hx
  exact hlast (j + 1 + i) (by omega) (by omega)

/-! ### The command (R197, R200) -/

/-- The state CONSUME leaves when a pulse is due at `ARG0`. -/
def State.afterConsume (s : State) : State :=
  { (s.setErr .ok).setHv true with
    live := overlay (s.livePulses.map (advancedIf s.arg0)) s.live
    res0 := BitVec.ofNat 32 (matching s.arg0 s.livePulses).length
    holdoff := holdoffOfMatches s.cfg s.arg0 s.holdoff (matching s.arg0 s.livePulses) }

/-- Outside the stopped state CONSUME with no pulse due at `ARG0` reports the race. -/
theorem exec_consume_race {s : State} (hf : s.status.fault = false) (h : ∀ e ∈ s.livePulses, e.next ≠ s.arg0) :
    exec .consume s = .next { s.setErr .race with res0 := 0 } := by
  have hnone : matching (s.setErr .ok).atInstant (s.setErr .ok).livePulses = [] :=
    matching_eq_nil_iff.2 h
  rw [exec_running .consume s hf]
  simp only [bodyOf, consumeBody, hnone, List.length_nil, if_true]
  rfl

/-- Outside the stopped state CONSUME with a pulse due at `ARG0` fires it. -/
theorem exec_consume_fires {s : State} (hf : s.status.fault = false) {e : LiveEntry} (he : e ∈ s.livePulses)
    (hnext : e.next = s.arg0) : exec .consume s = .next s.afterConsume := by
  have hsome : (matching (s.setErr .ok).atInstant (s.setErr .ok).livePulses).length ≠ 0 :=
    (List.length_pos_of_mem (mem_matching_iff.2 ⟨he, hnext⟩)).ne'
  rw [exec_running .consume s hf]
  simp only [bodyOf, consumeBody, if_neg hsome]
  rfl

/-- The live pulses after CONSUME: each where it stood, advanced if it was due. -/
theorem State.afterConsume_livePulses {s : State} (hlen : s.live.length = s.cfg.maxPeaks)
    (hn : s.liveCount.toNat ≤ s.cfg.maxPeaks) :
    s.afterConsume.livePulses = s.livePulses.map (advancedIf s.arg0) :=
  overlay_livePulses_take s (advancedIf s.arg0) hlen hn

end Sys2Proof.Machine
end

section
/-! Family 45_pulse_scheduler.md: the pulses CONSUME fires, and its race. -/

namespace Sys2Proof.Machine

/-- Settles O51: the filter of the matching pulses is empty. -/
theorem consumeWithoutMatchIsARace : Obligations.ConsumeWithoutMatchIsARace := by
  intro s hf h
  exact exec_consume_race hf h

/-- Settles O50: `afterConsume` read entry by entry; `j` is the last match, so its holdoff stays. -/
theorem consumeAdvancesTheMatches : Obligations.ConsumeAdvancesTheMatches := by
  intro s j hf ⟨_, _, hlen⟩ hcount hj hnext hlast
  have hn : s.liveCount.toNat ≤ s.live.length := hlen ▸ hcount
  have hlive := fun k => State.overlay_livePulses_getD (advancedIf s.arg0) k hn
  refine ⟨_, exec_consume_fires hf (State.liveAt_mem_livePulses hn hj) hnext, ?_, ?_, fun k hk => ?_, fun k hk => ?_⟩
  · have hholdoff := State.holdoffOfMatches_livePulses s.arg0 s.holdoff hn hj hnext hlast
    rw [holdoffAfter] at hholdoff
    rw [← hholdoff]
    rfl
  · rw [← State.length_matching s.arg0 hn]
    have hlt := s.length_matching_lt s.arg0
    exact Nat.mod_eq_of_lt (by omega)
  · exact (hlive k).trans (if_pos hk)
  · exact (hlive k).trans (if_neg hk.not_gt)

/-- Settles O52: the first CONSUME reported no race, so it advanced every pulse that was due at the instant. -/
theorem consumeTwiceIsARace : Obligations.ConsumeTwiceIsARace := by
  intro s t ⟨_, ⟨_, _, hlen⟩, _, _, ⟨hcount, hperiods⟩, _⟩ hf hexec hok
  by_cases hrace : ∀ e ∈ s.livePulses, e.next ≠ s.arg0
  · rw [exec_consume_race hf hrace] at hexec
    cases hexec
    cases hok
  · push Not at hrace
    obtain ⟨e, he, hnext⟩ := hrace
    rw [exec_consume_fires hf he hnext] at hexec
    cases hexec
    refine exec_consume_race hf ?_
    rw [State.afterConsume_livePulses hlen hcount, List.forall_mem_map]
    exact fun x hx => advancedIf_next_ne s.arg0 (hperiods x hx).1

end Sys2Proof.Machine
end

section
/-! SUPPORT. NEXT by its parts (spec/45_pulse_scheduler.md R201 to R209): offsets of instants moved forward, the move of
one held-off pulse, the choice of the soonest, and the outcomes of the command. -/

namespace Sys2Proof.Machine

/-! ### Offsets of moved instants (R203) -/

/-- The effective offset of an instant moved forward within half the counter's range. -/
theorem effOffset_add {after t : Instant} {m : Nat} (h : signedOffset after t + m < 2 ^ 31) :
    (effOffset after (t + BitVec.ofNat 32 m) : Int) = max 0 (signedOffset after t + m) := by
  obtain ⟨-, -, heff, -⟩ := signedOffset_spec after (t + BitVec.ofNat 32 m)
  rw [heff, signedOffset_add after t m h]

/-- An instant that is ahead stands its effective offset after the instant it is seen from. -/
theorem eq_add_of_effOffset_pos {after t : Instant} (h : 0 < effOffset after t) :
    t = after + BitVec.ofNat 32 (effOffset after t) := by
  have hoffset : effOffset after t = (tdiff after t).toNat := by
    simp only [effOffset] at h ⊢
    split at h
    · rw [if_pos ‹_›]
    · exact absurd h (lt_irrefl 0)
  rw [hoffset, BitVec.ofNat_toNat, BitVec.setWidth_eq, tdiff, add_sub_cancel]

/-- What is left of a Duration after part of it has passed. -/
theorem effOffset_of_tdiff_le {start after : Instant} {d : Duration} (hle : (tdiff start after).toNat ≤ d.toNat)
    (hd : d.toNat < 2 ^ 31) : effOffset after (start + d) = d.toNat - (tdiff start after).toNat := by
  have hleft : (tdiff after (start + d)).toNat = d.toNat - (tdiff start after).toNat := by
    have hs := start.isLt
    have ha := after.isLt
    rw [tdiff_toNat] at hle ⊢
    rw [tdiff_toNat, BitVec.toNat_add]
    omega
  rw [effOffset, if_pos ((isFuture_eq_true_iff _ _).2 (by omega)), hleft]

/-! ### The move of one pulse (R203) -/

/-- A pulse at or after the holdoff stays. -/
theorem heldOff_of_le {after : Instant} {h : Nat} {e : LiveEntry} (hle : h ≤ effOffset after e.next) :
    heldOff after h e = e :=
  if_neg hle.not_gt

/-- The closed form stops at the first whole number of periods that reaches the holdoff. -/
theorem heldOff_first_reach {after : Instant} {h : Nat} {e : LiveEntry} (hp : 1 ≤ e.period.toNat)
    (hfit : h + e.period.toNat ≤ 2 ^ 31) :
    ∃ n : Nat, heldOff after h e = { e with next := e.next + BitVec.ofNat 32 (n * e.period.toNat) } ∧
      h ≤ effOffset after (e.next + BitVec.ofNat 32 (n * e.period.toNat)) ∧
      ∀ j, j < n → effOffset after (e.next + BitVec.ofNat 32 (j * e.period.toNat)) < h := by
  obtain ⟨-, -, hmoved⟩ := heldOff_spec after h e hp
  obtain hle | hlt := le_or_gt h (effOffset after e.next)
  · refine ⟨0, ?_, ?_, fun j hj => absurd hj j.not_lt_zero⟩
    · simp [heldOff_of_le hle]
    · simpa using hle
  · obtain ⟨n, hn, heq, hreach, hleast⟩ := hmoved hlt
    have hlast : ((n : Int) - 1) * e.period.toNat = n * e.period.toNat - e.period.toNat := by ring
    refine ⟨n, heq, ?_, fun j hj => ?_⟩
    · have heff := effOffset_add (after := after) (t := e.next) (m := n * e.period.toNat) (by push_cast; omega)
      push_cast at heff
      omega
    · have hmono : (j : Int) * e.period.toNat ≤ (n - 1) * e.period.toNat :=
        Int.mul_le_mul_of_nonneg_right (by omega) (by positivity)
      have heff := effOffset_add (after := after) (t := e.next) (m := j * e.period.toNat) (by push_cast; omega)
      push_cast at heff
      omega

theorem le_effOffset_heldOff {after : Instant} {h : Nat} {e : LiveEntry} (hp : 1 ≤ e.period.toNat)
    (hfit : h + e.period.toNat ≤ 2 ^ 31) : h ≤ effOffset after (heldOff after h e).next := by
  obtain ⟨n, heq, hreach, -⟩ := heldOff_first_reach (after := after) hp hfit
  rwa [heq]

/-! ### The choice (R204) -/

theorem soonest_eq_none_iff {after : Instant} {es : List LiveEntry} : soonest after es = none ↔ es = [] := by
  cases es <;> simp [soonest]

/-- The soonest pulse by its index: none is sooner, and none of a lower index is as soon. -/
theorem soonest_spec {after : Instant} {es : List LiveEntry} {best : LiveEntry} (h : soonest after es = some best) :
    ∃ k, ∃ hk : k < es.length, es[k] = best ∧
      (∀ j (hj : j < es.length), effOffset after best.next ≤ effOffset after es[j].next) ∧
      (∀ j (hj : j < es.length), j < k → effOffset after best.next < effOffset after es[j].next) := by
  cases es with
  | nil => cases h
  | cons e rest =>
    cases h
    obtain ⟨k, hk, hget, hmin, hfirst⟩ := foldl_sooner_spec after rest e
    exact ⟨k, hk, (List.getElem?_eq_some_iff.1 hget).2, hmin, hfirst⟩

theorem mem_of_soonest {after : Instant} {es : List LiveEntry} {best : LiveEntry} (h : soonest after es = some best) :
    best ∈ es := by
  obtain ⟨k, hk, rfl, -⟩ := soonest_spec h
  exact List.getElem_mem hk

/-! ### The command (R201, R205) -/

/-- The live pulses after the moves of NEXT. -/
def State.movedPulses (s : State) : List LiveEntry := s.livePulses.map (heldOff s.arg0 (s.currentHoldoff s.arg0))

/-- The state NEXT leaves when its choice is `best`. -/
def State.afterNext (s : State) (best : LiveEntry) : State :=
  { ((s.setErr .ok).setNone false).setHv (s.status.hv && isFuture s.arg0 s.holdoff) with
    live := overlay s.movedPulses s.live
    res0 := best.next
    res1 := BitVec.ofNat 32 (effOffset s.arg0 best.next) }

@[simp] theorem State.afterNext_arg0 (s : State) (best : LiveEntry) : (s.afterNext best).arg0 = s.arg0 := rfl
@[simp] theorem State.afterNext_res0 (s : State) (best : LiveEntry) : (s.afterNext best).res0 = best.next := rfl
@[simp] theorem State.afterNext_holdoff (s : State) (best : LiveEntry) : (s.afterNext best).holdoff = s.holdoff := rfl
@[simp] theorem State.afterNext_live (s : State) (best : LiveEntry) :
    (s.afterNext best).live = overlay s.movedPulses s.live := rfl
@[simp] theorem State.afterNext_hv (s : State) (best : LiveEntry) :
    (s.afterNext best).status.hv = (s.status.hv && isFuture s.arg0 s.holdoff) := rfl

/-- An effective offset fits `RES1`. -/
@[simp] theorem State.afterNext_res1_toNat (s : State) (best : LiveEntry) :
    (s.afterNext best).res1.toNat = effOffset s.arg0 best.next := by
  have := effOffset_lt s.arg0 best.next
  exact Nat.mod_eq_of_lt (by omega)

theorem exec_next_empty {s : State} (hf : s.status.fault = false) (h : s.livePulses = []) :
    exec .next s = .next ((s.setErr .ok).setNone true) := by
  have hempty : (s.setErr .ok).livePulses = [] := h
  rw [exec_running .next s hf]
  simp only [bodyOf, nextBody, hempty, List.map_nil, soonest]

theorem exec_next_of_soonest {s : State} (hf : s.status.fault = false) {best : LiveEntry}
    (h : soonest s.arg0 s.movedPulses = some best) : exec .next s = .next (s.afterNext best) := by
  have hbest : soonest (s.setErr .ok).afterInstant ((s.setErr .ok).livePulses.map
      (heldOff (s.setErr .ok).afterInstant ((s.setErr .ok).currentHoldoff (s.setErr .ok).afterInstant))) =
      some best := h
  have hhv : ((s.setErr .ok).status.hv && !(s.setErr .ok).holdoffExpired (s.setErr .ok).afterInstant) =
      (s.status.hv && isFuture s.arg0 s.holdoff) := by
    simp only [State.holdoffExpired, State.afterInstant, State.setErr_status, State.setErr_arg0, State.setErr_holdoff]
    cases s.status.hv <;> simp
  rw [exec_running .next s hf]
  simp only [bodyOf, nextBody, hbest, hhv]
  rfl

theorem State.movedPulses_length {s : State} (hn : s.liveCount.toNat ≤ s.live.length) :
    s.movedPulses.length = s.liveCount.toNat := by
  rw [State.movedPulses, List.length_map, State.livePulses_eq_map_range hn, List.length_map, List.length_range]

/-- With a pulse in the live table NEXT has a choice. -/
theorem State.exists_soonest {s : State} (hn : s.liveCount.toNat ≤ s.live.length) (hpos : 0 < s.liveCount.toNat) :
    ∃ best, soonest s.arg0 s.movedPulses = some best := by
  refine Option.ne_none_iff_exists'.1 fun hnone => ?_
  have hlen := State.movedPulses_length hn
  rw [soonest_eq_none_iff.1 hnone, List.length_nil] at hlen
  omega

/-! ### The live table after NEXT (R203, R204) -/

/-- Within the bound of R203 no pulse stands before the holdoff after the moves. -/
theorem State.le_effOffset_movedPulses {s : State} (hp : ∀ e ∈ s.livePulses, 1 ≤ e.period.toNat)
    (hfit : ∀ e ∈ s.livePulses, s.currentHoldoff s.arg0 + e.period.toNat ≤ 2 ^ 31) :
    ∀ e ∈ s.movedPulses, s.currentHoldoff s.arg0 ≤ effOffset s.arg0 e.next := by
  rw [State.movedPulses, List.forall_mem_map]
  exact fun e he => le_effOffset_heldOff (hp e he) (hfit e he)

theorem State.afterNext_liveAt {s : State} (best : LiveEntry) (k : Nat) (hn : s.liveCount.toNat ≤ s.live.length) :
    (s.afterNext best).liveAt k =
      if k < s.liveCount.toNat then heldOff s.arg0 (s.currentHoldoff s.arg0) (s.liveAt k) else s.liveAt k :=
  State.overlay_livePulses_getD _ k hn

/-- With no pulse before the holdoff NEXT leaves the live table alone. -/
theorem State.movedPulses_eq_livePulses {s : State}
    (h : ∀ e ∈ s.livePulses, s.currentHoldoff s.arg0 ≤ effOffset s.arg0 e.next) : s.movedPulses = s.livePulses :=
  (List.map_congr_left fun e he => heldOff_of_le (h e he)).trans (List.map_id _)

theorem State.afterNext_live_of_unmoved {s : State} (best : LiveEntry) (h : s.movedPulses = s.livePulses) :
    (s.afterNext best).live = s.live := by
  rw [State.afterNext_live, h]
  exact overlay_take_self s.live s.liveCount.toNat

section AfterNext

variable {s : State} {best : LiveEntry} (hlen : s.live.length = s.cfg.maxPeaks)
  (hcount : s.liveCount.toNat ≤ s.cfg.maxPeaks)

include hlen hcount

theorem State.afterNext_livePulses : (s.afterNext best).livePulses = s.movedPulses :=
  overlay_livePulses_take s _ hlen hcount

/-- R204 on the live table NEXT leaves: the choice stands in it, none is sooner, and none of a lower index is as
soon. -/
theorem State.afterNext_soonest (h : soonest s.arg0 s.movedPulses = some best) :
    ∃ k, k < s.liveCount.toNat ∧ (s.afterNext best).liveAt k = best ∧
      (∀ j, j < s.liveCount.toNat →
        effOffset s.arg0 best.next ≤ effOffset s.arg0 ((s.afterNext best).liveAt j).next) ∧
      (∀ j, j < k → effOffset s.arg0 best.next < effOffset s.arg0 ((s.afterNext best).liveAt j).next) := by
  have hpulses := State.movedPulses_length (hlen ▸ hcount)
  have hmoved : s.movedPulses = (List.range s.liveCount.toNat).map (s.afterNext best).liveAt := by
    have hn : s.liveCount.toNat ≤ (s.afterNext best).live.length := by
      rwa [State.afterNext_live, overlay_length _ _ (by omega), hlen]
    rw [← State.afterNext_livePulses hlen hcount, State.livePulses_eq_map_range hn]
    rfl
  rw [hmoved] at h
  obtain ⟨k, hk, hbest, hmin, hfirst⟩ := soonest_spec h
  simp only [List.length_map, List.length_range, List.getElem_map, List.getElem_range] at hk hbest hmin hfirst
  exact ⟨k, hk, hbest, hmin, fun j hj => hfirst j (hj.trans hk) hj⟩

/-- R206: once no pulse stands before the holdoff, NEXT moves nothing more. -/
theorem State.afterNext_movedPulses (h : ∀ e ∈ s.movedPulses, s.currentHoldoff s.arg0 ≤ effOffset s.arg0 e.next) :
    (s.afterNext best).movedPulses = s.movedPulses := by
  have hholdoff : (s.afterNext best).currentHoldoff s.arg0 = s.currentHoldoff s.arg0 := by
    simp only [State.currentHoldoff, State.afterNext_hv, State.afterNext_holdoff]
    by_cases hfuture : isFuture s.arg0 s.holdoff = true
    · simp [hfuture]
    · simp [effOffset, hfuture]
  have hpulses := State.afterNext_livePulses (best := best) hlen hcount
  rw [State.movedPulses_eq_livePulses, hpulses]
  rwa [hpulses, State.afterNext_arg0, hholdoff]

end AfterNext

/-- Once NEXT moves nothing more, the state it leaves stays as it is. -/
theorem State.afterNext_afterNext {s : State} {best : LiveEntry}
    (h : (s.afterNext best).movedPulses = s.movedPulses) :
    (s.afterNext best).afterNext best = s.afterNext best := by
  have hlive : overlay (s.afterNext best).movedPulses (s.afterNext best).live = (s.afterNext best).live := by
    have htake := overlay_take_self (overlay s.movedPulses s.live) s.movedPulses.length
    rwa [overlay_take, ← State.afterNext_live s best, ← h] at htake
  have hhv : ((s.afterNext best).status.hv && isFuture s.arg0 s.holdoff) = (s.afterNext best).status.hv := by
    simp
  calc (s.afterNext best).afterNext best
      = { (s.afterNext best).setHv ((s.afterNext best).status.hv && isFuture s.arg0 s.holdoff) with
          live := overlay (s.afterNext best).movedPulses (s.afterNext best).live } := rfl
    _ = s.afterNext best := by rw [hlive, hhv]; rfl

/-! ### A lone pulse (R208) -/

/-- CONSUME leaves a lone pulse one period on, and the holdoff of its own firing. -/
theorem State.afterConsume_lone {s : State} (hlen : s.live.length = s.cfg.maxPeaks)
    (hcount : s.liveCount.toNat ≤ s.cfg.maxPeaks) (hone : s.liveCount = 1) (hnext : (s.liveAt 0).next = s.arg0) :
    s.afterConsume.livePulses = [{ s.liveAt 0 with next := s.arg0 + (s.liveAt 0).period }] ∧
      s.afterConsume.holdoff = holdoffAfter s.cfg s.arg0 (s.liveAt 0).period := by
  have hn : s.liveCount.toNat ≤ s.live.length := hlen ▸ hcount
  have h1 : s.liveCount.toNat = 1 := congrArg BitVec.toNat hone
  constructor
  · have hfired : advancedIf s.arg0 (s.liveAt 0) = { s.liveAt 0 with next := s.arg0 + (s.liveAt 0).period } :=
      if_pos hnext
    rw [State.afterConsume_livePulses hlen hcount, State.livePulses_eq_map_range hn, h1, List.range_one,
      List.map_singleton, List.map_singleton, hfired]
  · exact State.holdoffOfMatches_livePulses s.arg0 s.holdoff hn (by omega) hnext fun k _ _ => by omega

/-- Seen from an instant up to the holdoff of a firing, the holdoff is no further ahead than the next firing. -/
theorem effOffset_holdoffAfter_le {c : Config} {start after : Instant} {p : Duration} (hp : p.toNat ≤ 2 ^ 30)
    (h : ((tdiff start after).toNat : Int) ≤ sfApply c.holdoffRatio p.toNat) :
    effOffset after (start + p) = p.toNat - (tdiff start after).toNat ∧
      effOffset after (holdoffAfter c start p) ≤ effOffset after (start + p) := by
  obtain ⟨hlo, hhi⟩ := sfApply_bounds_of_nonneg c.holdoffRatio p.toNat (by positivity)
  have hduration := toNat_ofInt_duration hlo (by omega)
  have hpulse := effOffset_of_tdiff_le (start := start) (after := after) (d := p) (by omega) (by omega)
  refine ⟨hpulse, ?_⟩
  rw [hpulse, holdoffAfter, effOffset_of_tdiff_le (by omega) (by omega)]
  omega

end Sys2Proof.Machine
end

section
/-! Family 45_pulse_scheduler.md: the choice and the moves of NEXT, its empty table, and how it meets the holdoff. -/

namespace Sys2Proof.Machine

/-- Settles O53: no pulse, no choice. -/
theorem nextOfEmptyTable : Obligations.NextOfEmptyTable := by
  intro s hf hcount
  refine exec_next_empty hf ?_
  rw [State.livePulses, hcount]
  rfl

/-- Settles O55: the least number of periods is the number of turns of the repeated advance. -/
theorem closedFormIsRepeatedAdvance : Obligations.ClosedFormIsRepeatedAdvance := by
  intro after h e hp hfit
  obtain ⟨n, heq, hreach, hbefore⟩ := heldOff_first_reach (after := after) hp hfit
  exact ⟨n, heq, by rwa [heq], hbefore⟩

/-- Settles O54: `afterNext` read entry by entry; the choice by `soonest_spec`, each move by `heldOff_spec`. -/
theorem nextReturnsTheSoonest : Obligations.NextReturnsTheSoonest := by
  intro s ⟨_, ⟨_, _, hlen⟩, _, _, ⟨hcount, hperiods⟩, _⟩ hf hpos h signed
  have hn : s.liveCount.toNat ≤ s.live.length := hlen ▸ hcount
  have hh : s.currentHoldoff s.arg0 = h := rfl
  have hsigned : ∀ u, signedOffset s.arg0 u = signed u := fun u => by
    simp only [signedOffset, isFuture_eq_true_iff]
    rfl
  obtain ⟨best, hbest⟩ := State.exists_soonest hn hpos
  have hlive := fun k => State.afterNext_liveAt best k hn
  refine ⟨_, exec_next_of_soonest hf hbest, rfl, ?_, fun k hk => ?_, fun k hk => (hlive k).trans (if_neg hk.not_gt)⟩
  · obtain ⟨k, hk, hkbest, hmin, hfirst⟩ := State.afterNext_soonest hlen hcount hbest
    rw [State.afterNext_res1_toNat]
    exact ⟨k, hk, by rw [hkbest, State.afterNext_res0], rfl, hmin, hfirst⟩
  · have ⟨hp, _⟩ := hperiods (s.liveAt k) (State.liveAt_mem_livePulses hn hk)
    obtain ⟨hperiod, hstays, hmoves⟩ := heldOff_spec s.arg0 h (s.liveAt k) hp
    rw [hlive, if_pos hk, hh]
    refine ⟨hperiod, hstays, fun hlt => ?_⟩
    obtain ⟨n, hn1, heq, hreach, hleast⟩ := hmoves hlt
    rw [hsigned] at hreach hleast
    exact ⟨n, hn1, by rw [heq], hreach, hleast⟩

/-- Settles O56: no pulse stands before the holdoff after the moves, so neither does the choice. -/
theorem nextRespectsTheHoldoff : Obligations.NextRespectsTheHoldoff := by
  intro s t ⟨_, ⟨_, _, hlen⟩, _, _, ⟨hcount, hperiods⟩, _⟩ hf hpos hhv hfuture hfit hexec
  obtain ⟨best, hbest⟩ := State.exists_soonest (hlen ▸ hcount) hpos
  rw [exec_next_of_soonest hf hbest] at hexec
  cases hexec
  have hh : s.currentHoldoff s.arg0 = effOffset s.arg0 s.holdoff := if_pos hhv
  have hreach := State.le_effOffset_movedPulses (fun e he => (hperiods e he).1) (hh ▸ hfit) best (mem_of_soonest hbest)
  rw [hh] at hreach
  refine ⟨by rwa [State.afterNext_res1_toNat], by rw [State.afterNext_hv, hhv, hfuture]; rfl, fun hahead => ?_⟩
  exact eq_add_of_effOffset_pos (hahead.trans_le hreach)

/-- Settles O57: the moves leave no pulse before the holdoff, so the second NEXT finds the same choice. -/
theorem nextIsRepeatable : Obligations.NextIsRepeatable := by
  intro s t ⟨_, ⟨_, _, hlen⟩, _, _, ⟨hcount, hperiods⟩, _⟩ hf hfit hexec
  cases hbest : soonest s.arg0 s.movedPulses with
  | none =>
    have hempty : s.livePulses = [] := List.map_eq_nil_iff.1 (soonest_eq_none_iff.1 hbest)
    rw [exec_next_empty hf hempty] at hexec
    cases hexec
    exact exec_next_empty hf hempty
  | some best =>
    rw [exec_next_of_soonest hf hbest] at hexec
    cases hexec
    have hmoved : (s.afterNext best).movedPulses = s.movedPulses :=
      State.afterNext_movedPulses hlen hcount
        (State.le_effOffset_movedPulses (fun e he => (hperiods e he).1) hfit)
    rw [exec_next_of_soonest (s := s.afterNext best) hf (by rwa [hmoved]), State.afterNext_afterNext hmoved]

/-- Settles O58: the holdoff stands no further after the firing than the pulse's next instant, so NEXT moves nothing. -/
theorem lonePulseFiresEveryPeriod : Obligations.LonePulseFiresEveryPeriod := by
  intro s t after ⟨hc, ⟨_, _, hlen⟩, _, _, ⟨hcount, hperiods⟩, _⟩ hf hone hnext hexec hafter
  obtain ⟨-, -, -, -, -, -, -, -, -, -, -, -, hmax⟩ := Config_wellFormed_parts s.cfg hc
  have hn : s.liveCount.toNat ≤ s.live.length := hlen ▸ hcount
  have hpos : 0 < s.liveCount.toNat := by rw [hone]; decide
  have hmem : s.liveAt 0 ∈ s.livePulses := State.liveAt_mem_livePulses hn hpos
  have ⟨_, hpmax⟩ := hperiods _ hmem
  rw [exec_consume_fires hf hmem hnext] at hexec
  cases hexec
  obtain ⟨hlive, hnow⟩ := State.afterConsume_lone hlen hcount hone hnext
  obtain ⟨hpulse, hholdoff⟩ := effOffset_holdoffAfter_le (hpmax.trans hmax) hafter
  let seen : State := { s.afterConsume with arg0 := after }
  have hunmoved : seen.movedPulses = seen.livePulses := by
    refine State.movedPulses_eq_livePulses fun e he => ?_
    obtain rfl := List.mem_singleton.1 (hlive ▸ he)
    exact (congrArg (effOffset after) hnow).trans_le hholdoff
  have hbest : soonest seen.arg0 seen.movedPulses =
      some { s.liveAt 0 with next := s.arg0 + (s.liveAt 0).period } := by
    rw [hunmoved, show seen.livePulses = _ from hlive]
    rfl
  refine ⟨_, exec_next_of_soonest (s := seen) hf hbest, rfl, ?_, State.afterNext_live_of_unmoved _ hunmoved, ?_⟩
  · rwa [State.afterNext_res1_toNat]
  · have hentry := State.overlay_livePulses_getD (advancedIf s.arg0) 0 hn
    rw [if_pos hpos, advancedIf, if_pos hnext] at hentry
    exact congrArg LiveEntry.next hentry

end Sys2Proof.Machine
end

section
/-! Family 46_timer_comparator.md: the two results of CMP and its frame. -/

namespace Sys2Proof.Machine

/-- The future test as a word: 1 below half the range, 0 from there on (R221, R222). -/
theorem isFuture_word (a b : Instant) :
    (if isFuture a b then (1 : Word) else 0) = if (tdiff a b).toNat < 2 ^ 31 then 1 else 0 :=
  if_congr (isFuture_eq_true_iff a b) rfl rfl

/-- The body of CMP over the operand registers: `ARG0` is instant A, `ARG1` instant B (R221). -/
theorem cmpBody_eq (s : State) :
    cmpBody s = { s with
      res0 := s.arg1 - s.arg0
      res1 := if (s.arg1 - s.arg0).toNat < 2 ^ 31 then 1 else 0 } :=
  congrArg (fun r => { s with res0 := s.arg1 - s.arg0, res1 := r }) (isFuture_word s.instantA s.instantB)

/-- Settles O59: command start touches `ERR` alone, so the body reads the operands as they stood. -/
theorem cmpWritesTheDifference : Obligations.CmpWritesTheDifference := by
  intro s hf
  rw [exec_running .cmp s hf]
  exact congrArg _ (cmpBody_eq (s.setErr .ok))

end Sys2Proof.Machine
end

section
/-! SUPPORT. Command words and the fatal fault (spec/60_exceptions.md R231, R234, R235): what a write to `CMD` does in
the stopped state, and which commands leave the block in it. -/

namespace Sys2Proof.Machine

/-! ### The stopped state (R235) -/

/-- In the stopped state the word written to `CMD` is not looked at: a command and an illegal word both report
`ABORT`. -/
theorem commandWrite_stopped (s : State) (w : Word) (hf : s.status.fault = true) :
    commandWrite s w = .next (s.setErr .abort) := by
  rw [commandWrite_eq]
  cases decode w with
  | ok i => exact congrArg _ (State.command_stopped s (bodyOf i) hf)
  | error e => exact congrArg _ (State.illegalCommand_stopped s hf)

theorem access_read_of_resolve (s : State) {width off : Nat} {l : Loc} (h : resolve s.cfg width off = .ok l) :
    access s (.read width off) = .next (s.answer (.data (s.readLoc l))) := by
  simp only [access, h]

theorem writeLoc_thresh (s : State) (w : Word) :
    writeLoc s .thresh w = .next { s with thresh := w.setWidth 16 } := by
  rw [BitVec.setWidth_eq_extractLsb' (by decide)]
  rfl

theorem writeLoc_ctrl_reset (s : State) {w : Word} (hw : w.getLsbD 0 = true) :
    writeLoc s .ctrl w = .next s.resetBlock :=
  congrArg _ (if_pos hw)

/-! ### Which commands fault (R231) -/

/-- A cause that command `i` can raise under the overflow policy of `c`: with `OVF_MODE = SATURATE` no conversion
faults, and only the ridge list is left (R231). -/
def CanRaiseUnder (c : Config) (i : Instr) (code : FaultCode) : Prop :=
  CanRaise i code ∧ (c.ovfMode = .saturate → code = .capacity)

/-- A conversion that does not fit, in one of the three commands that narrow, faults only with `OVF_MODE = FAULT`. -/
theorem CanRaiseUnder.of_arith {c : Config} {i : Instr} {code : FaultCode} (hi : i = .window ∨ i = .peaks ∨ i = .sched)
    (h : code = .arith ∧ c.ovfMode = .fault) : CanRaiseUnder c i code := by
  obtain ⟨rfl, hmode⟩ := h
  exact ⟨.inl ⟨rfl, hi⟩, fun hsat => nomatch hmode.symm.trans hsat⟩

/-- A command that runs leaves `FAULT` alone, or ends in fault entry with a cause of its own (R231, R234). -/
theorem bodyOf_fault_cases (i : Instr) (s : State) :
    (bodyOf i s).status.fault = s.status.fault ∨
    ∃ code, bodyOf i s = s.faultEntry i code ∧ CanRaiseUnder s.cfg i code := by
  cases i with
  | fft | adjust | cmp => exact .inl rfl
  | window =>
    simp only [bodyOf, windowBody]
    split
    · exact .inl rfl
    next code hcode => exact .inr ⟨code, rfl, .of_arith (.inl rfl) (windowOf_error _ _ _ hcode)⟩
  | peaks =>
    simp only [bodyOf, peaksBody]
    split
    · exact .inl rfl
    next code hcode =>
      refine .inr ⟨code, rfl, ?_⟩
      obtain rfl | harith := findPeaks_error _ _ _ _ hcode
      · exact ⟨.inr ⟨rfl, rfl⟩, fun _ => rfl⟩
      · exact .of_arith (.inr (.inl rfl)) harith
  | sched =>
    simp only [bodyOf, schedBody]
    split
    · exact .inl rfl
    next code hcode => exact .inr ⟨code, rfl, .of_arith (.inr (.inr rfl)) (schedulePulses_error _ _ _ hcode)⟩
  | consume =>
    simp only [bodyOf, consumeBody]
    split <;> exact .inl rfl
  | next =>
    simp only [bodyOf, nextBody]
    split <;> exact .inl rfl

/-- The write that takes a running block into the stopped state is the write of a command word, and its next state is
the fault entry of that command. -/
theorem writeLoc_raises_fault {s t : State} {l : Loc} {w : Word} (hf : s.status.fault = false)
    (h : writeLoc s l w = .next t) (ht : t.status.fault = true) :
    l = .cmd ∧ ∃ i code, decode w = .ok i ∧ t = (s.setErr .ok).faultEntry i code ∧ CanRaiseUnder s.cfg i code := by
  have hchanged : t.status.fault ≠ s.status.fault := by simp [hf, ht]
  obtain ⟨-, hw⟩ | ⟨rfl, hw⟩ | ⟨-, hw⟩ | ⟨-, hw⟩ | ⟨-, hw⟩ | ⟨i, -, hw⟩ | hw := writeLoc_cases s l w
  · cases hw.symm.trans h
    obtain ⟨-, hc⟩ | ⟨-, hc⟩ := s.writeCtrl_cases w <;> rw [hc] at ht hchanged
    · cases ht
    · exact absurd rfl hchanged
  · cases hd : decode w with
    | ok i =>
      rw [hw, commandWrite_of_ok s hd, exec_running i s hf] at h
      cases h
      obtain hkept | ⟨code, hentry, hcause⟩ := bodyOf_fault_cases i (s.setErr .ok)
      · exact absurd hkept hchanged
      · exact ⟨rfl, i, code, rfl, hentry, hcause⟩
    | error e =>
      rw [hw, commandWrite_of_error s hd, State.illegalCommand_running s hf] at h
      cases h
      exact absurd rfl hchanged
  all_goals
    cases hw.symm.trans h
    exact absurd rfl hchanged

/-- `FOP` is the lowest four bits of the command word as well as of its opcode (R80, R234). -/
theorem fopOf_eq_setWidth_encode (i : Instr) : fopOf i = (encode i).setWidth 4 := by
  cases i <;> rfl

end Sys2Proof.Machine
end

section
/-! Family 60_exceptions.md: the stopped state under commands and accesses, and the only ways into it. -/

namespace Sys2Proof.Machine

/-- Settles O5: command start tests for the stopped state before anything else, and the other accesses do not look at
`STATUS`. -/
theorem stoppedStateAnswersAbort : Obligations.StoppedStateAnswersAbort := by
  intro s hf
  refine ⟨fun i => ?_, fun w => commandWrite_stopped s w hf, fun _ _ _ hl => access_read_of_resolve s hl,
    fun w => ⟨rfl, rfl, writeLoc_thresh s w⟩, fun _ _ => rfl, fun w hw => ⟨_, writeLoc_ctrl_reset s hw, rfl⟩⟩
  rw [exec_eq, State.command_stopped s _ hf]

/-- Settles O7: of all next states only the fault entry of a command word just written has `FAULT` newly set, and
`CanRaiseUnder` names its causes. -/
theorem onlyThreeCommandsFault : Obligations.OnlyThreeCommandsFault := by
  intro s t hf h ht
  obtain rfl | ⟨b, rest, -, rfl⟩ | ⟨rest, r, rfl⟩ | ⟨l, w, rest, hp, -, hw⟩ := step_next_cases h
  · cases hf.symm.trans ht
  · cases b with
    | true => cases ht
    | false => cases hf.symm.trans ht
  · cases hf.symm.trans ht
  · obtain ⟨rfl, i, code, hd, rfl, hcause, hmode⟩ :=
      writeLoc_raises_fault (s := (s.withPending rest).answer .written) hf hw ht
    rw [State.faultEntry_status]
    refine ⟨w, i, rest, hp, hd, ?_, fopOf_eq_setWidth_encode i, rfl, hcause.imp And.left id, hmode⟩
    obtain ⟨-, hi⟩ | ⟨-, hi⟩ := hcause
    · exact hi
    · exact .inr (.inl hi)

end Sys2Proof.Machine
end

section
/-! SUPPORT. The resets, the steps by the input they take, and what the two groups of commands leave of each other's
state (spec/70_reset_and_hazards.md R260, R261, R266, R274). -/

namespace Sys2Proof.Machine

/-! ### The cleared block (R260, R261) -/

/-- Everything R260 lists of a block with configuration `c` has its value after reset. -/
def State.Cleared (c : Config) (t : State) : Prop :=
  t.cfg = c ∧ t.arg0 = 0 ∧ t.arg1 = 0 ∧ t.res0 = 0 ∧ t.res1 = 0 ∧ t.thresh = 0 ∧ statusWord t.status = 0 ∧
    t.faultOut = false ∧ t.peakCount = 0 ∧ t.stageCount = 0 ∧ t.liveCount = 0 ∧ t.holdoff = 0 ∧
    t.peak = List.replicate c.maxPeaks { freq := 0, mag := 0, phase := 0 } ∧
    t.stage = List.replicate c.maxPeaks { period := 0, offset := 0 } ∧
    t.live = List.replicate c.maxPeaks { period := 0, next := 0 } ∧ t.mem = []

theorem statusWord_reset : statusWord Status.reset = 0 := by decide

/-- A state is cleared as soon as it is the reset state but for the host's side and the model's counters. -/
theorem State.cleared_resetFor (c : Config) (hardReset : Bool) (pending : List HostInput) (response : BusResponse)
    (draws bufDraw : Nat) :
    State.Cleared c { State.resetFor c with
      hardReset := hardReset, pending := pending, response := response, draws := draws, bufDraw := bufDraw } :=
  ⟨rfl, rfl, rfl, rfl, rfl, rfl, statusWord_reset, rfl, rfl, rfl, rfl, rfl, rfl, rfl, rfl, rfl⟩

theorem State.cleared_resetBlock (s : State) : State.Cleared s.cfg s.resetBlock :=
  State.cleared_resetFor s.cfg _ _ _ _ _

theorem State.cleared_setHardReset (s : State) : State.Cleared s.cfg (s.setHardReset true) :=
  State.cleared_resetFor s.cfg _ _ _ _ _

/-! ### A step by the input it takes -/

theorem step_idle {s : State} (hp : s.pending = []) : step s = .next s := by
  simp only [step, stepInput, hp]

theorem step_resetLine {s : State} {b : Bool} {rest : List HostInput} (hp : s.pending = .resetLine b :: rest) :
    step s = .next ((s.withPending rest).setHardReset b) := by
  simp only [step, stepInput, hp, takeInput]

theorem step_underHardReset {s : State} {a : Access} {rest : List HostInput} (hr : s.hardReset = true)
    (hp : s.pending = .access a :: rest) :
    step s = .next { s with pending := rest, response := .refused .underHardReset } := by
  have htake : step s = takeInput (s.withPending rest) (.access a) := by simp only [step, stepInput, hp]
  exact htake.trans (if_pos hr)

/-- The map lists `CTRL` whatever the configuration, so outside the hard reset a write reaches it (R23). -/
theorem step_writeCtrl {s : State} {w : Word} {rest : List HostInput} (hr : s.hardReset = false)
    (hp : s.pending = .access (.write 4 0x008 w) :: rest) :
    step s = .next (((s.withPending rest).answer .written).writeCtrl w) :=
  step_write (l := .ctrl) hr hp rfl

/-! ### Every operation ends in a next state (R274) -/

theorem exec_answers (i : Instr) (s : State) : NextHas (exec i s) fun _ => True :=
  ⟨_, exec_eq i s, trivial⟩

theorem writeLoc_answers (s : State) (l : Loc) (w : Word) : NextHas (writeLoc s l w) fun _ => True := by
  obtain ⟨-, h⟩ | ⟨-, h⟩ | ⟨-, h⟩ | ⟨-, h⟩ | ⟨-, h⟩ | ⟨i, -, h⟩ | h := writeLoc_cases s l w
  case inr.inl => exact ⟨_, h.trans (commandWrite_eq s w), trivial⟩
  all_goals exact ⟨_, h, trivial⟩

theorem access_answers (s : State) (a : Access) : NextHas (access s a) fun _ => True := by
  obtain ⟨e, h⟩ | ⟨width, off, l, -, -, h⟩ | ⟨width, off, w, l, -, -, h⟩ := access_cases s a
  · exact ⟨_, h, trivial⟩
  · exact ⟨_, h, trivial⟩
  · rw [h]
    exact writeLoc_answers _ l w

theorem step_answers (s : State) : NextHas (step s) fun _ => True := by
  obtain ⟨-, h⟩ | ⟨b, rest, -, h⟩ | ⟨a, rest, -, -, h⟩ | ⟨a, rest, -, -, h⟩ := step_cases s
  · exact ⟨_, h, trivial⟩
  · exact ⟨_, h, trivial⟩
  · exact ⟨_, h, trivial⟩
  · rw [h]
    exact access_answers _ a

/-! ### The two groups of commands (R266) -/

/-- What only the Fire and Acquire commands write: the results, the live table and the holdoff, with the `STATUS` bits
that go with them. -/
def State.SameFireState (s t : State) : Prop :=
  t.res0 = s.res0 ∧ t.res1 = s.res1 ∧ t.live = s.live ∧ t.liveCount = s.liveCount ∧ t.holdoff = s.holdoff ∧
    t.status.hv = s.status.hv ∧ t.status.noneBit = s.status.noneBit

/-- What only the Process commands write: `BUF`, with the draw its unlisted bytes belong to, the PEAK and the STAGE
table. -/
def State.SameProcessState (s t : State) : Prop :=
  t.mem = s.mem ∧ t.bufDraw = s.bufDraw ∧ t.peak = s.peak ∧ t.peakCount = s.peakCount ∧ t.stage = s.stage ∧
    t.stageCount = s.stageCount

/-- Command start ends in the stopped state's `ABORT` or in the command's effect (spec/30_encoding.md R84). -/
theorem State.command_cases (s : State) (body : State → State) :
    s.command body = s.setErr .abort ∨ s.command body = body (s.setErr .ok) := by
  cases hf : s.status.fault with
  | true => exact .inl (s.command_stopped body hf)
  | false => exact .inr (s.command_running body hf)

/-- No command's fault destination is part of the fire state (R234). -/
theorem State.sameFireState_faultEntry (s : State) (i : Instr) (code : FaultCode) :
    s.SameFireState (s.faultEntry i code) := by
  obtain ⟨-, -, -, hres0, hres1, -, hholdoff, hlive, hcount, -⟩ := s.faultEntry_keeps i code
  refine ⟨hres0, hres1, hlive, hcount, hholdoff, ?_, ?_⟩ <;> rw [s.faultEntry_status]

/-- A Process command stores into its own destination, or ends in fault entry. -/
theorem bodyOf_sameFireState {i : Instr} (hi : i ∈ [Instr.window, .fft, .peaks, .sched]) (s : State) :
    s.SameFireState (bodyOf i s) := by
  cases i with
  | adjust | consume | next | cmp => simp at hi
  | fft => exact ⟨rfl, rfl, rfl, rfl, rfl, rfl, rfl⟩
  | window =>
    simp only [bodyOf, windowBody]
    split
    · exact ⟨rfl, rfl, rfl, rfl, rfl, rfl, rfl⟩
    · exact s.sameFireState_faultEntry _ _
  | peaks =>
    simp only [bodyOf, peaksBody]
    split
    · exact ⟨rfl, rfl, rfl, rfl, rfl, rfl, rfl⟩
    · exact s.sameFireState_faultEntry _ _
  | sched =>
    simp only [bodyOf, schedBody]
    split
    · exact ⟨rfl, rfl, rfl, rfl, rfl, rfl, rfl⟩
    · exact s.sameFireState_faultEntry _ _

/-- A Fire or Acquire command raises no fault and writes results, the live table and the holdoff only. -/
theorem bodyOf_sameProcessState {i : Instr} (hi : i ∈ [Instr.adjust, .consume, .next, .cmp]) (s : State) :
    s.SameProcessState (bodyOf i s) := by
  cases i with
  | fft | window | peaks | sched => simp at hi
  | adjust | cmp => exact ⟨rfl, rfl, rfl, rfl, rfl, rfl⟩
  | consume =>
    simp only [bodyOf, consumeBody]
    split <;> exact ⟨rfl, rfl, rfl, rfl, rfl, rfl⟩
  | next =>
    simp only [bodyOf, nextBody]
    split <;> exact ⟨rfl, rfl, rfl, rfl, rfl, rfl⟩

theorem State.command_sameFireState {i : Instr} (hi : i ∈ [Instr.window, .fft, .peaks, .sched]) (s : State) :
    s.SameFireState (s.command (bodyOf i)) := by
  obtain h | h := s.command_cases (bodyOf i) <;> rw [h]
  · exact ⟨rfl, rfl, rfl, rfl, rfl, rfl, rfl⟩
  · exact bodyOf_sameFireState hi (s.setErr .ok)

theorem State.command_sameProcessState {i : Instr} (hi : i ∈ [Instr.adjust, .consume, .next, .cmp]) (s : State) :
    s.SameProcessState (s.command (bodyOf i)) := by
  obtain h | h := s.command_cases (bodyOf i) <;> rw [h]
  · exact ⟨rfl, rfl, rfl, rfl, rfl, rfl⟩
  · exact bodyOf_sameProcessState hi (s.setErr .ok)

/-- The same stored bytes of the same draw read the same at every offset. -/
theorem State.SameProcessState.bufByte_eq {s t : State} (h : s.SameProcessState t) (a : Nat) :
    t.bufByte a = s.bufByte a := by
  obtain ⟨hmem, hdraw, -⟩ := h
  exact State.bufByte_eq s t a (by rw [hmem]) hdraw

end Sys2Proof.Machine
end

section
/-! Family 70_reset_and_hazards.md: the two resets, the state they leave, the hazards between the command groups, and
the answer of every step. -/

namespace Sys2Proof.Machine

/-- Settles O18: the soft reset is a `CTRL` write with bit 0 set, the hard reset the asserted line, and both leave the
block cleared; a `CTRL` write with bit 0 clear only answers. -/
theorem bothResetsClearTheBlock : Obligations.BothResetsClearTheBlock := by
  intro s
  refine ⟨fun w rest hr hp => ⟨fun hw => ?_, fun hw => ?_⟩, fun rest hp => ?_⟩
  · have hreset : step s = .next ((s.withPending rest).answer .written).resetBlock :=
      (step_writeCtrl hr hp).trans (congrArg _ (if_pos hw))
    exact ⟨_, hreset, State.cleared_resetBlock _⟩
  · rw [step_writeCtrl hr hp, State.writeCtrl, hw]
    rfl
  · exact ⟨_, step_resetLine hp, State.cleared_setHardReset (s.withPending rest)⟩

/-- Settles O60: the operands are no command's to write, and each group's destinations lie outside the other's state;
in the stopped state a command sets `ERR` alone. -/
theorem processAndFireShareNothing : Obligations.ProcessAndFireShareNothing := by
  refine fun s t => ⟨fun i hi h => ?_, fun i hi h => ?_⟩
  all_goals
    cases (exec_eq i s).symm.trans h
    obtain ⟨-, harg0, harg1, hthresh⟩ := s.command_keeps_operands i
  · obtain ⟨hres0, hres1, hlive, hcount, hholdoff, hhv, hnone⟩ := s.command_sameFireState hi
    exact ⟨harg0, harg1, hres0, hres1, hthresh, hlive, hcount, hholdoff, hhv, hnone⟩
  · have hbyte := (s.command_sameProcessState hi).bufByte_eq
    obtain ⟨hmem, -, hpeak, hpeaks, hstage, hstages⟩ := s.command_sameProcessState hi
    exact ⟨hmem, hbyte, hpeak, hpeaks, hstage, hstages, hthresh, harg0, harg1⟩

/-- Settles O19: the reset state of the chip is a cleared block. -/
theorem resetStateIsR260 : Obligations.ResetStateIsR260 :=
  have hcleared : State.Cleared Config.chip State.reset := State.cleared_resetFor Config.chip _ _ _ _ _
  hcleared.2

/-- Settles O20: each form of step of `step_cases` is a next state; the clauses on single inputs are the equations of
the step by the input it takes. -/
theorem everyStepAnswers : Obligations.EveryStepAnswers :=
  ⟨exec_answers, step_answers, fun _ => step_idle, fun _ _ _ => step_underHardReset, fun _ _ => step_resetLine,
    fun _ _ hp => ⟨_, step_resetLine hp, rfl, rfl, rfl⟩⟩

end Sys2Proof.Machine
end
